-- ==== Sys2Proof/Word.lean ====
section
/-! DEFINITION. The two bit widths of the M-20 core (spec/00_scope.md R5): the 45-bit word and the
12-bit address. Field accessors stand in `Decode.lean` and
`Machine/WordModel.lean`. -/

namespace Sys2Proof

/-- A 45-bit word, number or instruction (R5, R50). Bit 0 is the least significant bit (R7). -/
abbrev Word := BitVec 45

/-- A 12-bit word address (R5, R30). -/
abbrev Addr := BitVec 12

end Sys2Proof
end

