-- ==== Sys2Proof/Config.lean ====
section
/-! DEFINITION. What an implementation or the outside fixes: the configuration inputs of R6, the types
of the device contract (R21, R207), and the values the spec leaves free, as opaque constants. -/

namespace Sys2Proof

/-- `CFG.path` (R6): which arithmetic algorithm family is used. -/
inductive Path where
  | fastPath
  | exactPath
  deriving DecidableEq, Repr

/-- `CFG.mmr` (R6, R34): the register overlay off, active, or active with `IDX` and `IR` exposed. -/
inductive Overlay where
  | off
  | basic
  | ext
  deriving DecidableEq, Repr

/-- `OPMAP` (R6, R56), a table from opcodes to operations. Each entry gives an opcode the operation of a
row of the table of R56, named by that row's opcode; what the operation uses as modifiers still comes
from the opcode's own bits (R53). An opcode with no entry keeps its own row, so that the empty list is
the default. DESIGN CHOICE, for this form of the table, log 8. -/
abbrev OpMap := List (BitVec 6 × BitVec 6)

/-- The configuration inputs of R6, constant during a run. -/
structure Inputs where
  /-- `CFG.path` -/
  path : Path
  /-- `CFG.mmr` -/
  mmr : Overlay
  /-- `CFG.alt` -/
  alt : Bool
  /-- `CFG.memcheck` -/
  memcheck : Bool
  /-- `STORE_W`, the width of a backing-storage cell, at least 45. -/
  storeW : Nat
  /-- `MEM_WORDS`, the number of addressable words, at least one (log 8). -/
  memWords : Nat
  /-- `OPMAP`, the opcode assignment. -/
  opmap : OpMap
  /-- `FRESH_ZERO_TAG`: named, and unused by every rule (R74, U1). -/
  freshZeroTag : BitVec 1
  deriving DecidableEq, Repr

/-- How many levels of re-execution (R38) one step may nest before the model refuses: R258 and U13
let a model bound the depth as a resource limit. DESIGN CHOICE, log 4. -/
def Config.reexecLimit : Nat := 4096

/-- The backing store as (address, stored value) pairs. -/
abbrev Memory := List (Nat × Nat)

/-- The operation that draws a value for `AUX` on the exact path (R91, R131). -/
inductive AuxOp where
  | add
  | sub
  | subabs
  | div
  | sqrt
  deriving DecidableEq, Repr

/-- The devices a descriptor can select (R21). -/
inductive Device where
  | punch
  | print
  | drum
  | tape
  | tapeFormat
  deriving DecidableEq, Repr

/-- The values of `IO_SELECT` (R207). -/
inductive Selection where
  | device (d : Device)
  | conflict
  deriving DecidableEq, Repr, Inhabited

/-- The pending transfer descriptor `IOD` (R21). `last` is the field the spec names `end`. -/
structure Descriptor where
  valid : Bool
  dev : Device
  cc : Addr
  zone : Addr
  last : Addr
  deriving DecidableEq, Repr

/-- The statuses a device may answer: `OK` or one of four (the law of `DEV_PERFORM`, R207). -/
inductive DevStatus where
  | ok
  | cardCksum
  | cardRead
  | noCard
  | tapeRead
  deriving DecidableEq, Repr, Inhabited

/-- What `DEV_PERFORM` answers: `(status, checksum, writes)` (R207). -/
structure DevResult where
  status : DevStatus
  checksum : Word
  writes : List (Addr × Word)
  deriving DecidableEq, Repr, Inhabited

/-- The decode of one condition code by `IO_SELECT` and `IO_NOSTOP` (R207). -/
structure CodeDecode where
  select : Selection
  nostop : Bool
  deriving DecidableEq, Repr

/-- The outside of the device contract: what the environment has fixed of it. Whatever is not listed
is free (the opaque constants below). -/
structure Devices where
  /-- Condition codes whose decode is fixed. -/
  codes : List (Addr × CodeDecode)
  /-- Results of the next device calls, first call first. -/
  results : List DevResult
  /-- How many device calls there have been: it stands for the external device state of R207. -/
  calls : Nat
  deriving DecidableEq, Repr

/-- `AUX_DRAW(X, Y, OP, NR, NN, FR)`: a function of the operands under no law (R6, R91, U3). -/
opaque Config.auxDraw : Word → Word → AuxOp → Bool → Bool → Bool → Word

/-- `DELAY_OF(op)`: an unspecified natural (R6, R232, U11). -/
opaque Config.delayOf : BitVec 6 → Nat

/-- `DEV_DELAY(iod, start)`: an unspecified natural (R207). -/
opaque Config.devDelay : Descriptor → Addr → Nat

/-- `IO_SELECT(cc)` where the environment fixes nothing (R207, U10). -/
opaque Config.ioSelect : Addr → Selection

/-- `IO_NOSTOP(cc)` where the environment fixes nothing (R207, U10). -/
opaque Config.ioNostop : Addr → Bool

/-- `DEV_PERFORM(iod, start, MEM)` where the environment fixes nothing; the first argument is the
number of earlier device calls, for the external device state (R207, U10). -/
opaque Config.devPerform : Nat → Descriptor → Addr → Memory → DevResult

end Sys2Proof
end

