-- ==== Sys2Proof/Syntax.lean ====
section
/-! DEFINITION. The instructions, one constructor per row of spec/opcode_table.json (R56, R57). Every
instruction word carries three addresses, each with its index-modification bit (R51); an address an
instruction does not use is kept, so that no bit of a word is lost (R61, D43). -/

namespace Sys2Proof

/-- One address field with its tag bit: `indexed` says that `IDX` is added before use (R51, R54). -/
structure Operand where
  indexed : Bool
  addr : Addr
  deriving DecidableEq, Repr

/-- The 64 opcodes of `OPMAP` (R56). Opcodes `007` and `027`, and `047` and `067`, are LOWPROD with
the ignored `NR` position clear and set (R120); `057` and `077` have no handler (R57). -/
inductive Instr where
  /-- `MOV`, opcode `000` (R157): word copy. -/
  | mov (a1 a2 a3 : Operand)
  /-- `ADD`, opcode `001` (R101): floating add. -/
  | add (a1 a2 a3 : Operand)
  /-- `SUB`, opcode `002` (R102): floating subtract. -/
  | sub (a1 a2 a3 : Operand)
  /-- `SUBABS`, opcode `003` (R103): subtract absolute values. -/
  | subabs (a1 a2 a3 : Operand)
  /-- `DIV`, opcode `004` (R130): floating divide. -/
  | div (a1 a2 a3 : Operand)
  /-- `MUL`, opcode `005` (R116): floating multiply. -/
  | mul (a1 a2 a3 : Operand)
  /-- `EXPADDI`, opcode `006` (R147): add immediate to exponent. -/
  | expaddi (a1 a2 a3 : Operand)
  /-- `LOWPROD`, opcode `007` (R120): low-order product word. -/
  | lowprod (a1 a2 a3 : Operand)
  /-- `EXPADD`, opcode `010` (R149): add an operand's exponent. -/
  | expadd (a1 a2 a3 : Operand)
  /-- `LOOPLT`, opcode `011` (R192): loop while below. -/
  | looplt (a1 a2 a3 : Operand)
  /-- `CYCADD`, opcode `012` (R168): end-around add. -/
  | cycadd (a1 a2 a3 : Operand)
  /-- `ADDA`, opcode `013` (R164): address-field add. -/
  | adda (a1 a2 a3 : Operand)
  /-- `SHMI`, opcode `014` (R171): shift mantissa by immediate. -/
  | shmi (a1 a2 a3 : Operand)
  /-- `XOR`, opcode `015` (R160): bitwise compare. -/
  | xor (a1 a2 a3 : Operand)
  /-- `JSR`, opcode `016` (R188): jump storing a return marker. -/
  | jsr (a1 a2 a3 : Operand)
  /-- `HALT`, opcode `017` (R196): halt. -/
  | halt (a1 a2 a3 : Operand)
  /-- `RDSW`, opcode `020` (R158): read a console switch. -/
  | rdsw (a1 a2 a3 : Operand)
  /-- `ADD.NR`, opcode `021` (R101): floating add. -/
  | addNr (a1 a2 a3 : Operand)
  /-- `SUB.NR`, opcode `022` (R102): floating subtract. -/
  | subNr (a1 a2 a3 : Operand)
  /-- `SUBABS.NR`, opcode `023` (R103): subtract absolute values. -/
  | subabsNr (a1 a2 a3 : Operand)
  /-- `DIV.NR`, opcode `024` (R130): floating divide. -/
  | divNr (a1 a2 a3 : Operand)
  /-- `MUL.NR`, opcode `025` (R116): floating multiply. -/
  | mulNr (a1 a2 a3 : Operand)
  /-- `EXPSUBI`, opcode `026` (R148): subtract immediate from exponent. -/
  | expsubi (a1 a2 a3 : Operand)
  /-- `LOWPROD`, opcode `027` (R120): low-order product word. -/
  | lowprod027 (a1 a2 a3 : Operand)
  /-- `EXPSUB`, opcode `030` (R150): subtract an operand's exponent. -/
  | expsub (a1 a2 a3 : Operand)
  /-- `LOOPGE`, opcode `031` (R193): loop while not below. -/
  | loopge (a1 a2 a3 : Operand)
  /-- `CYCSUB`, opcode `032` (R169): end-around subtract. -/
  | cycsub (a1 a2 a3 : Operand)
  /-- `SUBA`, opcode `033` (R165): address-field subtract. -/
  | suba (a1 a2 a3 : Operand)
  /-- `SHWI`, opcode `034` (R172): shift word by immediate. -/
  | shwi (a1 a2 a3 : Operand)
  /-- `XORCHK`, opcode `035` (R161): bitwise compare, halting on mismatch. -/
  | xorchk (a1 a2 a3 : Operand)
  /-- `JC`, opcode `036` (R189): jump if CF is 1. -/
  | jc (a1 a2 a3 : Operand)
  /-- `HALT2`, opcode `037` (R197): halt, second variant. -/
  | halt2 (a1 a2 a3 : Operand)
  /-- `ROT`, opcode `040` (R159): rotate left. -/
  | rot (a1 a2 a3 : Operand)
  /-- `ADD.NN`, opcode `041` (R101): floating add. -/
  | addNn (a1 a2 a3 : Operand)
  /-- `SUB.NN`, opcode `042` (R102): floating subtract. -/
  | subNn (a1 a2 a3 : Operand)
  /-- `SUBABS.NN`, opcode `043` (R103): subtract absolute values. -/
  | subabsNn (a1 a2 a3 : Operand)
  /-- `SQRT`, opcode `044` (R138): floating square root. -/
  | sqrt (a1 a2 a3 : Operand)
  /-- `MUL.NN`, opcode `045` (R116): floating multiply. -/
  | mulNn (a1 a2 a3 : Operand)
  /-- `EXPADDI.NN`, opcode `046` (R147): add immediate to exponent. -/
  | expaddiNn (a1 a2 a3 : Operand)
  /-- `LOWPROD.NN`, opcode `047` (R120): low-order product word. -/
  | lowprodNn (a1 a2 a3 : Operand)
  /-- `EXPADD.NN`, opcode `050` (R149): add an operand's exponent. -/
  | expaddNn (a1 a2 a3 : Operand)
  /-- `LOOPLTF`, opcode `051` (R194): as LOOPLT, sets CF. -/
  | loopltf (a1 a2 a3 : Operand)
  /-- `IOSETUP`, opcode `052` (R206): latch a transfer descriptor. -/
  | iosetup (a1 a2 a3 : Operand)
  /-- `ADDO`, opcode `053` (R166): opcode-field add. -/
  | addo (a1 a2 a3 : Operand)
  /-- `SHME`, opcode `054` (R173): shift mantissa by an operand's exponent. -/
  | shme (a1 a2 a3 : Operand)
  /-- `AND`, opcode `055` (R162): bitwise and. -/
  | and (a1 a2 a3 : Operand)
  /-- `JMP`, opcode `056` (R187): jump. -/
  | jmp (a1 a2 a3 : Operand)
  /-- `RESERVED_057`, opcode `057` (R57): no handler. -/
  | reserved057 (a1 a2 a3 : Operand)
  /-- `ADDRFORM`, opcode `060` (R198): address formation. -/
  | addrform (a1 a2 a3 : Operand)
  /-- `ADD.NR.NN`, opcode `061` (R101): floating add. -/
  | addNrNn (a1 a2 a3 : Operand)
  /-- `SUB.NR.NN`, opcode `062` (R102): floating subtract. -/
  | subNrNn (a1 a2 a3 : Operand)
  /-- `SUBABS.NR.NN`, opcode `063` (R103): subtract absolute values. -/
  | subabsNrNn (a1 a2 a3 : Operand)
  /-- `SQRT.NR`, opcode `064` (R138): floating square root. -/
  | sqrtNr (a1 a2 a3 : Operand)
  /-- `MUL.NR.NN`, opcode `065` (R116): floating multiply. -/
  | mulNrNn (a1 a2 a3 : Operand)
  /-- `EXPSUBI.NN`, opcode `066` (R148): subtract immediate from exponent. -/
  | expsubiNn (a1 a2 a3 : Operand)
  /-- `LOWPROD.NN`, opcode `067` (R120): low-order product word. -/
  | lowprodNn067 (a1 a2 a3 : Operand)
  /-- `EXPSUB.NN`, opcode `070` (R150): subtract an operand's exponent. -/
  | expsubNn (a1 a2 a3 : Operand)
  /-- `LOOPGEF`, opcode `071` (R195): as LOOPGE, sets CF. -/
  | loopgef (a1 a2 a3 : Operand)
  /-- `IOEXEC`, opcode `072` (R208): perform the latched transfer. -/
  | ioexec (a1 a2 a3 : Operand)
  /-- `SUBO`, opcode `073` (R167): opcode-field subtract. -/
  | subo (a1 a2 a3 : Operand)
  /-- `SHWE`, opcode `074` (R174): shift word by an operand's exponent. -/
  | shwe (a1 a2 a3 : Operand)
  /-- `OR`, opcode `075` (R163): bitwise or. -/
  | or (a1 a2 a3 : Operand)
  /-- `JNC`, opcode `076` (R190): jump if CF is 0. -/
  | jnc (a1 a2 a3 : Operand)
  /-- `RESERVED_077`, opcode `077` (R57): no handler. -/
  | reserved077 (a1 a2 a3 : Operand)
  deriving DecidableEq, Repr

end Sys2Proof
end

