-- ==== Sys2Proof/Decode.lean ====
section
/-! DEFINITION. The fields of an instruction word (R51, R52, R71), the decoder (R56, R225) and the
encoder (R60). The decoder is total on 45-bit words, since every opcode value is a row of the table;
a stored value wider than a word is rejected by name. -/

namespace Sys2Proof

/-- `ATAG(w) = w[44:42]` (R51). Bit 2 belongs to A1, bit 1 to A2, bit 0 to A3. -/
def atagOf (w : Word) : BitVec 3 := w.extractLsb' 42 3

/-- `OPC(w) = w[41:36]` (R51). -/
def opcOf (w : Word) : BitVec 6 := w.extractLsb' 36 6

/-- The first operand: `A1(w) = w[35:24]` with tag bit 44 (R51, R54). -/
def operand1 (w : Word) : Operand := ⟨w.getLsbD 44, w.extractLsb' 24 12⟩

/-- The second operand: `A2(w) = w[23:12]` with tag bit 43 (R51, R54). -/
def operand2 (w : Word) : Operand := ⟨w.getLsbD 43, w.extractLsb' 12 12⟩

/-- The third operand: `A3(w) = w[11:0]` with tag bit 42 (R51, R54). -/
def operand3 (w : Word) : Operand := ⟨w.getLsbD 42, w.extractLsb' 0 12⟩

/-- `ipack(t, op, a1, a2, a3) = t || op || a1 || a2 || a3` (R71). -/
def ipack (t : BitVec 3) (op : BitVec 6) (a1 a2 a3 : Addr) : Word := t ++ op ++ a1 ++ a2 ++ a3

/-- The instruction an opcode number selects (`OPMAP`, R56). The last arm is `077`, the one value
below 64 that no other arm names. -/
def instrOf (op : Nat) (a1 a2 a3 : Operand) : Instr :=
  match op with
  | 0o000 => .mov a1 a2 a3
  | 0o001 => .add a1 a2 a3
  | 0o002 => .sub a1 a2 a3
  | 0o003 => .subabs a1 a2 a3
  | 0o004 => .div a1 a2 a3
  | 0o005 => .mul a1 a2 a3
  | 0o006 => .expaddi a1 a2 a3
  | 0o007 => .lowprod a1 a2 a3
  | 0o010 => .expadd a1 a2 a3
  | 0o011 => .looplt a1 a2 a3
  | 0o012 => .cycadd a1 a2 a3
  | 0o013 => .adda a1 a2 a3
  | 0o014 => .shmi a1 a2 a3
  | 0o015 => .xor a1 a2 a3
  | 0o016 => .jsr a1 a2 a3
  | 0o017 => .halt a1 a2 a3
  | 0o020 => .rdsw a1 a2 a3
  | 0o021 => .addNr a1 a2 a3
  | 0o022 => .subNr a1 a2 a3
  | 0o023 => .subabsNr a1 a2 a3
  | 0o024 => .divNr a1 a2 a3
  | 0o025 => .mulNr a1 a2 a3
  | 0o026 => .expsubi a1 a2 a3
  | 0o027 => .lowprod027 a1 a2 a3
  | 0o030 => .expsub a1 a2 a3
  | 0o031 => .loopge a1 a2 a3
  | 0o032 => .cycsub a1 a2 a3
  | 0o033 => .suba a1 a2 a3
  | 0o034 => .shwi a1 a2 a3
  | 0o035 => .xorchk a1 a2 a3
  | 0o036 => .jc a1 a2 a3
  | 0o037 => .halt2 a1 a2 a3
  | 0o040 => .rot a1 a2 a3
  | 0o041 => .addNn a1 a2 a3
  | 0o042 => .subNn a1 a2 a3
  | 0o043 => .subabsNn a1 a2 a3
  | 0o044 => .sqrt a1 a2 a3
  | 0o045 => .mulNn a1 a2 a3
  | 0o046 => .expaddiNn a1 a2 a3
  | 0o047 => .lowprodNn a1 a2 a3
  | 0o050 => .expaddNn a1 a2 a3
  | 0o051 => .loopltf a1 a2 a3
  | 0o052 => .iosetup a1 a2 a3
  | 0o053 => .addo a1 a2 a3
  | 0o054 => .shme a1 a2 a3
  | 0o055 => .and a1 a2 a3
  | 0o056 => .jmp a1 a2 a3
  | 0o057 => .reserved057 a1 a2 a3
  | 0o060 => .addrform a1 a2 a3
  | 0o061 => .addNrNn a1 a2 a3
  | 0o062 => .subNrNn a1 a2 a3
  | 0o063 => .subabsNrNn a1 a2 a3
  | 0o064 => .sqrtNr a1 a2 a3
  | 0o065 => .mulNrNn a1 a2 a3
  | 0o066 => .expsubiNn a1 a2 a3
  | 0o067 => .lowprodNn067 a1 a2 a3
  | 0o070 => .expsubNn a1 a2 a3
  | 0o071 => .loopgef a1 a2 a3
  | 0o072 => .ioexec a1 a2 a3
  | 0o073 => .subo a1 a2 a3
  | 0o074 => .shwe a1 a2 a3
  | 0o075 => .or a1 a2 a3
  | 0o076 => .jnc a1 a2 a3
  | _ => .reserved077 a1 a2 a3

/-- The opcode bits that the operation of a row uses as modifiers (R53): `NR` and `NN` for ADD, SUB,
SUBABS and MUL, `NR` for DIV and SQRT, `NN` for LOWPROD and the exponent instructions. In every other
row the two bits belong to the operation. -/
def modifierBits (row : BitVec 6) : BitVec 6 :=
  match (row.extractLsb' 0 4).toNat with
  | 0o1 | 0o2 | 0o3 | 0o5 => 0o60
  | 0o4 => 0o20
  | 0o6 | 0o7 | 0o10 => 0o40
  | _ => 0

/-- The operation of a row with the modifiers of opcode `op`: `NR <- op[4]`, `NN <- op[5]` (R53, R225). -/
def withModifiers (op row : BitVec 6) : BitVec 6 :=
  (row &&& ~~~modifierBits row) ||| (op &&& modifierBits row)

/-- The row of the table of R56 that an opcode runs as under an opcode map: the operation the map gives
it, with the opcode's own modifiers (R53, R56, R225). -/
def operationOf : OpMap → BitVec 6 → BitVec 6
  | [], op => op
  | (k, row) :: m, op => if k = op then withModifiers op row else operationOf m op

/-- Decode an instruction word through an opcode map (R52, R56, R225). -/
def decodeWith (m : OpMap) (w : Word) : Instr :=
  instrOf (operationOf m (opcOf w)).toNat (operand1 w) (operand2 w) (operand3 w)

/-- Decode an instruction word by the table of R56, the default map. -/
def decode (w : Word) : Instr := decodeWith [] w

/-- Why a stored value is no instruction. -/
inductive DecodeReject where
  /-- The value has a bit above bit 44 set (R40): it is no 45-bit word. -/
  | widerThanWord
  deriving DecidableEq, Repr

/-- Decode a stored value: rejected by name when it does not fit in 45 bits. -/
def decodeCell (v : Nat) : Except DecodeReject Instr :=
  if v < 2 ^ 45 then .ok (decode (BitVec.ofNat 45 v)) else .error .widerThanWord

/-- The instruction read from a table word of `nbits` bits with bit 0 least significant. An
instruction is exactly one 45-bit word (R50), so there is nothing to lay out. -/
def decodeTableWord (nbits w : Nat) : Option Instr :=
  match decodeCell (w % 2 ^ nbits) with
  | .ok i => some i
  | .error _ => none

/-- The opcode of an instruction (R56). -/
def opcodeOf (i : Instr) : BitVec 6 :=
  match i with
  | .mov _ _ _ => 0o000
  | .add _ _ _ => 0o001
  | .sub _ _ _ => 0o002
  | .subabs _ _ _ => 0o003
  | .div _ _ _ => 0o004
  | .mul _ _ _ => 0o005
  | .expaddi _ _ _ => 0o006
  | .lowprod _ _ _ => 0o007
  | .expadd _ _ _ => 0o010
  | .looplt _ _ _ => 0o011
  | .cycadd _ _ _ => 0o012
  | .adda _ _ _ => 0o013
  | .shmi _ _ _ => 0o014
  | .xor _ _ _ => 0o015
  | .jsr _ _ _ => 0o016
  | .halt _ _ _ => 0o017
  | .rdsw _ _ _ => 0o020
  | .addNr _ _ _ => 0o021
  | .subNr _ _ _ => 0o022
  | .subabsNr _ _ _ => 0o023
  | .divNr _ _ _ => 0o024
  | .mulNr _ _ _ => 0o025
  | .expsubi _ _ _ => 0o026
  | .lowprod027 _ _ _ => 0o027
  | .expsub _ _ _ => 0o030
  | .loopge _ _ _ => 0o031
  | .cycsub _ _ _ => 0o032
  | .suba _ _ _ => 0o033
  | .shwi _ _ _ => 0o034
  | .xorchk _ _ _ => 0o035
  | .jc _ _ _ => 0o036
  | .halt2 _ _ _ => 0o037
  | .rot _ _ _ => 0o040
  | .addNn _ _ _ => 0o041
  | .subNn _ _ _ => 0o042
  | .subabsNn _ _ _ => 0o043
  | .sqrt _ _ _ => 0o044
  | .mulNn _ _ _ => 0o045
  | .expaddiNn _ _ _ => 0o046
  | .lowprodNn _ _ _ => 0o047
  | .expaddNn _ _ _ => 0o050
  | .loopltf _ _ _ => 0o051
  | .iosetup _ _ _ => 0o052
  | .addo _ _ _ => 0o053
  | .shme _ _ _ => 0o054
  | .and _ _ _ => 0o055
  | .jmp _ _ _ => 0o056
  | .reserved057 _ _ _ => 0o057
  | .addrform _ _ _ => 0o060
  | .addNrNn _ _ _ => 0o061
  | .subNrNn _ _ _ => 0o062
  | .subabsNrNn _ _ _ => 0o063
  | .sqrtNr _ _ _ => 0o064
  | .mulNrNn _ _ _ => 0o065
  | .expsubiNn _ _ _ => 0o066
  | .lowprodNn067 _ _ _ => 0o067
  | .expsubNn _ _ _ => 0o070
  | .loopgef _ _ _ => 0o071
  | .ioexec _ _ _ => 0o072
  | .subo _ _ _ => 0o073
  | .shwe _ _ _ => 0o074
  | .or _ _ _ => 0o075
  | .jnc _ _ _ => 0o076
  | .reserved077 _ _ _ => 0o077

/-- The three operands of an instruction, in order. -/
def operandsOf (i : Instr) : Operand × Operand × Operand :=
  match i with
  | .mov a1 a2 a3 => (a1, a2, a3)
  | .add a1 a2 a3 => (a1, a2, a3)
  | .sub a1 a2 a3 => (a1, a2, a3)
  | .subabs a1 a2 a3 => (a1, a2, a3)
  | .div a1 a2 a3 => (a1, a2, a3)
  | .mul a1 a2 a3 => (a1, a2, a3)
  | .expaddi a1 a2 a3 => (a1, a2, a3)
  | .lowprod a1 a2 a3 => (a1, a2, a3)
  | .expadd a1 a2 a3 => (a1, a2, a3)
  | .looplt a1 a2 a3 => (a1, a2, a3)
  | .cycadd a1 a2 a3 => (a1, a2, a3)
  | .adda a1 a2 a3 => (a1, a2, a3)
  | .shmi a1 a2 a3 => (a1, a2, a3)
  | .xor a1 a2 a3 => (a1, a2, a3)
  | .jsr a1 a2 a3 => (a1, a2, a3)
  | .halt a1 a2 a3 => (a1, a2, a3)
  | .rdsw a1 a2 a3 => (a1, a2, a3)
  | .addNr a1 a2 a3 => (a1, a2, a3)
  | .subNr a1 a2 a3 => (a1, a2, a3)
  | .subabsNr a1 a2 a3 => (a1, a2, a3)
  | .divNr a1 a2 a3 => (a1, a2, a3)
  | .mulNr a1 a2 a3 => (a1, a2, a3)
  | .expsubi a1 a2 a3 => (a1, a2, a3)
  | .lowprod027 a1 a2 a3 => (a1, a2, a3)
  | .expsub a1 a2 a3 => (a1, a2, a3)
  | .loopge a1 a2 a3 => (a1, a2, a3)
  | .cycsub a1 a2 a3 => (a1, a2, a3)
  | .suba a1 a2 a3 => (a1, a2, a3)
  | .shwi a1 a2 a3 => (a1, a2, a3)
  | .xorchk a1 a2 a3 => (a1, a2, a3)
  | .jc a1 a2 a3 => (a1, a2, a3)
  | .halt2 a1 a2 a3 => (a1, a2, a3)
  | .rot a1 a2 a3 => (a1, a2, a3)
  | .addNn a1 a2 a3 => (a1, a2, a3)
  | .subNn a1 a2 a3 => (a1, a2, a3)
  | .subabsNn a1 a2 a3 => (a1, a2, a3)
  | .sqrt a1 a2 a3 => (a1, a2, a3)
  | .mulNn a1 a2 a3 => (a1, a2, a3)
  | .expaddiNn a1 a2 a3 => (a1, a2, a3)
  | .lowprodNn a1 a2 a3 => (a1, a2, a3)
  | .expaddNn a1 a2 a3 => (a1, a2, a3)
  | .loopltf a1 a2 a3 => (a1, a2, a3)
  | .iosetup a1 a2 a3 => (a1, a2, a3)
  | .addo a1 a2 a3 => (a1, a2, a3)
  | .shme a1 a2 a3 => (a1, a2, a3)
  | .and a1 a2 a3 => (a1, a2, a3)
  | .jmp a1 a2 a3 => (a1, a2, a3)
  | .reserved057 a1 a2 a3 => (a1, a2, a3)
  | .addrform a1 a2 a3 => (a1, a2, a3)
  | .addNrNn a1 a2 a3 => (a1, a2, a3)
  | .subNrNn a1 a2 a3 => (a1, a2, a3)
  | .subabsNrNn a1 a2 a3 => (a1, a2, a3)
  | .sqrtNr a1 a2 a3 => (a1, a2, a3)
  | .mulNrNn a1 a2 a3 => (a1, a2, a3)
  | .expsubiNn a1 a2 a3 => (a1, a2, a3)
  | .lowprodNn067 a1 a2 a3 => (a1, a2, a3)
  | .expsubNn a1 a2 a3 => (a1, a2, a3)
  | .loopgef a1 a2 a3 => (a1, a2, a3)
  | .ioexec a1 a2 a3 => (a1, a2, a3)
  | .subo a1 a2 a3 => (a1, a2, a3)
  | .shwe a1 a2 a3 => (a1, a2, a3)
  | .or a1 a2 a3 => (a1, a2, a3)
  | .jnc a1 a2 a3 => (a1, a2, a3)
  | .reserved077 a1 a2 a3 => (a1, a2, a3)

/-- `atag = 4*[@a1] + 2*[@a2] + [@a3]` (R60). -/
def atagBits (a1 a2 a3 : Operand) : BitVec 3 :=
  BitVec.ofBool a1.indexed ++ BitVec.ofBool a2.indexed ++ BitVec.ofBool a3.indexed

/-- The word of an instruction with opcode `op`:
`(atag << 42) | (op << 36) | (a1 << 24) | (a2 << 12) | a3` (R60). -/
def encodeAs (op : BitVec 6) (i : Instr) : Word :=
  let ops := operandsOf i
  ipack (atagBits ops.1 ops.2.1 ops.2.2) op ops.1.addr ops.2.1.addr ops.2.2.addr

/-- The word of an instruction by the table of R56, the default map. -/
def encode (i : Instr) : Word := encodeAs (opcodeOf i) i

/-- The least opcode that selects the instruction's row under a map, if there is one. -/
def opcodeUnder (m : OpMap) (i : Instr) : Option (BitVec 6) :=
  ((List.range 64).map (BitVec.ofNat 6)).find? fun op => operationOf m op == opcodeOf i

/-- A word of an instruction under an opcode map, if it has one (R56, R60). -/
def encodeWith (m : OpMap) (i : Instr) : Option Word := (opcodeUnder m i).map fun op => encodeAs op i

end Sys2Proof
end

