-- ==== Sys2Proof/Machine/State.lean ====
section
/-! DEFINITION. The state of the M-20 core (spec/10_state.md R10 to R24) as plain data, the statuses
(R216), the reasons a step can stop, and the state after reset (R24, R245). -/

namespace Sys2Proof.Machine

/-- The statuses of R216, in the table's order (codes 0 to 18). -/
inductive Status where
  | ok
  | badOp
  | addOvf
  | mulOvf
  | divOvf
  | sqrtOvf
  | divMovf
  | divZero
  | memCorrupt
  | badSwitch
  | ioConflict
  | sqrtNeg
  | cardCksum
  | cardRead
  | tapeRead
  | halt
  | cmpFail
  | noCard
  | readOnly
  deriving DecidableEq, Repr

/-- What IOEXEC still has to do after the device's words are stored (R208): the device's status, the
checksum, the alternate address `A2e` and the checksum's destination `A3e`. -/
structure TransferEnd where
  status : DevStatus
  checksum : Word
  alternate : Addr
  dest : Addr
  deriving DecidableEq, Repr

/-- The re-execution a store to the `IR` overlay address asks for (R38), and what the storing
instruction still does after it. The model's own field, idle between steps. -/
inductive Pending where
  /-- No re-execution is due. -/
  | idle
  /-- Execute `IR`; nothing follows, and its status is the storing instruction's. -/
  | store
  /-- Execute `IR`, then `PC <- target`: JSR's last line (R188). -/
  | jump (target : Addr)
  /-- Execute `IR`, drop its status, go on with IOEXEC's remaining device words (R208). -/
  | transfer (rest : List (Addr × Word)) (tail : TransferEnd)
  deriving DecidableEq, Repr

/-- The architectural state (R10), the configuration inputs (R6) and the model's own fields. -/
structure State where
  /-- `MEM`: the cells that do not read as 0, by rising address (R20, R24). -/
  mem : Memory
  /-- `PC` (R12). -/
  pc : Addr
  /-- `IR` (R14). -/
  ir : Word
  /-- `IDX` (R15). -/
  idx : Addr
  /-- `RES` (R16). -/
  res : Word
  /-- `CF` (R13). -/
  cf : Bool
  /-- `AUX` (R17). -/
  aux : Word
  /-- `SW[0]` (R18). -/
  sw0 : Word
  /-- `SW[1]` (R18). -/
  sw1 : Word
  /-- `SW[2]` (R18). -/
  sw2 : Word
  /-- `SW[3]` (R18). -/
  sw3 : Word
  /-- `IOD` (R21). -/
  iod : Descriptor
  /-- `DELAY` (R22). -/
  delay : Nat
  /-- The configuration inputs (R6); no instruction writes them. -/
  cfg : Inputs
  /-- The status of the last step, or of the last host deposit if that came later: the `status` and
  `dep_status` ports of R252 in one field. The model's own field, logs 1 and 18. -/
  status : Status
  /-- The re-execution in progress (R38). The model's own field, log 4. -/
  pend : Pending
  /-- The outside of the device contract (R207). The model's own field, log 6. -/
  devices : Devices
  deriving DecidableEq, Repr

/-- The machine never stops with a fault: every condition the spec names ends an instruction with a
status (R215), which is a next state. No constructor is raised by anyone. -/
inductive Fault where
  deriving DecidableEq, Repr

/-- Why the model gives no next state. -/
inductive Refusal where
  /-- An instruction with no meaning in the model. Raised only by `exec`'s refused arms; none is left.
  Safe. -/
  | notModelled (mnemonic : String)
  /-- ADDRFORM with `CFG.alt` true: the spec gives no effect and tells a model to refuse (R198, U8).
  Raised by `execAddrform`. Safe. -/
  | addressFormation
  /-- More nested re-executions in one step than `Config.reexecLimit` (R258, U13). Raised by
  `execute`. Safe. -/
  | reexecutionDepth
  deriving DecidableEq, Repr

/-- What one instruction or one step answers. -/
abbrev Result := Host.Outcome State Fault Refusal

/-- The machine right after reset (R24, R245). The configuration inputs have no reset value: the
defaults of R6 and of spec/95_test_vectors.md stand here (logs 2 and 8). -/
def State.reset : State where
  mem := []
  pc := 0
  ir := 0
  idx := 0
  res := 0
  cf := false
  aux := 0
  sw0 := 0
  sw1 := 0
  sw2 := 0
  sw3 := 0
  iod := { valid := false, dev := .punch, cc := 0, zone := 0, last := 0 }
  delay := 0
  cfg := {
    path := .fastPath
    mmr := .off
    alt := false
    memcheck := false
    storeW := 45
    memWords := 4096
    opmap := []
    freshZeroTag := 0 }
  status := .ok
  pend := .idle
  devices := { codes := [], results := [], calls := 0 }

end Sys2Proof.Machine
end

