-- ==== Sys2Proof/Machine/WordModel.lean ====
section
/-! DEFINITION. The numeric word (spec/40_word_model.md R70 to R76): fields, construction, canonical
zero and left-normalization. Mantissas are naturals and exponents integers while a result is
computed; `pack` narrows once. -/

namespace Sys2Proof.Machine

/-- `TAG(w)`, bit 44 (R70). -/
def tagOf (w : Word) : Bool := w.getLsbD 44

/-- `SIGN(w)`, bit 43: true when negative (R70). -/
def signOf (w : Word) : Bool := w.getLsbD 43

/-- `EXP(w)`, bits 42:36, biased by 64 (R70). -/
def expOf (w : Word) : Nat := (w.extractLsb' 36 7).toNat

/-- `MANT(w)`, bits 35:0 (R70). -/
def mantOf (w : Word) : Nat := (w.extractLsb' 0 36).toNat

/-- `pack(s, e, m, t) = t || s || e || m` (R72): no range check, the caller establishes
`0 <= e <= 127` and `m < 2^36`. -/
def pack (s : Bool) (e : Int) (m : Nat) (t : Bool) : Word :=
  BitVec.ofBool t ++ BitVec.ofBool s ++ BitVec.ofInt 7 e ++ BitVec.ofNat 36 m

/-- `isZero(w)`: `w[43:0] = 0`, whatever the tag (R73). -/
def isZero (w : Word) : Bool := w.extractLsb' 0 44 == 0

/-- `zero(t)`: canonical machine zero carrying tag `t` (R74). -/
def zeroWord (t : Bool) : Word := pack false 0 0 t

/-- The loop of R75 with at most `n` shifts left to do. -/
def normalizeLoop (s t : Bool) : Nat → Int → Nat → Word
  | 0, e, m => pack s e m t
  | n + 1, e, m =>
    if 2 ^ 35 ≤ m then pack s e m t
    else if e - 1 < 0 then zeroWord t
    else normalizeLoop s t n (e - 1) (m * 2 % 2 ^ 36)

/-- `normalize(s, e, m, t)` (R75). "The loop runs at most 35 times." -/
def normalize (s : Bool) (e : Int) (m : Nat) (t : Bool) : Word :=
  if m = 0 then zeroWord t
  else if e < 0 then zeroWord t
  else normalizeLoop s t 35 e m

end Sys2Proof.Machine
end

