-- ==== Sys2Proof/Machine/Ops.lean ====
section
/-! DEFINITION. The named operations over memory, the overlay and the controller: `MemRead` (R33),
`MemWrite` (R36), ending an instruction with a status (R8, R215) and the rollback bookkeeping
(R226). -/

namespace Sys2Proof.Machine

/-- What a cell that is not listed reads as: the reset contents of memory (R20, R24). -/
def unlistedCell : Nat := 0

/-- `MEM[a]`: the stored value, bypassing every special rule (R8). -/
def memGet : Memory → Nat → Nat
  | [], _ => unlistedCell
  | (k, v) :: m, a => if k = a then v else memGet m a

/-- `MEM[a] <- v`, keeping the list canonical: a cell that reads as an unlisted one is not listed. -/
def memSet : Memory → Nat → Nat → Memory
  | [], a, v => if v = unlistedCell then [] else [(a, v)]
  | (k, u) :: m, a, v =>
    if a < k then if v = unlistedCell then (k, u) :: m else (a, v) :: (k, u) :: m
    else if a = k then if v = unlistedCell then m else (a, v) :: m
    else (k, u) :: memSet m a v

/-- The canonical form of the memory list: addresses strictly rising, all of them cells from 1 to
`MEM_WORDS - 1` (R20; address 0 is never written, R36), no cell listed that reads as an unlisted one,
every value within the `STORE_W` bits of a cell (R6). -/
abbrev memWf (words storeW : Nat) (m : Memory) : Prop :=
  m.Pairwise (fun p q => p.1 < q.1) ∧
    ∀ p ∈ m, 1 ≤ p.1 ∧ p.1 < words ∧ p.2 ≠ unlistedCell ∧ p.2 < 2 ^ storeW

/-- `a mod MEM_WORDS`: both primitives first reduce the address (R30). -/
def reduceAddr (cfg : Inputs) (a : Addr) : Addr := BitVec.ofNat 12 (a.toNat % cfg.memWords)

/-- The register overlay hides the reduced address `a`: `CFG.mmr` is not `OFF` and `a` is one of the
top eight addresses (R31, R34). -/
def overlaid (cfg : Inputs) (a : Addr) : Bool :=
  decide (cfg.mmr ≠ .off) && decide (0o7770 ≤ a.toNat)

/-- `overlay_read(a)` (the table of R34). In `BASIC` mode `07776` and `07777` read 0. -/
def overlayRead (s : State) (a : Addr) : Word :=
  match a.toNat with
  | 0o7771 => s.sw0
  | 0o7772 => s.sw1
  | 0o7773 => s.sw2
  | 0o7774 => s.sw3
  | 0o7775 => s.res
  | 0o7776 => if s.cfg.mmr = .ext then s.idx.setWidth 45 else 0
  | 0o7777 => if s.cfg.mmr = .ext then s.ir else 0
  | _ => 0

/-- `MemRead` at a reduced address (R33). -/
def memReadAt (s : State) (a : Addr) : Option Word :=
  if a = 0 then some 0
  else if overlaid s.cfg a then some (overlayRead s a)
  else if s.cfg.memcheck && decide (2 ^ 45 ≤ memGet s.mem a.toNat) then none
  else some (BitVec.ofNat 45 (memGet s.mem a.toNat))

/-- `MemRead(a, 1)` (R33); `none` is `raise ST_MEM_CORRUPT`, the integrity check of R40. -/
def memRead (s : State) (a : Addr) : Option Word := memReadAt s (reduceAddr s.cfg a)

/-- What a write reaches at an address (R36). -/
inductive WriteTarget where
  /-- Nothing is written: `ST_READONLY`. -/
  | readOnly
  /-- `IDX`, at `07776` in `EXT` mode. -/
  | index
  /-- `IR`, at `07777` in `EXT` mode. -/
  | instruction
  /-- The backing cell. -/
  | cell
  deriving DecidableEq, Repr

/-- Which of them a reduced address is (R36). -/
def targetAt (cfg : Inputs) (a : Addr) : WriteTarget :=
  if a = 0 then .readOnly
  else if overlaid cfg a then
    if cfg.mmr = .ext ∧ a.toNat = 0o7776 then .index
    else if cfg.mmr = .ext ∧ a.toNat = 0o7777 then .instruction
    else .readOnly
  else .cell

/-- Which of them an address is (R36). -/
def writeTarget (cfg : Inputs) (a : Addr) : WriteTarget := targetAt cfg (reduceAddr cfg a)

/-- `MemWrite(a, 1, v)` as an instruction uses it (R36, R37): the returned `ST_READONLY` is dropped,
and a store to the `IR` overlay leaves the re-execution of R38 due. -/
def memWrite (a : Addr) (v : Word) (s : State) : State :=
  match writeTarget s.cfg a with
  | .readOnly => s
  | .index => { s with idx := v.extractLsb' 0 12 }
  | .instruction => { s with ir := v, pend := .store }
  | .cell => { s with mem := memSet s.mem (reduceAddr s.cfg a).toNat v.toNat }

/-- `raise ST_X`: the instruction ends at once with the status and has written nothing (R8, R221). -/
def raise (st : Status) (s : State) : Result := .next { s with status := st }

/-- The instruction completes: status `OK` (R215). -/
def complete (s : State) : Result := .next { s with status := .ok }

/-- An operand read: `MemRead(a, 1)`, then the rest of the instruction with the word, or
`raise ST_MEM_CORRUPT` (R222). -/
def withRead (a : Addr) (s : State) (rest : Word → Result) : Result :=
  match memRead s a with
  | some w => rest w
  | none => raise .memCorrupt s

/-- The code of a status (R216). -/
def statusCode : Status → Nat
  | .ok => 0
  | .badOp => 1
  | .addOvf => 2
  | .mulOvf => 3
  | .divOvf => 4
  | .sqrtOvf => 5
  | .divMovf => 6
  | .divZero => 7
  | .memCorrupt => 8
  | .badSwitch => 9
  | .ioConflict => 10
  | .sqrtNeg => 11
  | .cardCksum => 12
  | .cardRead => 13
  | .tapeRead => 14
  | .halt => 15
  | .cmpFail => 16
  | .noCard => 17
  | .readOnly => 18

/-- The statuses of the rollback-and-halt and reload-and-halt classes (R218, R219, R226). -/
def rollsBack : Status → Bool
  | .sqrtNeg | .cardCksum | .cardRead | .tapeRead | .halt => true
  | .cmpFail | .noCard | .divZero | .divMovf => true
  | .ok | .badOp | .addOvf | .mulOvf | .divOvf | .sqrtOvf => false
  | .memCorrupt | .badSwitch | .ioConflict | .readOnly => false

/-- The machine's taking of a status (R226): for the rollback and reload classes `PC` is decremented
and `IR` reloaded from it; for `OK` and the fatal class nothing happens (R217). R226 says that the
reload cannot raise; where it would (log 12), `raise ST_MEM_CORRUPT` is taken literally. -/
def finish (s : State) : State :=
  if rollsBack s.status then
    match memRead s (s.pc - 1) with
    | some w => { s with pc := s.pc - 1, ir := w }
    | none => { s with pc := s.pc - 1, status := .memCorrupt }
  else s

end Sys2Proof.Machine
end

