-- ==== Sys2Proof/Machine/Operands.lean ====
section
/-! DEFINITION. Operand forms: effective addresses (R54), the immediates made of them (R55), and the
console switches (R18, R158). -/

namespace Sys2Proof.Machine

/-- The effective address: `(a + (t ? IDX : 0)) mod 4096`, from the `IDX` at decode (R54). -/
def effAddr (o : Operand) (s : State) : Addr := if o.indexed then o.addr + s.idx else o.addr

/-- A bias-64 immediate: `(A1e mod 128) - 64`, from -64 to 63 (R55). -/
def bias64 (a : Addr) : Int := (a.toNat % 128 : Nat) - 64

/-- The rotation count `A1e mod 45` (R55, R159). -/
def rotCount (a : Addr) : Nat := a.toNat % 45

/-- `SW[n]`, where there is such a switch: legal numbers are 0 to 3 (R55, R158). -/
def switchOf (a : Addr) (s : State) : Option Word :=
  match a.toNat with
  | 0 => some s.sw0
  | 1 => some s.sw1
  | 2 => some s.sw2
  | 3 => some s.sw3
  | _ => none

end Sys2Proof.Machine
end

