-- ==== Sys2Proof/Machine/Flags.lean ====
section
/-! DEFINITION. The condition flag's rules (R13) and the common tails of the arithmetic and the
code/logical group (R100, R156). -/

namespace Sys2Proof.Machine

/-- `CF` after an arithmetic-group instruction: the sign of the result (R13 a). -/
def signFlag (r : Word) : Bool := signOf r

/-- `CF` after a code/logical instruction: 1 when all 45 bits are 0 (R13 b). -/
def zeroFlag (r : Word) : Bool := r == 0

/-- The arithmetic group's tail: `RES <- r`, `CF <- SIGN(r)`, then the store at `A3e` (R100). -/
def arithFinish (r : Word) (dest : Addr) (s : State) : Result :=
  .next (memWrite dest r { s with res := r, cf := signFlag r, status := .ok })

/-- `logfinish(r)`: `RES <- r`, `CF <- (r == 0)`, then the store at `A3e` (R156). -/
def logFinish (r : Word) (dest : Addr) (s : State) : Result :=
  .next (memWrite dest r { s with res := r, cf := zeroFlag r, status := .ok })

/-- The overwriting of `AUX` by an exact-path operation, with a value under no law; on the fast path
`AUX` is not touched (R89, R91, R131). -/
def drawAux (x y : Word) (op : AuxOp) (nr nn fr : Bool) (s : State) : State :=
  match s.cfg.path with
  | .fastPath => s
  | .exactPath => { s with aux := Config.auxDraw x y op nr nn fr }

end Sys2Proof.Machine
end

