-- ==== Sys2Proof/Machine/AddSub.lean ====
section
/-! DEFINITION. The floating-point adder/subtractor and ADD, SUB, SUBABS (spec/41_addsub.md R80 to
R103). -/

namespace Sys2Proof.Machine

/-- The adder's `OP` port (R80). -/
inductive AddOp where
  | add
  | sub
  | subabs
  deriving DecidableEq, Repr

/-- Step 1: the effective signs of the two operands (R82). -/
def effectiveSigns (op : AddOp) (x y : Word) : Bool × Bool :=
  match op with
  | .add => (signOf x, signOf y)
  | .sub => (signOf x, !signOf y)
  | .subabs => (false, true)

/-- Step 2: whether the round bit is set on the smaller-exponent mantissa (R83). -/
def roundBit (x y : Word) (nr fr : Bool) : Bool :=
  fr || (decide (expOf x ≠ expOf y) && !nr && !isZero x && !isZero y)

/-- Steps 2 and 3 on the smaller-exponent mantissa: bit 0 set by OR when `rb`, then a truncating right
shift by `delta`, 0 from 36 places on (R83, R84). -/
def alignMant (rb : Bool) (delta m : Nat) : Nat :=
  if 36 ≤ delta then 0 else (if rb then m ||| 1 else m) >>> delta

/-- The two mantissas after step 3; on equal exponents the second operand is the small one (R83). -/
def alignedMants (x y : Word) (rb : Bool) : Nat × Nat :=
  if expOf x < expOf y then (alignMant rb (expOf y - expOf x) (mantOf x), mantOf y)
  else (mantOf x, alignMant rb (expOf x - expOf y) (mantOf y))

/-- A magnitude with its effective sign (R85). -/
def signedMant (negative : Bool) (m : Nat) : Int := if negative then -(m : Int) else m

/-- Step 4: the signed sum of the aligned mantissas (R85). -/
def mantSum (op : AddOp) (x y : Word) (rb : Bool) : Int :=
  signedMant (effectiveSigns op x y).1 (alignedMants x y rb).1 +
    signedMant (effectiveSigns op x y).2 (alignedMants x y rb).2

/-- Step 5 on a magnitude that carries: round half up on the bit shifted out unless `NR`, then one
place right (R86). -/
def carryShift (nr : Bool) (mag : Nat) : Nat :=
  (if mag % 2 = 1 ∧ nr = false then mag + 1 else mag) / 2

/-- Steps 6 and 7: normalize unless `NN` (R87, R88). -/
def addResult (nn s : Bool) (e mag : Nat) (t : Bool) : Word :=
  if nn then pack s e mag t else normalize s e mag t

/-- The adder/subtractor (R80 to R92), the same function on both paths (R90). -/
def addsub (op : AddOp) (nr nn fr : Bool) (x y : Word) : Except Status Word :=
  let total := mantSum op x y (roundBit x y nr fr)
  let negative := decide (total < 0)
  let mag := total.natAbs
  let e := max (expOf x) (expOf y)
  let t := tagOf x || tagOf y
  if 2 ^ 36 ≤ mag then
    if 127 < e + 1 then .error .addOvf
    else .ok (addResult nn negative (e + 1) (carryShift nr mag) t)
  else .ok (addResult nn negative e mag t)

/-- `FR`: the second operand is negative canonical zero and the first is positive and not canonical
zero (R93). -/
def forceRound (x y : Word) : Bool :=
  (y.extractLsb' 0 44 == BitVec.ofNat 44 (2 ^ 43)) && !signOf x && !isZero x

/-- The operation named to `AUX_DRAW` (R91). -/
def auxOpOf : AddOp → AuxOp
  | .add => .add
  | .sub => .sub
  | .subabs => .subabs

/-- The common sequence of the addition family (R100 and the template above it). -/
def addFamily (op : AddOp) (nr nn : Bool) (a1 a2 a3 : Operand) (s : State) : Result :=
  withRead (effAddr a1 s) s fun x =>
    withRead (effAddr a2 s) s fun y =>
      match addsub op nr nn (forceRound x y) x y with
      | .error st => raise st s
      | .ok r =>
        arithFinish r (effAddr a3 s) (drawAux x y (auxOpOf op) nr nn (forceRound x y) s)

/-- ADD (R101). -/
def execAdd (a1 a2 a3 : Operand) (s : State) : Result :=
  addFamily .add false false a1 a2 a3 s

/-- ADD.NR (R101). -/
def execAddNr (a1 a2 a3 : Operand) (s : State) : Result :=
  addFamily .add true false a1 a2 a3 s

/-- ADD.NN (R101). -/
def execAddNn (a1 a2 a3 : Operand) (s : State) : Result :=
  addFamily .add false true a1 a2 a3 s

/-- ADD.NR.NN (R101). -/
def execAddNrNn (a1 a2 a3 : Operand) (s : State) : Result :=
  addFamily .add true true a1 a2 a3 s

/-- SUB (R102). -/
def execSub (a1 a2 a3 : Operand) (s : State) : Result :=
  addFamily .sub false false a1 a2 a3 s

/-- SUB.NR (R102). -/
def execSubNr (a1 a2 a3 : Operand) (s : State) : Result :=
  addFamily .sub true false a1 a2 a3 s

/-- SUB.NN (R102). -/
def execSubNn (a1 a2 a3 : Operand) (s : State) : Result :=
  addFamily .sub false true a1 a2 a3 s

/-- SUB.NR.NN (R102). -/
def execSubNrNn (a1 a2 a3 : Operand) (s : State) : Result :=
  addFamily .sub true true a1 a2 a3 s

/-- SUBABS (R103). -/
def execSubabs (a1 a2 a3 : Operand) (s : State) : Result :=
  addFamily .subabs false false a1 a2 a3 s

/-- SUBABS.NR (R103). -/
def execSubabsNr (a1 a2 a3 : Operand) (s : State) : Result :=
  addFamily .subabs true false a1 a2 a3 s

/-- SUBABS.NN (R103). -/
def execSubabsNn (a1 a2 a3 : Operand) (s : State) : Result :=
  addFamily .subabs false true a1 a2 a3 s

/-- SUBABS.NR.NN (R103). -/
def execSubabsNrNn (a1 a2 a3 : Operand) (s : State) : Result :=
  addFamily .subabs true true a1 a2 a3 s

end Sys2Proof.Machine
end

