-- ==== Sys2Proof/Machine/CodeLogical.lean ====
section
/-! DEFINITION. The code and logical instructions (spec/45_code_logical.md R155 to R175): words as
45-bit patterns. -/

namespace Sys2Proof.Machine

/-- Left rotation of all 45 bits by `n < 45` places (R159). -/
def rotl45 (x : Word) (n : Nat) : Word := (x <<< n) ||| (x >>> (45 - n))

/-- The upper 9 bits of `x` with new low 36 bits (R164, R170). -/
def withLow36 (x : Word) (lo : BitVec 36) : Word := x.extractLsb' 36 9 ++ lo

/-- The low 36 bits of `x` with new upper 9 bits (R166). -/
def withHigh9 (x : Word) (hi : BitVec 9) : Word := hi ++ x.extractLsb' 0 36

/-- ADDA's result: the 36-bit address field wraps, no carry into the opcode field (R164). -/
def addAddrField (x y : Word) : Word := withLow36 x (x.extractLsb' 0 36 + y.extractLsb' 0 36)

/-- SUBA's result (R165). -/
def subAddrField (x y : Word) : Word := withLow36 x (x.extractLsb' 0 36 - y.extractLsb' 0 36)

/-- ADDO's result: the 9-bit opcode field wraps (R166). -/
def addOpField (x y : Word) : Word := withHigh9 x (x.extractLsb' 36 9 + y.extractLsb' 36 9)

/-- SUBO's result (R167). -/
def subOpField (x y : Word) : Word := withHigh9 x (x.extractLsb' 36 9 - y.extractLsb' 36 9)

/-- CYCADD's result: the carry out of bit 44 is added back at bit 0 (R168). -/
def cycAdd (x y : Word) : Word :=
  let s := x.toNat + y.toNat
  BitVec.ofNat 45 (if 2 ^ 45 ≤ s then s - 2 ^ 45 + 1 else s)

/-- CYCSUB's result: the borrow out of bit 44 is subtracted at bit 0 (R169). -/
def cycSub (x y : Word) : Word :=
  let d := (x.toNat : Int) - y.toNat
  BitVec.ofInt 45 (if d < 0 then d + 2 ^ 45 - 1 else d)

/-- `shm(x, n)`: the mantissa shifted, bits 44:36 kept (R170). -/
def shm (x : Word) (n : Int) : Word :=
  let m := x.extractLsb' 0 36
  withLow36 x
    (if 36 ≤ n ∨ n ≤ -36 then 0 else if 0 ≤ n then m <<< n.toNat else m >>> (-n).toNat)

/-- `shw(x, n)`: the whole word shifted (R170). -/
def shw (x : Word) (n : Int) : Word :=
  if 45 ≤ n ∨ n ≤ -45 then 0 else if 0 ≤ n then x <<< n.toNat else x >>> (-n).toNat

/-- A code/logical instruction on two operands, `x = (A1e)` read before `y = (A2e)` (R61). -/
def logBinary (f : Word → Word → Word) (a1 a2 a3 : Operand) (s : State) : Result :=
  withRead (effAddr a1 s) s fun x =>
    withRead (effAddr a2 s) s fun y => logFinish (f x y) (effAddr a3 s) s

/-- A code/logical instruction on an immediate `A1e` and the word `(A2e)` (R159, R171, R172). -/
def logImmediate (f : Addr → Word → Word) (a1 a2 a3 : Operand) (s : State) : Result :=
  withRead (effAddr a2 s) s fun x => logFinish (f (effAddr a1 s) x) (effAddr a3 s) s

/-- MOV: `A2` is ignored (R157). -/
def execMov (a1 a3 : Operand) (s : State) : Result :=
  withRead (effAddr a1 s) s fun x => logFinish x (effAddr a3 s) s

/-- RDSW: any number above 3 raises `ST_BAD_SWITCH` (R158). -/
def execRdsw (a1 a3 : Operand) (s : State) : Result :=
  match switchOf (effAddr a1 s) s with
  | some w => logFinish w (effAddr a3 s) s
  | none => raise .badSwitch s

/-- ROT (R159). -/
def execRot (a1 a2 a3 : Operand) (s : State) : Result :=
  logImmediate (fun a x => rotl45 x (rotCount a)) a1 a2 a3 s

/-- XOR (R160). -/
def execXor (a1 a2 a3 : Operand) (s : State) : Result := logBinary (fun x y => x ^^^ y) a1 a2 a3 s

/-- XORCHK: nothing is stored; a mismatch raises `ST_CMP_FAIL` (R161). -/
def execXorchk (a1 a2 : Operand) (s : State) : Result :=
  withRead (effAddr a1 s) s fun x =>
    withRead (effAddr a2 s) s fun y =>
      if x ^^^ y = 0 then complete { s with res := 0, cf := true } else raise .cmpFail s

/-- AND (R162). -/
def execAnd (a1 a2 a3 : Operand) (s : State) : Result := logBinary (fun x y => x &&& y) a1 a2 a3 s

/-- OR (R163). -/
def execOr (a1 a2 a3 : Operand) (s : State) : Result := logBinary (fun x y => x ||| y) a1 a2 a3 s

/-- ADDA (R164). -/
def execAdda (a1 a2 a3 : Operand) (s : State) : Result := logBinary addAddrField a1 a2 a3 s

/-- SUBA (R165). -/
def execSuba (a1 a2 a3 : Operand) (s : State) : Result := logBinary subAddrField a1 a2 a3 s

/-- ADDO (R166). -/
def execAddo (a1 a2 a3 : Operand) (s : State) : Result := logBinary addOpField a1 a2 a3 s

/-- SUBO (R167). -/
def execSubo (a1 a2 a3 : Operand) (s : State) : Result := logBinary subOpField a1 a2 a3 s

/-- CYCADD (R168). -/
def execCycadd (a1 a2 a3 : Operand) (s : State) : Result := logBinary cycAdd a1 a2 a3 s

/-- CYCSUB (R169). -/
def execCycsub (a1 a2 a3 : Operand) (s : State) : Result := logBinary cycSub a1 a2 a3 s

/-- SHMI (R171). -/
def execShmi (a1 a2 a3 : Operand) (s : State) : Result :=
  logImmediate (fun a x => shm x (bias64 a)) a1 a2 a3 s

/-- SHWI (R172). -/
def execShwi (a1 a2 a3 : Operand) (s : State) : Result :=
  logImmediate (fun a x => shw x (bias64 a)) a1 a2 a3 s

/-- SHME: the amount is the true exponent of `z = (A1e)` (R173). -/
def execShme (a1 a2 a3 : Operand) (s : State) : Result :=
  logBinary (fun z x => shm x ((expOf z : Int) - 64)) a1 a2 a3 s

/-- SHWE (R174). -/
def execShwe (a1 a2 a3 : Operand) (s : State) : Result :=
  logBinary (fun z x => shw x ((expOf z : Int) - 64)) a1 a2 a3 s

end Sys2Proof.Machine
end

