-- ==== Sys2Proof/Machine/Control.lean ====
section
/-! DEFINITION. The control instructions (spec/46_control.md R185 to R199). `PC` already holds the
address of the next instruction when one executes (R186). -/

namespace Sys2Proof.Machine

/-- `PC <- A2e` when `taken` (R186). -/
def branch (taken : Bool) (target : Addr) (s : State) : State :=
  if taken then { s with pc := target } else s

/-- JMP (R187). -/
def execJmp (a2 : Operand) (s : State) : Result := complete (branch true (effAddr a2 s) s)

/-- JC: jump if `CF` is 1 (R189). -/
def execJc (a2 : Operand) (s : State) : Result := complete (branch s.cf (effAddr a2 s) s)

/-- JNC: jump if `CF` is 0 (R190). -/
def execJnc (a2 : Operand) (s : State) : Result := complete (branch (!s.cf) (effAddr a2 s) s)

/-- The return marker, the word `JMP 0, ret, 0` (R188): opcode `056` as the rule writes it, whatever
`OPMAP` is (log 8). -/
def returnMarker (ret : Addr) : Word := ipack 0 0o56 0 ret 0

/-- `PC <- target` after a store, and after the re-execution the store asked for, if any (R188:
"the marker is executed first and then `PC <- A2e` overrides it"). -/
def jumpAfterStore (target : Addr) (s : State) : State :=
  match s.pend with
  | .store => { s with pend := .jump target }
  | _ => { s with pc := target }

/-- JSR: the marker is stored at `A3e`, then the jump; `RES` and `CF` are kept (R188). -/
def execJsr (a2 a3 : Operand) (s : State) : Result :=
  .next (jumpAfterStore (effAddr a2 s)
    (memWrite (effAddr a3 s) (returnMarker s.pc) { s with status := .ok }))

/-- The polarity of a loop instruction (R191). -/
inductive Polarity where
  | lt
  | ge
  deriving DecidableEq, Repr

/-- Whether a loop branches: the current `IDX` against the bound `A1e`, unsigned (R191). -/
def loopTaken (p : Polarity) (bound : Addr) (s : State) : Bool :=
  match p with
  | .lt => decide (s.idx.toNat < bound.toNat)
  | .ge => !decide (s.idx.toNat < bound.toNat)

/-- `loop(polarity, flag)` (R191): the three effective addresses come from the old `IDX`; `IDX <- A3e`
whether taken or not. -/
def loopFamily (p : Polarity) (flag : Bool) (a1 a2 a3 : Operand) (s : State) : Result :=
  let taken := loopTaken p (effAddr a1 s) s
  complete { branch taken (effAddr a2 s) s with
    idx := effAddr a3 s
    cf := if flag then taken else s.cf }

/-- LOOPLT (R192). -/
def execLooplt (a1 a2 a3 : Operand) (s : State) : Result := loopFamily .lt false a1 a2 a3 s

/-- LOOPGE (R193). -/
def execLoopge (a1 a2 a3 : Operand) (s : State) : Result := loopFamily .ge false a1 a2 a3 s

/-- LOOPLTF (R194). -/
def execLoopltf (a1 a2 a3 : Operand) (s : State) : Result := loopFamily .lt true a1 a2 a3 s

/-- LOOPGEF (R195). -/
def execLoopgef (a1 a2 a3 : Operand) (s : State) : Result := loopFamily .ge true a1 a2 a3 s

/-- HALT: `raise ST_HALT` (R196). -/
def execHalt (s : State) : Result := raise .halt s

/-- HALT2: the same effect (R197). -/
def execHalt2 (s : State) : Result := raise .halt s

/-- ADDRFORM: unimplemented unless `CFG.alt`, where the spec gives no effect and a model must refuse
(R198, U8). -/
def execAddrform (s : State) : Result :=
  if s.cfg.alt then .refused .addressFormation else raise .badOp s

/-- Opcode `057`: no handler (R57). -/
def execReserved057 (s : State) : Result := raise .badOp s

/-- Opcode `077`: no handler (R57). -/
def execReserved077 (s : State) : Result := raise .badOp s

end Sys2Proof.Machine
end

