-- ==== Sys2Proof/Machine/DivideSqrt.lean ====
section
/-! DEFINITION. The floating-point divider and square-root unit, DIV and SQRT
(spec/43_divide_sqrt.md R125 to R138). -/

namespace Sys2Proof.Machine

/-- A mantissa with its exponent, under way. -/
structure Scaled where
  m : Nat
  e : Int
  deriving DecidableEq, Repr

/-- The raw quotient with its guard bit, right-normalized by one place when it is 1 or more (R128). -/
def divRaw (mx my : Nat) (e : Int) : Scaled :=
  let n := mx * 2 ^ 37 / my
  if 2 ^ 37 ≤ n then ⟨n / 2, e + 1⟩ else ⟨n, e⟩

/-- Round half up on the guard bit unless `NR`, drop it, and renormalize a carry (R128). -/
def divRound (nr : Bool) (n : Scaled) : Scaled :=
  let q := (if nr then n.m else n.m + 1) / 2
  if q = 2 ^ 36 then ⟨2 ^ 35, n.e + 1⟩ else ⟨q, n.e⟩

/-- `div(x, y, NR)` (R126 to R129), the checks in the order of R126. -/
def divUnit (nr : Bool) (x y : Word) : Except Status Word :=
  let t := tagOf x || tagOf y
  if mantOf y = 0 then .error .divZero
  else if 2 * mantOf y ≤ mantOf x then .error .divMovf
  else
    let q := divRound nr (divRaw (mantOf x) (mantOf y) ((expOf x : Int) - expOf y + 64))
    if q.m = 0 ∨ q.e < 0 then .ok (zeroWord t)
    else if 127 < q.e then .error .divOvf
    else .ok (pack (signOf x ^^ signOf y) q.e q.m t)

/-- DIV's sequence (R130); on the exact path `AUX` gets a free value (R131). -/
def divFamily (nr : Bool) (a1 a2 a3 : Operand) (s : State) : Result :=
  withRead (effAddr a1 s) s fun x =>
    withRead (effAddr a2 s) s fun y =>
      match divUnit nr x y with
      | .error st => raise st s
      | .ok r => arithFinish r (effAddr a3 s) (drawAux x y .div nr false false s)

/-- DIV (R130). -/
def execDiv (a1 a2 a3 : Operand) (s : State) : Result := divFamily false a1 a2 a3 s

/-- DIV.NR (R130). -/
def execDivNr (a1 a2 a3 : Operand) (s : State) : Result := divFamily true a1 a2 a3 s

/-- The digit recurrence of the integer square root, one bit a step from bit `n - 1` down. -/
def isqrtDigits (rad : Nat) : Nat → Nat → Nat
  | 0, r => r
  | n + 1, r => isqrtDigits rad n (if (r + 2 ^ n) * (r + 2 ^ n) ≤ rad then r + 2 ^ n else r)

/-- `isqrt(rad)`: the greatest root of 36 bits whose square is at most `rad` (R137). -/
def isqrt (rad : Nat) : Nat := isqrtDigits rad 36 0

/-- The 72-bit radicand and the halved exponent; an odd exponent moves one factor of two into the
mantissa (R136). -/
def sqrtScale (ex mx : Nat) : Scaled :=
  if ex % 2 = 1 then ⟨mx * 2 ^ 35, (((ex + 1) / 2 + 32 : Nat) : Int)⟩
  else ⟨mx * 2 ^ 36, ((ex / 2 + 32 : Nat) : Int)⟩

/-- The root, rounded to nearest unless `NR`, with the post-round carry (R137). -/
def sqrtRound (nr : Bool) (v : Scaled) : Scaled :=
  let r0 := isqrt v.m
  let r := if nr = false ∧ r0 < v.m - r0 * r0 then r0 + 1 else r0
  if r = 2 ^ 36 then ⟨2 ^ 35, v.e + 1⟩ else ⟨r, v.e⟩

/-- `sqrt(x, NR)` (R136, R137): the sign test comes before the zero test. -/
def sqrtUnit (nr : Bool) (x : Word) : Except Status Word :=
  if signOf x then .error .sqrtNeg
  else if mantOf x = 0 then .ok (zeroWord (tagOf x))
  else
    let q := sqrtRound nr (sqrtScale (expOf x) (mantOf x))
    if 127 < q.e then .error .sqrtOvf else .ok (pack false q.e q.m (tagOf x))

/-- SQRT's sequence (R138). -/
def sqrtFamily (nr : Bool) (a1 a3 : Operand) (s : State) : Result :=
  withRead (effAddr a1 s) s fun x =>
    match sqrtUnit nr x with
    | .error st => raise st s
    | .ok r => arithFinish r (effAddr a3 s) (drawAux x 0 .sqrt nr false false s)

/-- SQRT (R138). -/
def execSqrt (a1 a3 : Operand) (s : State) : Result := sqrtFamily false a1 a3 s

/-- SQRT.NR (R138). -/
def execSqrtNr (a1 a3 : Operand) (s : State) : Result := sqrtFamily true a1 a3 s

end Sys2Proof.Machine
end

