-- ==== Sys2Proof/Machine/Exponent.lean ====
section
/-! DEFINITION. Exponent arithmetic: EXPADDI, EXPSUBI, EXPADD, EXPSUB
(spec/44_exponent_arith.md R145 to R151). -/

namespace Sys2Proof.Machine

/-- The result of `expfinish` (R146): overflow is tested before normalization; with `NN` only a
negative exponent collapses. -/
def expUnit (nn s : Bool) (e : Int) (m : Nat) (t : Bool) : Except Status Word :=
  if 127 < e then .error .addOvf
  else if nn then if e < 0 then .ok (zeroWord t) else .ok (pack s e m t)
  else .ok (normalize s e m t)

/-- `expfinish(s, e, m, t, NN)` (R146) for the number `x`: its sign and mantissa with exponent `e`. -/
def expFinish (nn : Bool) (x : Word) (e : Int) (t : Bool) (dest : Addr) (s : State) : Result :=
  match expUnit nn (signOf x) e (mantOf x) t with
  | .error st => raise st s
  | .ok r => arithFinish r dest s

/-- The immediate forms: the number is `(A2e)`, the amount `k` comes from `A1e` (R147, R148). -/
def expImmediate (subtract nn : Bool) (a1 a2 a3 : Operand) (s : State) : Result :=
  withRead (effAddr a2 s) s fun x =>
    let k := bias64 (effAddr a1 s)
    expFinish nn x (if subtract then expOf x - k else expOf x + k) (tagOf x) (effAddr a3 s) s

/-- The operand forms: the amount is the true exponent of `z = (A1e)`, read first (R149, R150). -/
def expOperand (subtract nn : Bool) (a1 a2 a3 : Operand) (s : State) : Result :=
  withRead (effAddr a1 s) s fun z =>
    withRead (effAddr a2 s) s fun x =>
      expFinish nn x
        (if subtract then (expOf x : Int) - expOf z + 64 else (expOf x : Int) + expOf z - 64)
        (tagOf x || tagOf z) (effAddr a3 s) s

/-- EXPADDI (R147). -/
def execExpaddi (a1 a2 a3 : Operand) (s : State) : Result :=
  expImmediate false false a1 a2 a3 s

/-- EXPADDI.NN (R147). -/
def execExpaddiNn (a1 a2 a3 : Operand) (s : State) : Result :=
  expImmediate false true a1 a2 a3 s

/-- EXPSUBI (R148). -/
def execExpsubi (a1 a2 a3 : Operand) (s : State) : Result :=
  expImmediate true false a1 a2 a3 s

/-- EXPSUBI.NN (R148). -/
def execExpsubiNn (a1 a2 a3 : Operand) (s : State) : Result :=
  expImmediate true true a1 a2 a3 s

/-- EXPADD (R149). -/
def execExpadd (a1 a2 a3 : Operand) (s : State) : Result :=
  expOperand false false a1 a2 a3 s

/-- EXPADD.NN (R149). -/
def execExpaddNn (a1 a2 a3 : Operand) (s : State) : Result :=
  expOperand false true a1 a2 a3 s

/-- EXPSUB (R150). -/
def execExpsub (a1 a2 a3 : Operand) (s : State) : Result :=
  expOperand true false a1 a2 a3 s

/-- EXPSUB.NN (R150). -/
def execExpsubNn (a1 a2 a3 : Operand) (s : State) : Result :=
  expOperand true true a1 a2 a3 s

end Sys2Proof.Machine
end

