-- ==== Sys2Proof/Machine/InputOutput.lean ====
section
/-! DEFINITION. The input/output instructions (spec/47_io.md R205 to R211). What the environment fixes
of the device contract is in `State.devices`; everything else is free (log 6). -/

namespace Sys2Proof.Machine

/-- What the environment fixes for a condition code, if anything. -/
def codeDecode (cc : Addr) : List (Addr × CodeDecode) → Option CodeDecode
  | [] => none
  | (k, d) :: rest => if k = cc then some d else codeDecode cc rest

/-- `IO_SELECT(cc)` (R207). -/
def ioSelect (cc : Addr) (s : State) : Selection :=
  match codeDecode cc s.devices.codes with
  | some d => d.select
  | none => Config.ioSelect cc

/-- `IO_NOSTOP(cc)`: the descriptor's disable-stop flag (R207). -/
def ioNostop (cc : Addr) (s : State) : Bool :=
  match codeDecode cc s.devices.codes with
  | some d => d.nostop
  | none => Config.ioNostop cc

/-- `DEV_PERFORM(IOD, start, MEM)` with the current external device state (R207). -/
def devPerform (start : Addr) (s : State) : DevResult :=
  match s.devices.results with
  | r :: _ => r
  | [] => Config.devPerform s.devices.calls s.iod start s.mem

/-- The external side after one device call. -/
def deviceCalled (d : Devices) : Devices := { d with results := d.results.tail, calls := d.calls + 1 }

/-- The status a device's status stands for (R207, R216). -/
def deviceStatus : DevStatus → Status
  | .ok => .ok
  | .cardCksum => .cardCksum
  | .cardRead => .cardRead
  | .noCard => .noCard
  | .tapeRead => .tapeRead

/-- IOSETUP: `IOD` is latched unless the code's device-select bits conflict (R206). -/
def execIosetup (a1 a2 a3 : Operand) (s : State) : Result :=
  match ioSelect (effAddr a1 s) s with
  | .conflict => raise .ioConflict s
  | .device d =>
    complete { s with iod := {
      valid := true
      dev := d
      cc := effAddr a1 s
      zone := effAddr a2 s
      last := effAddr a3 s } }

/-- The end of IOEXEC, once the device's words are stored (R208): on an error the skip to the alternate
address or the status, otherwise `RES` and the checksum's store. -/
def transferEnd (t : TransferEnd) (s : State) : State :=
  match t.status with
  | .ok => memWrite t.dest t.checksum { s with res := t.checksum, status := .ok }
  | st =>
    if ioNostop s.iod.cc s then { s with pc := t.alternate, status := .ok }
    else { s with status := deviceStatus st }

/-- The device's words stored in order, then the end of IOEXEC (R208, R210). A word that lands on the
`IR` overlay stops here with the rest still to do (R38). -/
def storeWords : List (Addr × Word) → TransferEnd → State → State
  | [], t, s => transferEnd t s
  | (a, w) :: rest, t, s =>
    match (memWrite a w s).pend with
    | .store => { memWrite a w s with pend := .transfer rest t }
    | _ => storeWords rest t (memWrite a w s)

/-- IOEXEC (R208): without a latched descriptor `ST_IO_CONFLICT`; otherwise the transfer, the delay,
the device's words and its status. -/
def execIoexec (a1 a2 a3 : Operand) (s : State) : Result :=
  if s.iod.valid then
    let r := devPerform (effAddr a1 s) s
    .next (storeWords r.writes ⟨r.status, r.checksum, effAddr a2 s, effAddr a3 s⟩
      { s with
        delay := s.delay + Config.devDelay s.iod (effAddr a1 s)
        devices := deviceCalled s.devices
        status := .ok })
  else raise .ioConflict s

end Sys2Proof.Machine
end

