-- ==== Sys2Proof/Machine/Multiply.lean ====
section
/-! DEFINITION. The floating-point multiplier, MUL and LOWPROD (spec/42_multiply.md R110 to R120). -/

namespace Sys2Proof.Machine

/-- A double-length value under way: high half, low half, exponent. -/
structure Product where
  hi : Nat
  lo : Nat
  e : Int
  deriving DecidableEq, Repr

/-- The product's halves after the one optional left shift (R113). -/
def mulNormalize (nn : Bool) (p : Nat) (e : Int) : Product :=
  if nn = false ∧ p < 2 ^ 71 then ⟨2 * p / 2 ^ 36, 2 * p % 2 ^ 36, e - 1⟩
  else ⟨p / 2 ^ 36, p % 2 ^ 36, e⟩

/-- Round half up on the top bit of the low half unless `NR`; a carry out of the high half shifts the
pair right one place (R114). -/
def mulRound (nr : Bool) (p : Product) : Product :=
  if nr = false ∧ 2 ^ 35 ≤ p.lo then
    if p.hi + 1 = 2 ^ 36 then ⟨2 ^ 35, p.lo / 2, p.e + 1⟩ else ⟨p.hi + 1, p.lo, p.e⟩
  else p

/-- One of the two result words: canonical zero when its mantissa is zero or the exponent negative
(R115). -/
def mulCollapse (s : Bool) (e : Int) (m : Nat) (t : Bool) : Word :=
  if m = 0 ∨ e < 0 then zeroWord t else pack s e m t

/-- `mul(x, y, NR, NN)`: the primary and the auxiliary word (R112 to R115). -/
def mulUnit (nr nn : Bool) (x y : Word) : Except Status (Word × Word) :=
  let s := signOf x ^^ signOf y
  let t := tagOf x || tagOf y
  let p := mantOf x * mantOf y
  if p = 0 then .ok (zeroWord t, zeroWord t)
  else
    let q := mulRound nr (mulNormalize nn p (expOf x + expOf y - 64))
    if 127 < q.e then .error .mulOvf
    else .ok (mulCollapse s q.e q.hi t, mulCollapse s q.e q.lo t)

/-- MUL's sequence: `AUX` is written on both paths (R116). -/
def mulFamily (nr nn : Bool) (a1 a2 a3 : Operand) (s : State) : Result :=
  withRead (effAddr a1 s) s fun x =>
    withRead (effAddr a2 s) s fun y =>
      match mulUnit nr nn x y with
      | .error st => raise st s
      | .ok (r, low) => arithFinish r (effAddr a3 s) { s with aux := low }

/-- MUL (R116). -/
def execMul (a1 a2 a3 : Operand) (s : State) : Result := mulFamily false false a1 a2 a3 s

/-- MUL.NR (R116). -/
def execMulNr (a1 a2 a3 : Operand) (s : State) : Result := mulFamily true false a1 a2 a3 s

/-- MUL.NN (R116). -/
def execMulNn (a1 a2 a3 : Operand) (s : State) : Result := mulFamily false true a1 a2 a3 s

/-- MUL.NR.NN (R116). -/
def execMulNrNn (a1 a2 a3 : Operand) (s : State) : Result := mulFamily true true a1 a2 a3 s

/-- The word LOWPROD delivers from `AUX` (R120). -/
def lowWord (nn : Bool) (a : Word) : Word :=
  if nn then a else normalize (signOf a) (expOf a) (mantOf a) (tagOf a)

/-- LOWPROD's sequence: no operand is read and `AUX` is kept (R120). -/
def lowFamily (nn : Bool) (a3 : Operand) (s : State) : Result :=
  arithFinish (lowWord nn s.aux) (effAddr a3 s) s

/-- LOWPROD, opcode `007` (R120). -/
def execLowprod (a3 : Operand) (s : State) : Result := lowFamily false a3 s

/-- LOWPROD, opcode `027`: the `NR` position is ignored (R120). -/
def execLowprod027 (a3 : Operand) (s : State) : Result := lowFamily false a3 s

/-- LOWPROD.NN, opcode `047` (R120). -/
def execLowprodNn (a3 : Operand) (s : State) : Result := lowFamily true a3 s

/-- LOWPROD.NN, opcode `067`: the `NR` position is ignored (R120). -/
def execLowprodNn067 (a3 : Operand) (s : State) : Result := lowFamily true a3 s

end Sys2Proof.Machine
end

