-- ==== Sys2Proof/Machine/Dispatch.lean ====
section
/-! DEFINITION. The dispatcher: one arm per opcode (R56, R59). -/

namespace Sys2Proof.Machine

/-- The instruction's own rule, with `PC` already at the next instruction (R225). -/
def exec (i : Instr) (s : State) : Host.Outcome State Fault Refusal :=
  match i with
  | .mov a1 _ a3 => Sys2Proof.Machine.execMov a1 a3 s
  | .add a1 a2 a3 => Sys2Proof.Machine.execAdd a1 a2 a3 s
  | .sub a1 a2 a3 => Sys2Proof.Machine.execSub a1 a2 a3 s
  | .subabs a1 a2 a3 => Sys2Proof.Machine.execSubabs a1 a2 a3 s
  | .div a1 a2 a3 => Sys2Proof.Machine.execDiv a1 a2 a3 s
  | .mul a1 a2 a3 => Sys2Proof.Machine.execMul a1 a2 a3 s
  | .expaddi a1 a2 a3 => Sys2Proof.Machine.execExpaddi a1 a2 a3 s
  | .lowprod _ _ a3 => Sys2Proof.Machine.execLowprod a3 s
  | .expadd a1 a2 a3 => Sys2Proof.Machine.execExpadd a1 a2 a3 s
  | .looplt a1 a2 a3 => Sys2Proof.Machine.execLooplt a1 a2 a3 s
  | .cycadd a1 a2 a3 => Sys2Proof.Machine.execCycadd a1 a2 a3 s
  | .adda a1 a2 a3 => Sys2Proof.Machine.execAdda a1 a2 a3 s
  | .shmi a1 a2 a3 => Sys2Proof.Machine.execShmi a1 a2 a3 s
  | .xor a1 a2 a3 => Sys2Proof.Machine.execXor a1 a2 a3 s
  | .jsr _ a2 a3 => Sys2Proof.Machine.execJsr a2 a3 s
  | .halt _ _ _ => Sys2Proof.Machine.execHalt s
  | .rdsw a1 _ a3 => Sys2Proof.Machine.execRdsw a1 a3 s
  | .addNr a1 a2 a3 => Sys2Proof.Machine.execAddNr a1 a2 a3 s
  | .subNr a1 a2 a3 => Sys2Proof.Machine.execSubNr a1 a2 a3 s
  | .subabsNr a1 a2 a3 => Sys2Proof.Machine.execSubabsNr a1 a2 a3 s
  | .divNr a1 a2 a3 => Sys2Proof.Machine.execDivNr a1 a2 a3 s
  | .mulNr a1 a2 a3 => Sys2Proof.Machine.execMulNr a1 a2 a3 s
  | .expsubi a1 a2 a3 => Sys2Proof.Machine.execExpsubi a1 a2 a3 s
  | .lowprod027 _ _ a3 => Sys2Proof.Machine.execLowprod027 a3 s
  | .expsub a1 a2 a3 => Sys2Proof.Machine.execExpsub a1 a2 a3 s
  | .loopge a1 a2 a3 => Sys2Proof.Machine.execLoopge a1 a2 a3 s
  | .cycsub a1 a2 a3 => Sys2Proof.Machine.execCycsub a1 a2 a3 s
  | .suba a1 a2 a3 => Sys2Proof.Machine.execSuba a1 a2 a3 s
  | .shwi a1 a2 a3 => Sys2Proof.Machine.execShwi a1 a2 a3 s
  | .xorchk a1 a2 _ => Sys2Proof.Machine.execXorchk a1 a2 s
  | .jc _ a2 _ => Sys2Proof.Machine.execJc a2 s
  | .halt2 _ _ _ => Sys2Proof.Machine.execHalt2 s
  | .rot a1 a2 a3 => Sys2Proof.Machine.execRot a1 a2 a3 s
  | .addNn a1 a2 a3 => Sys2Proof.Machine.execAddNn a1 a2 a3 s
  | .subNn a1 a2 a3 => Sys2Proof.Machine.execSubNn a1 a2 a3 s
  | .subabsNn a1 a2 a3 => Sys2Proof.Machine.execSubabsNn a1 a2 a3 s
  | .sqrt a1 _ a3 => Sys2Proof.Machine.execSqrt a1 a3 s
  | .mulNn a1 a2 a3 => Sys2Proof.Machine.execMulNn a1 a2 a3 s
  | .expaddiNn a1 a2 a3 => Sys2Proof.Machine.execExpaddiNn a1 a2 a3 s
  | .lowprodNn _ _ a3 => Sys2Proof.Machine.execLowprodNn a3 s
  | .expaddNn a1 a2 a3 => Sys2Proof.Machine.execExpaddNn a1 a2 a3 s
  | .loopltf a1 a2 a3 => Sys2Proof.Machine.execLoopltf a1 a2 a3 s
  | .iosetup a1 a2 a3 => Sys2Proof.Machine.execIosetup a1 a2 a3 s
  | .addo a1 a2 a3 => Sys2Proof.Machine.execAddo a1 a2 a3 s
  | .shme a1 a2 a3 => Sys2Proof.Machine.execShme a1 a2 a3 s
  | .and a1 a2 a3 => Sys2Proof.Machine.execAnd a1 a2 a3 s
  | .jmp _ a2 _ => Sys2Proof.Machine.execJmp a2 s
  | .reserved057 _ _ _ => Sys2Proof.Machine.execReserved057 s
  | .addrform _ _ _ => Sys2Proof.Machine.execAddrform s
  | .addNrNn a1 a2 a3 => Sys2Proof.Machine.execAddNrNn a1 a2 a3 s
  | .subNrNn a1 a2 a3 => Sys2Proof.Machine.execSubNrNn a1 a2 a3 s
  | .subabsNrNn a1 a2 a3 => Sys2Proof.Machine.execSubabsNrNn a1 a2 a3 s
  | .sqrtNr a1 _ a3 => Sys2Proof.Machine.execSqrtNr a1 a3 s
  | .mulNrNn a1 a2 a3 => Sys2Proof.Machine.execMulNrNn a1 a2 a3 s
  | .expsubiNn a1 a2 a3 => Sys2Proof.Machine.execExpsubiNn a1 a2 a3 s
  | .lowprodNn067 _ _ a3 => Sys2Proof.Machine.execLowprodNn067 a3 s
  | .expsubNn a1 a2 a3 => Sys2Proof.Machine.execExpsubNn a1 a2 a3 s
  | .loopgef a1 a2 a3 => Sys2Proof.Machine.execLoopgef a1 a2 a3 s
  | .ioexec a1 a2 a3 => Sys2Proof.Machine.execIoexec a1 a2 a3 s
  | .subo a1 a2 a3 => Sys2Proof.Machine.execSubo a1 a2 a3 s
  | .shwe a1 a2 a3 => Sys2Proof.Machine.execShwe a1 a2 a3 s
  | .or a1 a2 a3 => Sys2Proof.Machine.execOr a1 a2 a3 s
  | .jnc _ a2 _ => Sys2Proof.Machine.execJnc a2 s
  | .reserved077 _ _ _ => Sys2Proof.Machine.execReserved077 s

end Sys2Proof.Machine
end

