-- ==== Sys2Proof/Machine/Execute.lean ====
section
/-! DEFINITION. `execute(w)` (R225), the nested re-execution of a word stored to the `IR` overlay (R38),
and one `step()` of the fetch-execute controller (R224, R226). -/

namespace Sys2Proof.Machine

/-- `DELAY <- DELAY + DELAY_OF(op)` (R225). -/
def chargeDelay (op : BitVec 6) (s : State) : State :=
  { s with delay := s.delay + Config.delayOf op }

/-- The rest of an answer that has a next state. -/
def andThen (r : Result) (k : State → Result) : Result :=
  match r with
  | .next s => k s
  | .fault f => .fault f
  | .refused x => .refused x

/-- Run a re-execution that is due: `re` executes `IR` to completion (R38). -/
def rerun (re : State → Result) (s : State) : Result := re { s with pend := .idle }

/-- IOEXEC's remaining words and end, after a word of it was re-executed (R208). The status of a word
re-executed on the way is dropped, that of the checksum's own store stands (R225, log 14). -/
def resumeTransfer (re : State → Result) : List (Addr × Word) → TransferEnd → State → Result
  | [], t, s =>
    match (transferEnd t s).pend with
    | .store => rerun re (transferEnd t s)
    | _ => .next (transferEnd t s)
  | (a, w) :: rest, t, s =>
    match (memWrite a w s).pend with
    | .store => andThen (rerun re (memWrite a w s)) (resumeTransfer re rest t)
    | _ => resumeTransfer re rest t (memWrite a w s)

/-- Complete the storing instruction: the re-execution it has asked for and what follows it (R38,
R188, R208). -/
def settle (re : State → Result) (s : State) : Result :=
  match s.pend with
  | .idle => .next s
  | .store => rerun re s
  | .jump target => andThen (rerun re s) fun t => .next { t with pc := target }
  | .transfer rest tail => andThen (rerun re s) (resumeTransfer re rest tail)

/-- `execute(w)` (R225), dispatched through `OPMAP`, with at most `depth` levels of nesting; past them the model refuses (R258,
U13). -/
def execute : Nat → Word → State → Result
  | 0, _, _ => .refused .reexecutionDepth
  | depth + 1, w, s =>
    andThen (exec (decodeWith s.cfg.opmap w) (chargeDelay (opcOf w) s)) (settle fun t => execute depth t.ir t)

/-- The state in which a fetched word is executed: `IR <- w`, `PC <- (PC + 1) mod 4096` (R224). -/
def fetched (w : Word) (s : State) : State := { s with ir := w, pc := s.pc + 1, pend := .idle }

/-- One `step()` (R224 to R226). A fetch that meets a corrupt cell ends the step with `IR` and `PC`
unchanged. -/
def stepOnce (s : State) : Result :=
  match memRead s s.pc with
  | none => raise .memCorrupt { s with pend := .idle }
  | some w => andThen (execute Config.reexecLimit w (fetched w s)) fun t => .next (finish t)

end Sys2Proof.Machine
end

