-- ==== Sys2Proof/Machine/Step.lean ====
section
/-! DEFINITION. The machine's step, and the placing of one instruction where the next step fetches. -/

namespace Sys2Proof.Machine

/-- One host-requested `step()` (R223, R224). -/
def step (s : State) : Host.Outcome State Fault Refusal := stepOnce s

/-- `s` with an instruction word placed where the next step fetches it. Where `PC` names no ordinary
cell (address 0 reads 0, an overlay address reads a register), the host's "set `PC`" (R247) moves it
to address 1 first (log 9). -/
def State.withFetchWord (s : State) (nbits w : Nat) : State :=
  let at_ : Addr := if writeTarget s.cfg s.pc = .cell then s.pc else 1
  { s with pc := at_, mem := memSet s.mem (reduceAddr s.cfg at_).toNat (w % 2 ^ nbits % 2 ^ 45) }

end Sys2Proof.Machine
end

