-- ==== Sys2Proof/Machine/HostOps.lean ====
section
/-! DEFINITION. The host's operations on a stopped machine (spec/70_reset_and_hazards.md R245 to R250)
and the loop `run()` (R227). -/

namespace Sys2Proof.Machine

/-- Reset (R245): the core's state goes to its reset values; the configuration inputs are not state,
and the external devices are not reset. -/
def hostReset (s : State) : State := { State.reset with cfg := s.cfg, devices := s.devices }

/-- `examine(a)`: `MemRead(a, 1)` (R249). -/
def examine (a : Addr) (s : State) : Option Word := memRead s a

/-- `deposit(a, v)`: `MemWrite(a, 1, v)` (R249). The host sees `ST_READONLY` (R37), may write a cell of
up to `STORE_W` bits, and at the `IR` overlay runs the word and receives its status.
R252 gives a deposit's status a port of its own, `dep_status`, beside `status`. DESIGN CHOICE, log 18:
here it is answered in `State.status`, where it replaces the last step's. -/
def deposit (a : Addr) (v : Nat) (s : State) : Result :=
  match writeTarget s.cfg a with
  | .readOnly => raise .readOnly s
  | .cell => complete { s with mem := memSet s.mem (reduceAddr s.cfg a).toNat (v % 2 ^ s.cfg.storeW) }
  | .index => complete (memWrite a (BitVec.ofNat 45 v) s)
  | .instruction =>
    rerun (fun t => execute Config.reexecLimit t.ir t) (memWrite a (BitVec.ofNat 45 v) s)

/-- "Set `PC`" (R247). -/
def setPc (v : Nat) (s : State) : State := { s with pc := BitVec.ofNat 12 v }

/-- Hold the configuration inputs at given values before a run (R248 step 2); a later run may be started
with others (R34). -/
def configure (c : Inputs) (s : State) : State := { s with cfg := c }

/-- Set a console switch (R250); there are four. -/
def setSwitch (n : Fin 4) (v : Word) (s : State) : State :=
  match n with
  | 0 => { s with sw0 := v }
  | 1 => { s with sw1 := v }
  | 2 => { s with sw2 := v }
  | 3 => { s with sw3 := v }

/-- `run()` for at most `n` steps: it stops with the first status that is not `OK` (R227). -/
def runLoop : Nat → State → Result
  | 0, s => .next s
  | n + 1, s =>
    andThen (stepOnce s) fun t => if t.status = .ok then runLoop n t else .next t

end Sys2Proof.Machine
end

