-- ==== Sys2Proof/Safety.lean ====
section
/-! DEFINITION. The terms in which the claims speak: the states a stopped machine can be in, the mode
in which the model never refuses, the dispatch groups (R59), the store operand of an instruction, and the
statuses the table of R216 lists for it. -/

namespace Sys2Proof.Machine

/-- The invariant of a stopped machine: memory has its canonical form, cells are at least 45 bits wide
(R6), there is at least one word of memory, and no re-execution is half done (R38). -/
abbrev Inv (s : State) : Prop :=
  memWf s.cfg.memWords s.cfg.storeW s.mem ∧ 45 ≤ s.cfg.storeW ∧ 1 ≤ s.cfg.memWords ∧ s.pend = .idle

/-- Neither the `EXT` overlay mode, in which a store can ask for a re-execution (R38), nor the alternate
mode of ADDRFORM (R198). -/
abbrev plainMode (s : State) : Prop := s.cfg.mmr ≠ .ext ∧ s.cfg.alt = false

/-- The four dispatch groups (R59). The two reserved opcodes stand in columns of the control group. -/
inductive Group where
  | arithmetic
  | codeLogical
  | control
  | inputOutput
  deriving DecidableEq, Repr

/-- The dispatch group of an instruction (R59). -/
def groupOf (i : Instr) : Group :=
  match i with
  | .mov _ _ _ => .codeLogical
  | .add _ _ _ => .arithmetic
  | .sub _ _ _ => .arithmetic
  | .subabs _ _ _ => .arithmetic
  | .div _ _ _ => .arithmetic
  | .mul _ _ _ => .arithmetic
  | .expaddi _ _ _ => .arithmetic
  | .lowprod _ _ _ => .arithmetic
  | .expadd _ _ _ => .arithmetic
  | .looplt _ _ _ => .control
  | .cycadd _ _ _ => .codeLogical
  | .adda _ _ _ => .codeLogical
  | .shmi _ _ _ => .codeLogical
  | .xor _ _ _ => .codeLogical
  | .jsr _ _ _ => .control
  | .halt _ _ _ => .control
  | .rdsw _ _ _ => .codeLogical
  | .addNr _ _ _ => .arithmetic
  | .subNr _ _ _ => .arithmetic
  | .subabsNr _ _ _ => .arithmetic
  | .divNr _ _ _ => .arithmetic
  | .mulNr _ _ _ => .arithmetic
  | .expsubi _ _ _ => .arithmetic
  | .lowprod027 _ _ _ => .arithmetic
  | .expsub _ _ _ => .arithmetic
  | .loopge _ _ _ => .control
  | .cycsub _ _ _ => .codeLogical
  | .suba _ _ _ => .codeLogical
  | .shwi _ _ _ => .codeLogical
  | .xorchk _ _ _ => .codeLogical
  | .jc _ _ _ => .control
  | .halt2 _ _ _ => .control
  | .rot _ _ _ => .codeLogical
  | .addNn _ _ _ => .arithmetic
  | .subNn _ _ _ => .arithmetic
  | .subabsNn _ _ _ => .arithmetic
  | .sqrt _ _ _ => .arithmetic
  | .mulNn _ _ _ => .arithmetic
  | .expaddiNn _ _ _ => .arithmetic
  | .lowprodNn _ _ _ => .arithmetic
  | .expaddNn _ _ _ => .arithmetic
  | .loopltf _ _ _ => .control
  | .iosetup _ _ _ => .inputOutput
  | .addo _ _ _ => .codeLogical
  | .shme _ _ _ => .codeLogical
  | .and _ _ _ => .codeLogical
  | .jmp _ _ _ => .control
  | .reserved057 _ _ _ => .control
  | .addrform _ _ _ => .control
  | .addNrNn _ _ _ => .arithmetic
  | .subNrNn _ _ _ => .arithmetic
  | .subabsNrNn _ _ _ => .arithmetic
  | .sqrtNr _ _ _ => .arithmetic
  | .mulNrNn _ _ _ => .arithmetic
  | .expsubiNn _ _ _ => .arithmetic
  | .lowprodNn067 _ _ _ => .arithmetic
  | .expsubNn _ _ _ => .arithmetic
  | .loopgef _ _ _ => .control
  | .ioexec _ _ _ => .inputOutput
  | .subo _ _ _ => .codeLogical
  | .shwe _ _ _ => .codeLogical
  | .or _ _ _ => .codeLogical
  | .jnc _ _ _ => .control
  | .reserved077 _ _ _ => .control

/-- The operand whose effective address an instruction other than IOEXEC stores at, if it stores: the
third address of every arithmetic and code/logical instruction but XORCHK, and of JSR (R100, R156,
R161, R188). -/
def storeOperand (i : Instr) : Option Operand :=
  match i with
  | .mov _ _ a3 => some a3
  | .add _ _ a3 => some a3
  | .sub _ _ a3 => some a3
  | .subabs _ _ a3 => some a3
  | .div _ _ a3 => some a3
  | .mul _ _ a3 => some a3
  | .expaddi _ _ a3 => some a3
  | .lowprod _ _ a3 => some a3
  | .expadd _ _ a3 => some a3
  | .looplt _ _ _ => none
  | .cycadd _ _ a3 => some a3
  | .adda _ _ a3 => some a3
  | .shmi _ _ a3 => some a3
  | .xor _ _ a3 => some a3
  | .jsr _ _ a3 => some a3
  | .halt _ _ _ => none
  | .rdsw _ _ a3 => some a3
  | .addNr _ _ a3 => some a3
  | .subNr _ _ a3 => some a3
  | .subabsNr _ _ a3 => some a3
  | .divNr _ _ a3 => some a3
  | .mulNr _ _ a3 => some a3
  | .expsubi _ _ a3 => some a3
  | .lowprod027 _ _ a3 => some a3
  | .expsub _ _ a3 => some a3
  | .loopge _ _ _ => none
  | .cycsub _ _ a3 => some a3
  | .suba _ _ a3 => some a3
  | .shwi _ _ a3 => some a3
  | .xorchk _ _ _ => none
  | .jc _ _ _ => none
  | .halt2 _ _ _ => none
  | .rot _ _ a3 => some a3
  | .addNn _ _ a3 => some a3
  | .subNn _ _ a3 => some a3
  | .subabsNn _ _ a3 => some a3
  | .sqrt _ _ a3 => some a3
  | .mulNn _ _ a3 => some a3
  | .expaddiNn _ _ a3 => some a3
  | .lowprodNn _ _ a3 => some a3
  | .expaddNn _ _ a3 => some a3
  | .loopltf _ _ _ => none
  | .iosetup _ _ _ => none
  | .addo _ _ a3 => some a3
  | .shme _ _ a3 => some a3
  | .and _ _ a3 => some a3
  | .jmp _ _ _ => none
  | .reserved057 _ _ _ => none
  | .addrform _ _ _ => none
  | .addNrNn _ _ a3 => some a3
  | .subNrNn _ _ a3 => some a3
  | .subabsNrNn _ _ a3 => some a3
  | .sqrtNr _ _ a3 => some a3
  | .mulNrNn _ _ a3 => some a3
  | .expsubiNn _ _ a3 => some a3
  | .lowprodNn067 _ _ a3 => some a3
  | .expsubNn _ _ a3 => some a3
  | .loopgef _ _ _ => none
  | .ioexec _ _ _ => none
  | .subo _ _ a3 => some a3
  | .shwe _ _ a3 => some a3
  | .or _ _ a3 => some a3
  | .jnc _ _ _ => none
  | .reserved077 _ _ _ => none

/-- The statuses other than `OK` that the table of R216 lists for an instruction. -/
def listedStatuses (i : Instr) : List Status :=
  match i with
  | .mov _ _ _ => [.memCorrupt]
  | .add _ _ _ => [.addOvf, .memCorrupt]
  | .sub _ _ _ => [.addOvf, .memCorrupt]
  | .subabs _ _ _ => [.addOvf, .memCorrupt]
  | .div _ _ _ => [.divOvf, .divMovf, .divZero, .memCorrupt]
  | .mul _ _ _ => [.mulOvf, .memCorrupt]
  | .expaddi _ _ _ => [.addOvf, .memCorrupt]
  | .lowprod _ _ _ => []
  | .expadd _ _ _ => [.addOvf, .memCorrupt]
  | .looplt _ _ _ => []
  | .cycadd _ _ _ => [.memCorrupt]
  | .adda _ _ _ => [.memCorrupt]
  | .shmi _ _ _ => [.memCorrupt]
  | .xor _ _ _ => [.memCorrupt]
  | .jsr _ _ _ => []
  | .halt _ _ _ => [.halt]
  | .rdsw _ _ _ => [.badSwitch]
  | .addNr _ _ _ => [.addOvf, .memCorrupt]
  | .subNr _ _ _ => [.addOvf, .memCorrupt]
  | .subabsNr _ _ _ => [.addOvf, .memCorrupt]
  | .divNr _ _ _ => [.divOvf, .divMovf, .divZero, .memCorrupt]
  | .mulNr _ _ _ => [.mulOvf, .memCorrupt]
  | .expsubi _ _ _ => [.addOvf, .memCorrupt]
  | .lowprod027 _ _ _ => []
  | .expsub _ _ _ => [.addOvf, .memCorrupt]
  | .loopge _ _ _ => []
  | .cycsub _ _ _ => [.memCorrupt]
  | .suba _ _ _ => [.memCorrupt]
  | .shwi _ _ _ => [.memCorrupt]
  | .xorchk _ _ _ => [.cmpFail, .memCorrupt]
  | .jc _ _ _ => []
  | .halt2 _ _ _ => [.halt]
  | .rot _ _ _ => [.memCorrupt]
  | .addNn _ _ _ => [.addOvf, .memCorrupt]
  | .subNn _ _ _ => [.addOvf, .memCorrupt]
  | .subabsNn _ _ _ => [.addOvf, .memCorrupt]
  | .sqrt _ _ _ => [.sqrtOvf, .sqrtNeg, .memCorrupt]
  | .mulNn _ _ _ => [.mulOvf, .memCorrupt]
  | .expaddiNn _ _ _ => [.addOvf, .memCorrupt]
  | .lowprodNn _ _ _ => []
  | .expaddNn _ _ _ => [.addOvf, .memCorrupt]
  | .loopltf _ _ _ => []
  | .iosetup _ _ _ => [.ioConflict]
  | .addo _ _ _ => [.memCorrupt]
  | .shme _ _ _ => [.memCorrupt]
  | .and _ _ _ => [.memCorrupt]
  | .jmp _ _ _ => []
  | .reserved057 _ _ _ => [.badOp]
  | .addrform _ _ _ => [.badOp]
  | .addNrNn _ _ _ => [.addOvf, .memCorrupt]
  | .subNrNn _ _ _ => [.addOvf, .memCorrupt]
  | .subabsNrNn _ _ _ => [.addOvf, .memCorrupt]
  | .sqrtNr _ _ _ => [.sqrtOvf, .sqrtNeg, .memCorrupt]
  | .mulNrNn _ _ _ => [.mulOvf, .memCorrupt]
  | .expsubiNn _ _ _ => [.addOvf, .memCorrupt]
  | .lowprodNn067 _ _ _ => []
  | .expsubNn _ _ _ => [.addOvf, .memCorrupt]
  | .loopgef _ _ _ => []
  | .ioexec _ _ _ => [.ioConflict, .cardCksum, .cardRead, .tapeRead, .noCard]
  | .subo _ _ _ => [.memCorrupt]
  | .shwe _ _ _ => [.memCorrupt]
  | .or _ _ _ => [.memCorrupt]
  | .jnc _ _ _ => []
  | .reserved077 _ _ _ => [.badOp]

/-- An instruction is an IOEXEC. -/
def isIoexec (i : Instr) : Bool :=
  match i with
  | .ioexec _ _ _ => true
  | _ => false

end Sys2Proof.Machine
end

