-- ==== Sys2Proof/WellFormed.lean ====
section
/-! DEFINITION. Which terms are instructions of the opcode map. Every address tag and every address
value is legal with every opcode (R57), and `Operand` admits no other, so the one check is that the
opcode has a handler. -/

namespace Sys2Proof

/-- True when the opcode has a handler (R57: "Opcodes `057` and `077` have no handler", "Every other
opcode value is an instruction"). -/
def wellFormed (i : Instr) : Bool :=
  match i with
  | .mov _ _ _ => true
  | .add _ _ _ => true
  | .sub _ _ _ => true
  | .subabs _ _ _ => true
  | .div _ _ _ => true
  | .mul _ _ _ => true
  | .expaddi _ _ _ => true
  | .lowprod _ _ _ => true
  | .expadd _ _ _ => true
  | .looplt _ _ _ => true
  | .cycadd _ _ _ => true
  | .adda _ _ _ => true
  | .shmi _ _ _ => true
  | .xor _ _ _ => true
  | .jsr _ _ _ => true
  | .halt _ _ _ => true
  | .rdsw _ _ _ => true
  | .addNr _ _ _ => true
  | .subNr _ _ _ => true
  | .subabsNr _ _ _ => true
  | .divNr _ _ _ => true
  | .mulNr _ _ _ => true
  | .expsubi _ _ _ => true
  | .lowprod027 _ _ _ => true
  | .expsub _ _ _ => true
  | .loopge _ _ _ => true
  | .cycsub _ _ _ => true
  | .suba _ _ _ => true
  | .shwi _ _ _ => true
  | .xorchk _ _ _ => true
  | .jc _ _ _ => true
  | .halt2 _ _ _ => true
  | .rot _ _ _ => true
  | .addNn _ _ _ => true
  | .subNn _ _ _ => true
  | .subabsNn _ _ _ => true
  | .sqrt _ _ _ => true
  | .mulNn _ _ _ => true
  | .expaddiNn _ _ _ => true
  | .lowprodNn _ _ _ => true
  | .expaddNn _ _ _ => true
  | .loopltf _ _ _ => true
  | .iosetup _ _ _ => true
  | .addo _ _ _ => true
  | .shme _ _ _ => true
  | .and _ _ _ => true
  | .jmp _ _ _ => true
  | .reserved057 _ _ _ => false
  | .addrform _ _ _ => true
  | .addNrNn _ _ _ => true
  | .subNrNn _ _ _ => true
  | .subabsNrNn _ _ _ => true
  | .sqrtNr _ _ _ => true
  | .mulNrNn _ _ _ => true
  | .expsubiNn _ _ _ => true
  | .lowprodNn067 _ _ _ => true
  | .expsubNn _ _ _ => true
  | .loopgef _ _ _ => true
  | .ioexec _ _ _ => true
  | .subo _ _ _ => true
  | .shwe _ _ _ => true
  | .or _ _ _ => true
  | .jnc _ _ _ => true
  | .reserved077 _ _ _ => false

end Sys2Proof
end

