-- ==== Sys2Proof/Certificates/Slice0/Obligations.lean ====
section
/-! DEFINITION. The statements for the provers. Each is a `def Obligations.<Name> : Prop`; the helper
definitions before them name the instructions of a family and spell out the next states. -/

namespace Sys2Proof.Claims

open Sys2Proof.Machine

/-- The twelve instructions of the addition family. -/
def addInstr (op : AddOp) (nr nn : Bool) (a1 a2 a3 : Operand) : Instr :=
  match op, nr, nn with
  | .add, false, false => .add a1 a2 a3
  | .add, true, false => .addNr a1 a2 a3
  | .add, false, true => .addNn a1 a2 a3
  | .add, true, true => .addNrNn a1 a2 a3
  | .sub, false, false => .sub a1 a2 a3
  | .sub, true, false => .subNr a1 a2 a3
  | .sub, false, true => .subNn a1 a2 a3
  | .sub, true, true => .subNrNn a1 a2 a3
  | .subabs, false, false => .subabs a1 a2 a3
  | .subabs, true, false => .subabsNr a1 a2 a3
  | .subabs, false, true => .subabsNn a1 a2 a3
  | .subabs, true, true => .subabsNrNn a1 a2 a3

/-- The four MUL instructions. -/
def mulInstr (nr nn : Bool) (a1 a2 a3 : Operand) : Instr :=
  match nr, nn with
  | false, false => .mul a1 a2 a3
  | true, false => .mulNr a1 a2 a3
  | false, true => .mulNn a1 a2 a3
  | true, true => .mulNrNn a1 a2 a3

/-- The four LOWPROD opcodes, by the two modifier positions. -/
def lowInstr (nr nn : Bool) (a1 a2 a3 : Operand) : Instr :=
  match nr, nn with
  | false, false => .lowprod a1 a2 a3
  | true, false => .lowprod027 a1 a2 a3
  | false, true => .lowprodNn a1 a2 a3
  | true, true => .lowprodNn067 a1 a2 a3

/-- DIV and DIV.NR. -/
def divInstr (nr : Bool) (a1 a2 a3 : Operand) : Instr :=
  if nr then .divNr a1 a2 a3 else .div a1 a2 a3

/-- SQRT and SQRT.NR. -/
def sqrtInstr (nr : Bool) (a1 a2 a3 : Operand) : Instr :=
  if nr then .sqrtNr a1 a2 a3 else .sqrt a1 a2 a3

/-- EXPADDI, EXPSUBI and their `.NN` forms. -/
def expImmediateInstr (subtract nn : Bool) (a1 a2 a3 : Operand) : Instr :=
  match subtract, nn with
  | false, false => .expaddi a1 a2 a3
  | false, true => .expaddiNn a1 a2 a3
  | true, false => .expsubi a1 a2 a3
  | true, true => .expsubiNn a1 a2 a3

/-- EXPADD, EXPSUB and their `.NN` forms. -/
def expOperandInstr (subtract nn : Bool) (a1 a2 a3 : Operand) : Instr :=
  match subtract, nn with
  | false, false => .expadd a1 a2 a3
  | false, true => .expaddNn a1 a2 a3
  | true, false => .expsub a1 a2 a3
  | true, true => .expsubNn a1 a2 a3

/-- LOOPLT, LOOPGE, LOOPLTF, LOOPGEF. -/
def loopInstr (p : Polarity) (flag : Bool) (a1 a2 a3 : Operand) : Instr :=
  match p, flag with
  | .lt, false => .looplt a1 a2 a3
  | .ge, false => .loopge a1 a2 a3
  | .lt, true => .loopltf a1 a2 a3
  | .ge, true => .loopgef a1 a2 a3

/-- Operand `o` reads as `w`: its effective address, read through `MemRead`. -/
abbrev reads (s : State) (o : Operand) (w : Word) : Prop := memRead s (effAddr o s) = some w

/-- `AUX` after an addition, subtraction, division or square root: kept on the fast path, the free value
on the exact path (R89, R91, R131). -/
def auxAfter (x y : Word) (op : AuxOp) (nr nn fr : Bool) (s : State) : Word :=
  if s.cfg.path = .exactPath then Config.auxDraw x y op nr nn fr else s.aux

/-- The completion of an arithmetic-group instruction with result `r` stored at the operand `a3`. -/
def arithDone (r aux : Word) (a3 : Operand) (s : State) : Result :=
  .next (memWrite (effAddr a3 s) r
    { s with aux := aux, res := r, cf := signOf r, status := .ok })

/-- The completion of a code/logical instruction with result `r` stored at the operand `a3`. -/
def codeDone (r : Word) (a3 : Operand) (s : State) : Result :=
  .next (memWrite (effAddr a3 s) r { s with res := r, cf := decide (r = 0), status := .ok })

/-- The state with only the status replaced. -/
def onlyStatus (st : Status) (s : State) : State := { s with status := st }

/-- A signed bias-64 amount from an effective address (R55). -/
def amountOf (a : Addr) : Int := ((a.toNat % 128 : Nat) : Int) - 64

/-- `shm` as arithmetic on numbers: the low 36 bits shifted, the upper 9 kept (R170). -/
def shiftedMant (x : Nat) (n : Int) : Word :=
  BitVec.ofNat 45 (x / 2 ^ 36 * 2 ^ 36 +
    if 0 ≤ n then x * 2 ^ n.toNat % 2 ^ 36 else x % 2 ^ 36 / 2 ^ (-n).toNat)

/-- `shw` as arithmetic on numbers (R170). -/
def shiftedWord (x : Nat) (n : Int) : Word :=
  BitVec.ofNat 45 (if 0 ≤ n then x * 2 ^ n.toNat % 2 ^ 45 else x / 2 ^ (-n).toNat)

/-- The state after a list of stores, first store first. -/
def storeAll : List (Addr × Word) → State → State
  | [], s => s
  | (a, w) :: rest, s => storeAll rest (memWrite a w s)

/-- The state right after IOEXEC's device call and the storing of its words (R208). -/
def delivered (r : DevResult) (start : Addr) (s : State) : State :=
  storeAll r.writes
    { s with
      delay := s.delay + Config.devDelay s.iod start
      devices := deviceCalled s.devices }

/-- The state in which the word `w` fetched at `PC` is executed (R224, R225). -/
def entered (w : Word) (s : State) : State :=
  { s with
    ir := w
    pc := s.pc + 1
    pend := .idle
    delay := s.delay + Config.delayOf (opcOf w) }

/-- The execution of the word in `IR` that a store to the `IR` overlay asks for (R38, R225). -/
def reexecuted (s : State) : Result :=
  exec (decodeWith s.cfg.opmap s.ir)
    { s with pend := .idle, delay := s.delay + Config.delayOf (opcOf s.ir) }

/-- The addresses an instruction stores at if it completes: the third effective address of a storing
instruction; for IOEXEC those of the device's words and of the checksum (R208). -/
def storesTo (i : Instr) (s : State) : List Addr :=
  match i with
  | .ioexec a1 _ a3 => (devPerform (effAddr a1 s) s).writes.map Prod.fst ++ [effAddr a3 s]
  | i => (storeOperand i).toList.map fun o => effAddr o s

/-- A signed magnitude: `-m` when `neg`. -/
def signedMag (neg : Bool) (m : Nat) : Int := if neg = true then -(m : Int) else m

/-- One result word of the multiplier: canonical zero when its mantissa is 0 or the exponent is negative
(R115). -/
def productWord (s : Bool) (e : Int) (m : Nat) (t : Bool) : Word :=
  if m = 0 ∨ e < 0 then zeroWord t else pack s e m t

/-- The multiplier's answer from the two halves and their exponent (R115). -/
def productPair (s : Bool) (e : Int) (hi lo : Nat) (t : Bool) : Except Status (Word × Word) :=
  if 127 < e then .error .mulOvf else .ok (productWord s e hi t, productWord s e lo t)

/-- A first-operand read of this instruction comes before anything else it does (R61, R222). -/
def firstRead (i : Instr) : Option Operand :=
  match i with
  | .add a _ _ | .addNr a _ _ | .addNn a _ _ | .addNrNn a _ _ => some a
  | .sub a _ _ | .subNr a _ _ | .subNn a _ _ | .subNrNn a _ _ => some a
  | .subabs a _ _ | .subabsNr a _ _ | .subabsNn a _ _ | .subabsNrNn a _ _ => some a
  | .mul a _ _ | .mulNr a _ _ | .mulNn a _ _ | .mulNrNn a _ _ => some a
  | .div a _ _ | .divNr a _ _ | .sqrt a _ _ | .sqrtNr a _ _ => some a
  | .expadd a _ _ | .expaddNn a _ _ | .expsub a _ _ | .expsubNn a _ _ => some a
  | .expaddi _ a _ | .expaddiNn _ a _ | .expsubi _ a _ | .expsubiNn _ a _ => some a
  | .mov a _ _ | .xor a _ _ | .xorchk a _ _ | .and a _ _ | .or a _ _ => some a
  | .adda a _ _ | .suba a _ _ | .addo a _ _ | .subo a _ _ => some a
  | .cycadd a _ _ | .cycsub a _ _ | .shme a _ _ | .shwe a _ _ => some a
  | .rot _ a _ | .shmi _ a _ | .shwi _ a _ => some a
  | _ => none

/-- The second-operand read of the two-operand instructions (R61). -/
def secondRead (i : Instr) : Option Operand :=
  match i with
  | .add _ b _ | .addNr _ b _ | .addNn _ b _ | .addNrNn _ b _ => some b
  | .sub _ b _ | .subNr _ b _ | .subNn _ b _ | .subNrNn _ b _ => some b
  | .subabs _ b _ | .subabsNr _ b _ | .subabsNn _ b _ | .subabsNrNn _ b _ => some b
  | .mul _ b _ | .mulNr _ b _ | .mulNn _ b _ | .mulNrNn _ b _ => some b
  | .div _ b _ | .divNr _ b _ => some b
  | .expadd _ b _ | .expaddNn _ b _ | .expsub _ b _ | .expsubNn _ b _ => some b
  | .xor _ b _ | .xorchk _ b _ | .and _ b _ | .or _ b _ => some b
  | .adda _ b _ | .suba _ b _ | .addo _ b _ | .subo _ b _ => some b
  | .cycadd _ b _ | .cycsub _ b _ | .shme _ b _ | .shwe _ b _ => some b
  | _ => none

end Sys2Proof.Claims

open Sys2Proof Sys2Proof.Machine Sys2Proof.Claims

/-! ### Encoding -/

/-- Decoding the word of any instruction gives the instruction back, every operand at every value, by the
table of R56. Under another opcode map the word of an instruction decodes to it, where it has one; an
instruction without one is decoded from no word. The form of a map and the reading of its entries are the
model's choice (log 8, DESIGN CHOICE). -/
def Obligations.DecodeOfEncodeIsTheInstruction : Prop :=
  (∀ i : Instr, decode (encode i) = i) ∧
  (∀ (m : OpMap) (i : Instr) (w : Word), encodeWith m i = some w → decodeWith m w = i) ∧
  (∀ (m : OpMap) (i : Instr), encodeWith m i = none → ∀ w, decodeWith m w ≠ i) ∧
  (∀ i : Instr, encodeWith [] i = some (encode i))

/-- Encoding the term decoded from any word gives the word back: no bit of a word is dropped (R50, R52).
That each of the 64 opcodes, the two without a handler included, is a constructor of its own is the
model's choice (log 16). -/
def Obligations.EncodeOfDecodeIsTheWord : Prop := ∀ w : Word, encode (decode w) = w

/-- The number of an instruction's word is the formula of R60. -/
def Obligations.EncodedWordIsTheFieldFormula : Prop :=
  ∀ (i : Instr) (a1 a2 a3 : Operand), operandsOf i = (a1, a2, a3) →
    (encode i).toNat =
      (4 * a1.indexed.toNat + 2 * a2.indexed.toNat + a3.indexed.toNat) * 2 ^ 42 +
        (opcodeOf i).toNat * 2 ^ 36 + a1.addr.toNat * 2 ^ 24 + a2.addr.toNat * 2 ^ 12 +
        a3.addr.toNat

/-- The table of R56, all 64 rows in the order of their opcodes, and words written out from the octal
layout `T OO AAAA BBBB CCCC` (R51), which decode to the instructions they stand for. -/
def Obligations.SpecWordsDecode : Prop :=
  (∀ a b c : Operand,
    [Instr.mov a b c, .add a b c, .sub a b c, .subabs a b c, .div a b c, .mul a b c,
      .expaddi a b c, .lowprod a b c, .expadd a b c, .looplt a b c, .cycadd a b c,
      .adda a b c, .shmi a b c, .xor a b c, .jsr a b c, .halt a b c].map opcodeOf =
      (List.range' 0 16).map (BitVec.ofNat 6) ∧
    [Instr.rdsw a b c, .addNr a b c, .subNr a b c, .subabsNr a b c, .divNr a b c,
      .mulNr a b c, .expsubi a b c, .lowprod027 a b c, .expsub a b c, .loopge a b c,
      .cycsub a b c, .suba a b c, .shwi a b c, .xorchk a b c, .jc a b c, .halt2 a b c].map opcodeOf =
      (List.range' 16 16).map (BitVec.ofNat 6) ∧
    [Instr.rot a b c, .addNn a b c, .subNn a b c, .subabsNn a b c, .sqrt a b c,
      .mulNn a b c, .expaddiNn a b c, .lowprodNn a b c, .expaddNn a b c, .loopltf a b c,
      .iosetup a b c, .addo a b c, .shme a b c, .and a b c, .jmp a b c,
      .reserved057 a b c].map opcodeOf =
      (List.range' 32 16).map (BitVec.ofNat 6) ∧
    [Instr.addrform a b c, .addNrNn a b c, .subNrNn a b c, .subabsNrNn a b c,
      .sqrtNr a b c, .mulNrNn a b c, .expsubiNn a b c, .lowprodNn067 a b c,
      .expsubNn a b c, .loopgef a b c, .ioexec a b c, .subo a b c, .shwe a b c,
      .or a b c, .jnc a b c, .reserved077 a b c].map opcodeOf =
      (List.range' 48 16).map (BitVec.ofNat 6)) ∧
  decode 0o001001200130014 = .add ⟨false, 0o12⟩ ⟨false, 0o13⟩ ⟨false, 0o14⟩ ∧
  decode 0o062001200130014 = .subNrNn ⟨false, 0o12⟩ ⟨false, 0o13⟩ ⟨false, 0o14⟩ ∧
  decode 0o111000501000001 = .looplt ⟨false, 5⟩ ⟨false, 0o100⟩ ⟨true, 1⟩ ∧
  decode 0o256000001000000 = .jmp ⟨false, 0⟩ ⟨true, 0o100⟩ ⟨false, 0⟩ ∧
  decode 0o420000200000020 = .rdsw ⟨true, 2⟩ ⟨false, 0⟩ ⟨false, 0o20⟩ ∧
  decode 0o072200003000020 = .ioexec ⟨false, 0o2000⟩ ⟨false, 0o300⟩ ⟨false, 0o20⟩ ∧
  decode 0 = .mov ⟨false, 0⟩ ⟨false, 0⟩ ⟨false, 0⟩

/-- Only the opcodes `057` and `077` have no handler (R57). Under another opcode map those have none that
it gives one of these two rows: the model's choice (log 8, DESIGN CHOICE). -/
def Obligations.OnlyTwoOpcodesHaveNoHandler : Prop :=
  (∀ w : Word, wellFormed (decode w) = true ↔ opcOf w ≠ 0o57 ∧ opcOf w ≠ 0o77) ∧
  ∀ (m : OpMap) (w : Word), wellFormed (decodeWith m w) = true ↔
    operationOf m (opcOf w) ≠ 0o57 ∧ operationOf m (opcOf w) ≠ 0o77

/-- R53: "Both are extracted for every opcode". Under every opcode map, where an opcode runs an operation
that uses them, `NR` is opcode bit 4 and `NN` is opcode bit 5. That a map entry names a row of the table
is the model's choice (log 8, DESIGN CHOICE). -/
def Obligations.ModifiersAreOpcodeBits : Prop :=
  ∀ (m : OpMap) (w : Word) (nr nn : Bool) (a1 a2 a3 : Operand),
    ((∃ op, decodeWith m w = addInstr op nr nn a1 a2 a3) ∨
        decodeWith m w = mulInstr nr nn a1 a2 a3 →
      nr = (opcOf w).getLsbD 4 ∧ nn = (opcOf w).getLsbD 5) ∧
    (decodeWith m w = divInstr nr a1 a2 a3 ∨ decodeWith m w = sqrtInstr nr a1 a2 a3 →
      nr = (opcOf w).getLsbD 4) ∧
    ((∃ b, decodeWith m w = lowInstr b nn a1 a2 a3 ∨
        decodeWith m w = expImmediateInstr b nn a1 a2 a3 ∨
        decodeWith m w = expOperandInstr b nn a1 a2 a3) →
      nn = (opcOf w).getLsbD 5)

/-! ### The word model -/

/-- R72: `pack` is the number `t*2^44 + s*2^43 + e*2^36 + m`, and its fields are what was packed. -/
def Obligations.PackPlacesEveryField : Prop :=
  ∀ (s t : Bool) (e : Int) (m : Nat), 0 ≤ e → e ≤ 127 → m < 2 ^ 36 →
    (pack s e m t).toNat = t.toNat * 2 ^ 44 + s.toNat * 2 ^ 43 + e.toNat * 2 ^ 36 + m ∧
    tagOf (pack s e m t) = t ∧ signOf (pack s e m t) = s ∧
    (expOf (pack s e m t) : Int) = e ∧ mantOf (pack s e m t) = m

/-- R76: the closed form of the normalization loop of R75, with `k` the number of leading zero bits of
the 36-bit mantissa. -/
def Obligations.NormalizeIsItsClosedForm : Prop :=
  ∀ (s t : Bool) (e : Int) (m k : Nat), m < 2 ^ 36 → k = 35 - Nat.log2 m →
    normalize s e m t =
      if m = 0 ∨ e < 0 ∨ e - k < 0 then zeroWord t else pack s (e - k) (m * 2 ^ k % 2 ^ 36) t

/-- R73: a word is a zero exactly when sign, exponent and mantissa are 0. R77: the zero test ignores the tag, canonical zero passes it, and `normalize` never returns a set
sign with a zero mantissa. -/
def Obligations.CanonicalZeroProperties : Prop :=
  (∀ w : Word, isZero w = true ↔ signOf w = false ∧ expOf w = 0 ∧ mantOf w = 0) ∧
  (∀ v w : Word, signOf v = signOf w → expOf v = expOf w → mantOf v = mantOf w →
    isZero v = isZero w) ∧
  (∀ t : Bool, isZero (zeroWord t) = true) ∧
  (∀ (s t : Bool) (e : Int) (m : Nat), e ≤ 127 → m < 2 ^ 36 →
    signOf (normalize s e m t) = true → mantOf (normalize s e m t) ≠ 0)

/-! ### Memory and the overlay -/

/-- The read and the write primitive, case by case, at the reduced address (R30, R33, R36, R37). Where
R36 re-executes the word stored at `07777`, the model's write only leaves the re-execution due in the
field `pend` (log 4, DESIGN CHOICE). -/
def Obligations.MemoryPrimitivesFollowTheirRules : Prop :=
  ∀ (s : State) (a b : Addr) (v : Word), b.toNat = a.toNat % s.cfg.memWords →
    memRead s a =
      (if b = 0 then some 0
      else if s.cfg.mmr ≠ .off ∧ 0o7770 ≤ b.toNat then some (overlayRead s b)
      else if s.cfg.memcheck = true ∧ 2 ^ 45 ≤ memGet s.mem b.toNat then none
      else some (BitVec.ofNat 45 (memGet s.mem b.toNat))) ∧
    memWrite a v s =
      (if b = 0 then s
      else if s.cfg.mmr ≠ .off ∧ 0o7770 ≤ b.toNat then
        if s.cfg.mmr = .ext ∧ b = 0o7776 then { s with idx := v.extractLsb' 0 12 }
        else if s.cfg.mmr = .ext ∧ b = 0o7777 then { s with ir := v, pend := .store }
        else s
      else { s with mem := memSet s.mem b.toNat v.toNat })

/-- R34, the reading column: with the overlay active the top eight addresses read as the registers. -/
def Obligations.OverlayReadsTheRegisters : Prop :=
  ∀ s : State, s.cfg.memWords = 4096 → s.cfg.mmr ≠ .off →
    memRead s 0o7770 = some 0 ∧ memRead s 0o7771 = some s.sw0 ∧ memRead s 0o7772 = some s.sw1 ∧
    memRead s 0o7773 = some s.sw2 ∧ memRead s 0o7774 = some s.sw3 ∧
    memRead s 0o7775 = some s.res ∧
    memRead s 0o7776 = some (if s.cfg.mmr = .ext then BitVec.ofNat 45 s.idx.toNat else 0) ∧
    memRead s 0o7777 = some (if s.cfg.mmr = .ext then s.ir else 0)

/-- A word stored in an ordinary cell is read back from it, and every address that names another cell
reads as before (R30, R36, R41). -/
def Obligations.StoredWordIsReadBackAndNothingElseMoves : Prop :=
  ∀ (s : State) (a b : Addr) (v : Word), Inv s → b.toNat = a.toNat % s.cfg.memWords → b ≠ 0 →
    (s.cfg.mmr = .off ∨ b.toNat < 0o7770) →
    memRead (memWrite a v s) a = some v ∧
    ∀ c : Addr, c.toNat % s.cfg.memWords ≠ b.toNat →
      memRead (memWrite a v s) c = memRead s c

/-- R40: with 45-bit cells the integrity check never fails, in any state of the invariant. -/
def Obligations.NoCorruptionWithWordWideCells : Prop :=
  ∀ (s : State) (a : Addr), Inv s → s.cfg.storeW = 45 → memRead s a ≠ none

/-- R249, R37: a word deposited in an ordinary cell is examined there; a deposit at address 0 leaves
memory alone and signals the read-only status. That the deposit's status is answered in `State.status`
is the model's choice (log 18). -/
def Obligations.DepositThenExamine : Prop :=
  (∀ (s : State) (a b : Addr) (v : Word), Inv s → b.toNat = a.toNat % s.cfg.memWords → b ≠ 0 →
    (s.cfg.mmr = .off ∨ b.toNat < 0o7770) →
    ∃ t, deposit a v.toNat s = .next t ∧ t.status = .ok ∧ examine a t = some v) ∧
  (∀ (s : State) (v : Nat), deposit 0 v s = .next (onlyStatus .readOnly s) ∧
    examine 0 (onlyStatus .readOnly s) = some 0)

/-! ### The controller -/

/-- R54: an effective address is the field plus `IDX` when its tag bit is set, mod 4096. -/
def Obligations.EffectiveAddressWraps : Prop :=
  ∀ (o : Operand) (s : State),
    (effAddr o s).toNat =
      (o.addr.toNat + if o.indexed = true then s.idx.toNat else 0) % 4096

/-- A step whose fetch reads `w` executes the instruction that the opcode map decodes it to, with
`IR = w`, `PC` advanced and the delay charged, then does the bookkeeping of its status; a refusal of the
instruction is the step's. -/
def Obligations.StepRunsTheDecodedInstruction : Prop :=
  ∀ (s : State) (w : Word), memRead s s.pc = some w →
    (∀ t, exec (decodeWith s.cfg.opmap w) (entered w s) = .next t → t.pend = .idle →
      step s = .next (finish t)) ∧
    (∀ x, exec (decodeWith s.cfg.opmap w) (entered w s) = .refused x → step s = .refused x)

/-- R38: when the instruction's store reached the `IR` overlay, the stored word is executed to
completion, with `PC` and `IDX` as they then are; when that word's own store reaches the overlay again,
so is the next, to any depth below the model's bound (log 4). The last one's status is the step's. -/
def Obligations.StepReexecutesTheStoredWord : Prop :=
  ∀ (s : State) (w : Word) (n : Nat) (chain : Nat → State), n < Config.reexecLimit →
    memRead s s.pc = some w →
    exec (decodeWith s.cfg.opmap w) (entered w s) = .next (chain 0) →
    (∀ k < n, (chain k).pend = .store ∧ reexecuted (chain k) = .next (chain (k + 1))) →
    (chain n).pend = .idle → step s = .next (finish (chain n))

/-- R38 with R208: a step whose IOEXEC delivers a word to the `IR` overlay stores the words before it,
executes it to completion, stores the words after it and ends the transfer in the state then reached.
That the status of the executed word is dropped, and the disable-stop flag read at the end, is the
model's reading of R208 (log 14, DEDUCED). -/
def Obligations.StepReexecutesADeliveredWord : Prop :=
  ∀ (s d u v : State) (w0 w : Word) (a1 a2 a3 : Operand) (r : DevResult)
    (before after : List (Addr × Word)) (a : Addr),
    memRead s s.pc = some w0 → decodeWith s.cfg.opmap w0 = .ioexec a1 a2 a3 →
    s.iod.valid = true → r = devPerform (effAddr a1 s) s →
    r.writes = before ++ (a, w) :: after → writeTarget s.cfg a = .instruction →
    (∀ p ∈ before ++ after, writeTarget s.cfg p.1 ≠ .instruction) →
    writeTarget s.cfg (effAddr a3 s) ≠ .instruction →
    d = storeAll before
      { entered w0 s with
        delay := (entered w0 s).delay + Config.devDelay s.iod (effAddr a1 s)
        devices := deviceCalled s.devices
        status := .ok } →
    reexecuted { d with ir := w } = .next u → u.pend = .idle → v = storeAll after u →
    step s = .next (finish
      (if r.status = .ok then
        memWrite (effAddr a3 s) r.checksum { v with res := r.checksum, status := .ok }
      else if ioNostop v.iod.cc v = true then { v with pc := effAddr a2 s, status := .ok }
      else onlyStatus (deviceStatus r.status) v))

/-- The bound on the nesting is a resource limit only: what a word's execution answers at one depth it
answers at every greater depth, and outside the alternate mode of ADDRFORM a step has a next state or
reaches the bound. The bound and its refusal are the model's choice (log 4). -/
def Obligations.NestingBoundIsOnlyAResourceLimit : Prop :=
  (∀ (n k : Nat) (w : Word) (s t : State), execute n w s = .next t →
    execute (n + k) w s = .next t) ∧
  ∀ s : State, s.cfg.alt = false →
    step s = .refused .reexecutionDepth ∨ ∃ t, step s = .next t ∧ t.cfg = s.cfg

/-- R226: for the statuses of the two rollback classes `PC` is decremented and `IR` reloaded from it,
for every other status nothing changes. -/
def Obligations.RollbackBookkeeping : Prop :=
  ∀ s : State,
    (s.status ∈ [.sqrtNeg, .cardCksum, .cardRead, .tapeRead, .halt, .cmpFail, .noCard, .divZero,
        .divMovf] →
      ∀ w, memRead s (s.pc - 1) = some w → finish s = { s with pc := s.pc - 1, ir := w }) ∧
    (s.status ∉ [.sqrtNeg, .cardCksum, .cardRead, .tapeRead, .halt, .cmpFail, .noCard, .divZero,
        .divMovf] → finish s = s)

/-- R221: an instruction other than IOEXEC that ends with a status other than `OK` has written nothing
but that status. -/
def Obligations.FailingInstructionWritesNothing : Prop :=
  ∀ (i : Instr) (s t : State), isIoexec i = false → exec i s = .next t → t.status ≠ .ok →
    t = onlyStatus t.status s

/-- R216: "No instruction can raise a status not listed for it." -/
def Obligations.OnlyListedStatusesAreRaised : Prop :=
  ∀ (i : Instr) (s t : State), exec i s = .next t → t.status = .ok ∨ t.status ∈ listedStatuses i

/-- R217 to R219, R226: after a step whose instruction (not IOEXEC) failed, `IR` holds the failing
instruction; `PC` is its address for the rollback classes and the next address for the fatal class;
the rest of the state but the delay counter is as before the step. -/
def Obligations.StepAfterFailedInstruction : Prop :=
  ∀ (s t : State) (w : Word), memRead s s.pc = some w →
    isIoexec (decodeWith s.cfg.opmap w) = false →
    exec (decodeWith s.cfg.opmap w) (entered w s) = .next t → t.status ≠ .ok →
    step s = .next { s with
      ir := w
      pc := if rollsBack t.status then s.pc else s.pc + 1
      delay := s.delay + Config.delayOf (opcOf w)
      status := t.status
      pend := .idle }

/-- R227: outside the `EXT` overlay mode, an instruction other than IOEXEC that stopped with a status of
the rollback classes is executed again by the next step and stops with the same status. -/
def Obligations.ResumedFailureRepeats : Prop :=
  ∀ (s t : State) (w : Word), s.cfg.mmr ≠ .ext → memRead s s.pc = some w →
    isIoexec (decodeWith s.cfg.opmap w) = false → step s = .next t → rollsBack t.status = true →
    ∃ u, step t = .next u ∧ u.status = t.status ∧ u.pc = t.pc ∧ u.ir = t.ir ∧ u.res = t.res ∧
      u.cf = t.cf ∧ u.aux = t.aux ∧ u.idx = t.idx ∧ u.mem = t.mem

/-- Outside the `EXT` overlay mode and the alternate mode of ADDRFORM every step has a next state, in
which the machine still is outside them (R215, R38, R198). -/
def Obligations.StepsInPlainModeAreNeverRefused : Prop :=
  ∀ s : State, plainMode s → ∃ t, step s = .next t ∧ plainMode t

/-! ### Invariants and reset -/

/-- Every step keeps the invariant: memory canonical, cells at least 45 bits wide, at least one word of
memory, no re-execution half done. The list form and the re-execution field are the model's choice (logs 3 and 4). -/
def Obligations.EveryStepKeepsTheInvariant : Prop :=
  ∀ s t : State, Inv s → step s = .next t → Inv t

/-- The state after reset has the invariant. The list form, the idle re-execution field and the values
of `STORE_W` and `MEM_WORDS` at reset are the model's choice (logs 2, 3, 4 and 8). -/
def Obligations.ResetHasTheInvariant : Prop := Inv State.reset

/-- R24, R245: what reset leaves, from any state; the configuration inputs and the external devices are not
touched. -/
def Obligations.ResetValues : Prop :=
  ∀ s : State,
    (∀ a, memGet (hostReset s).mem a = 0) ∧ (hostReset s).pc = 0 ∧ (hostReset s).ir = 0 ∧
    (hostReset s).idx = 0 ∧ (hostReset s).res = 0 ∧ (hostReset s).cf = false ∧
    (hostReset s).aux = 0 ∧ (hostReset s).sw0 = 0 ∧ (hostReset s).sw1 = 0 ∧
    (hostReset s).sw2 = 0 ∧ (hostReset s).sw3 = 0 ∧ (hostReset s).iod.valid = false ∧
    (hostReset s).delay = 0 ∧ (hostReset s).cfg = s.cfg ∧ (hostReset s).devices = s.devices ∧
    hostReset State.reset = State.reset

/-- R246: a machine with cleared memory, no overlay and MOV at opcode 0 executes `MOV 0, 0, 0` for ever: no status but
`OK`, `RES = 0`, `CF = 1`, and `PC` walks through memory and wraps. -/
def Obligations.ClearedMemoryRunsForEver : Prop :=
  ∀ (n : Nat) (s : State), s.mem = [] → s.cfg.mmr = .off →
    operationOf s.cfg.opmap 0 = 0 → ∃ t, runLoop (n + 1) s = .next t ∧ t.status = .ok ∧ t.res = 0 ∧ t.cf = true ∧ t.mem = [] ∧
      t.pc.toNat = (s.pc.toNat + n + 1) % 4096

/-- R18, R6: no step changes a console switch or a configuration input, nested re-executions and device
transfers included. R22: the delay counter only grows. -/
def Obligations.SwitchesAndInputsStayAndDelayGrows : Prop :=
  ∀ s t : State, step s = .next t →
    t.sw0 = s.sw0 ∧ t.sw1 = s.sw1 ∧ t.sw2 = s.sw2 ∧ t.sw3 = s.sw3 ∧ t.cfg = s.cfg ∧
      s.delay ≤ t.delay

/-! ### Who writes what: the frames of all instructions -/

/-- Every cell keeps its value but the one an instruction stores at: the third effective address of the
storing instructions; XORCHK, the control instructions but JSR, and IOSETUP store nothing. -/
def Obligations.OnlyTheStoreOperandsCellChanges : Prop :=
  ∀ (i : Instr) (s t : State) (a : Nat), isIoexec i = false → exec i s = .next t →
    (∀ o, storeOperand i = some o → a ≠ (effAddr o s).toNat % s.cfg.memWords) →
    memGet t.mem a = memGet s.mem a

/-- IOEXEC changes no cell but those of the device's words and the checksum's destination `A3e`, and of
the registers only `RES`, `PC`, `DELAY` and, through the `EXT` overlay, `IDX` and `IR`. -/
def Obligations.IoexecFrame : Prop :=
  ∀ (a1 a2 a3 : Operand) (s t : State), exec (.ioexec a1 a2 a3) s = .next t →
    (∀ a : Nat, a ≠ (effAddr a3 s).toNat % s.cfg.memWords →
      (∀ p ∈ (devPerform (effAddr a1 s) s).writes, a ≠ p.1.toNat % s.cfg.memWords) →
      memGet t.mem a = memGet s.mem a) ∧
    t.cf = s.cf ∧ t.aux = s.aux ∧ t.iod = s.iod ∧ t.cfg = s.cfg ∧ t.sw0 = s.sw0 ∧
    t.sw1 = s.sw1 ∧ t.sw2 = s.sw2 ∧ t.sw3 = s.sw3 ∧
    (s.cfg.mmr ≠ .ext → t.idx = s.idx ∧ t.ir = s.ir)

/-- R225, R13 (d), R16, R186: `PC` is changed only by a control instruction or IOEXEC's skip. The control
and I/O instructions do not write `AUX`; of them only IOEXEC writes `RES`, and only LOOPLTF and LOOPGEF
write `CF`. -/
def Obligations.PcResultAndFlagWriters : Prop :=
  ∀ (i : Instr) (s t : State), exec i s = .next t →
    (groupOf i ≠ .control → isIoexec i = false → t.pc = s.pc) ∧
    (groupOf i = .control ∨ groupOf i = .inputOutput →
      (isIoexec i = false → t.res = s.res) ∧ t.aux = s.aux ∧
      ((∀ a1 a2 a3, i ≠ .loopltf a1 a2 a3 ∧ i ≠ .loopgef a1 a2 a3) → t.cf = s.cf))

/-- R254: `AUX` is written by MUL, and on the exact path by ADD, SUB, SUBABS, DIV and SQRT; every other
instruction, and those five on the fast path, leave it alone. -/
def Obligations.OnlyTheListedInstructionsWriteAux : Prop :=
  ∀ (i : Instr) (s t : State), exec i s = .next t → t.aux ≠ s.aux →
    (∃ nr nn a1 a2 a3, i = mulInstr nr nn a1 a2 a3) ∨
    (s.cfg.path = .exactPath ∧
      ((∃ op nr nn a1 a2 a3, i = addInstr op nr nn a1 a2 a3) ∨
        (∃ nr a1 a2 a3, i = divInstr nr a1 a2 a3) ∨ ∃ nr a1 a2 a3, i = sqrtInstr nr a1 a2 a3))

/-- R191, R36: `IDX` is written only by the four loop instructions and by an instruction that stores at
the `IDX` overlay, and `IR` only by one that stores at the `IR` overlay. R18, R21, R22: the descriptor is
written only by IOSETUP; the delay counter and the device side only by IOEXEC; the switches and the
inputs by no instruction. -/
def Obligations.IndexDescriptorAndSwitchWriters : Prop :=
  ∀ (i : Instr) (s t : State), exec i s = .next t →
    (t.idx ≠ s.idx → (∃ p f a1 a2 a3, i = loopInstr p f a1 a2 a3) ∨
      ∃ a ∈ storesTo i s, writeTarget s.cfg a = .index) ∧
    (t.ir ≠ s.ir → ∃ a ∈ storesTo i s, writeTarget s.cfg a = .instruction) ∧
    ((∀ a1 a2 a3, i ≠ .iosetup a1 a2 a3) → t.iod = s.iod) ∧
    (isIoexec i = false → t.delay = s.delay ∧ t.devices = s.devices) ∧
    t.sw0 = s.sw0 ∧ t.sw1 = s.sw1 ∧ t.sw2 = s.sw2 ∧ t.sw3 = s.sw3 ∧ t.cfg = s.cfg

/-! ### The adder/subtractor -/

/-- R100 to R103: an addition-family instruction whose operands read as `x` and `y` and whose unit
answers the word `r` completes: `AUX` on the exact path, `RES`, `CF` the sign, the store at `A3e`.
R93: the unit's rounding is forced exactly when `y` is negative canonical zero, whatever its tag, and `x`
is positive and not canonical zero. -/
def Obligations.AddFamilyCompletes : Prop :=
  (∀ (op : AddOp) (nr nn : Bool) (a1 a2 a3 : Operand) (s : State) (x y r : Word),
    reads s a1 x → reads s a2 y → addsub op nr nn (forceRound x y) x y = .ok r →
    exec (addInstr op nr nn a1 a2 a3) s =
      arithDone r (auxAfter x y (auxOpOf op) nr nn (forceRound x y) s) a3 s) ∧
  ∀ x y : Word, forceRound x y = true ↔
    y.toNat % 2 ^ 44 = 2 ^ 43 ∧ signOf x = false ∧ isZero x = false

/-- R92: the unit's one error is overflow, exactly when the aligned magnitudes of equal effective signs
sum to at least 2^36 at exponent 127; the instruction then ends with `ST_ADD_OVF`, nothing else
changed. SUBABS never overflows (R103). -/
def Obligations.AddOverflowExactly : Prop :=
  (∀ (op : AddOp) (nr nn fr : Bool) (x y : Word) (st : Status),
    addsub op nr nn fr x y = .error st ↔
      st = .addOvf ∧ (effectiveSigns op x y).1 = (effectiveSigns op x y).2 ∧
        max (expOf x) (expOf y) = 127 ∧
        2 ^ 36 ≤ (alignedMants x y (roundBit x y nr fr)).1 +
          (alignedMants x y (roundBit x y nr fr)).2) ∧
  (∀ (nr nn fr : Bool) (x y : Word) (st : Status), addsub .subabs nr nn fr x y ≠ .error st) ∧
  (∀ (op : AddOp) (nr nn : Bool) (a1 a2 a3 : Operand) (s : State) (x y : Word) (st : Status),
    reads s a1 x → reads s a2 y → addsub op nr nn (forceRound x y) x y = .error st →
    exec (addInstr op nr nn a1 a2 a3) s = .next (onlyStatus .addOvf s))

/-- R96: with different exponents the round bit, forced or not, is shifted out by the alignment, so that
forcing it changes no result. R99: without forced rounding ADD is commutative, bit for bit. -/
def Obligations.RoundBitIsInertAndAddCommutes : Prop :=
  (∀ x y : Word, expOf x ≠ expOf y → alignedMants x y true = alignedMants x y false) ∧
  (∀ (op : AddOp) (nr nn fr : Bool) (x y : Word), expOf x ≠ expOf y →
    addsub op nr nn fr x y = addsub op nr nn (!fr) x y) ∧
  ∀ (nr nn : Bool) (x y : Word), addsub .add nr nn false x y = addsub .add nr nn false y x

/-- R82 to R88: the number the adder gives. The mantissas are aligned to the larger exponent by
truncation, a forced round bit counts only on equal exponents, on the second operand, and the signed sum
is exact. Without normalization the result is that sum; a sum of 2^36 or more is halved at the next
exponent, rounded half up unless `NR`. Normalization then applies to that result. -/
def Obligations.AdderGivesTheAlignedSum : Prop :=
  (∀ (op : AddOp) (nr fr : Bool) (x y : Word) (e mx my : Nat) (sum : Int),
    e = max (expOf x) (expOf y) →
    mx = mantOf x / 2 ^ (e - expOf x) →
    my = (if fr = true ∧ expOf x = expOf y then mantOf y ||| 1 else mantOf y) /
      2 ^ (e - expOf y) →
    sum = (match op with
      | .add => signedMag (signOf x) mx + signedMag (signOf y) my
      | .sub => signedMag (signOf x) mx - signedMag (signOf y) my
      | .subabs => (mx : Int) - my) →
    addsub op nr true fr x y =
      if sum.natAbs < 2 ^ 36 then
        .ok (pack (decide (sum < 0)) e sum.natAbs (tagOf x || tagOf y))
      else if e = 127 then .error .addOvf
      else .ok (pack (decide (sum < 0)) (e + 1)
        (if nr = true then sum.natAbs / 2 else (sum.natAbs + 1) / 2) (tagOf x || tagOf y))) ∧
  ∀ (op : AddOp) (nr fr : Bool) (x y : Word),
    (∀ r, addsub op nr true fr x y = .ok r →
      addsub op nr false fr x y =
        .ok (normalize (signOf r) (expOf r) (mantOf r) (tagOf r))) ∧
    ∀ st, addsub op nr true fr x y = .error st → addsub op nr false fr x y = .error st

/-- R98: the block never produces a word with sign 1 and mantissa 0. R97: exact cancellation gives
canonical zero with the OR of the tags when normalized, and a zero mantissa at the larger exponent when
not. -/
def Obligations.AddZeroResults : Prop :=
  (∀ (op : AddOp) (nr nn fr : Bool) (x y r : Word), addsub op nr nn fr x y = .ok r →
    signOf r = true → mantOf r ≠ 0) ∧
  (∀ (op : AddOp) (nr nn fr : Bool) (x y : Word), mantSum op x y (roundBit x y nr fr) = 0 →
    addsub op nr nn fr x y =
      .ok (if nn then pack false (max (expOf x) (expOf y) : Nat) 0 (tagOf x || tagOf y)
        else zeroWord (tagOf x || tagOf y)))

/-! ### Multiplier, divider, square root, exponent arithmetic -/

/-- R116: MUL completes with `AUX`, `RES`, `CF` and the store; a product overflow ends it with
`ST_MUL_OVF`, nothing else changed. LOWPROD delivers `AUX`, normalized unless `NN`, and keeps it
(R120). -/
def Obligations.MulAndLowprodComplete : Prop :=
  (∀ (nr nn : Bool) (a1 a2 a3 : Operand) (s : State) (x y r low : Word),
    reads s a1 x → reads s a2 y → mulUnit nr nn x y = .ok (r, low) →
    exec (mulInstr nr nn a1 a2 a3) s = arithDone r low a3 s) ∧
  (∀ (nr nn : Bool) (a1 a2 a3 : Operand) (s : State) (x y : Word) (st : Status),
    reads s a1 x → reads s a2 y → mulUnit nr nn x y = .error st →
    exec (mulInstr nr nn a1 a2 a3) s = .next (onlyStatus .mulOvf s)) ∧
  (∀ (nr nn : Bool) (a1 a2 a3 : Operand) (s : State),
    exec (lowInstr nr nn a1 a2 a3) s =
      arithDone (if nn then s.aux
        else normalize (signOf s.aux) (expOf s.aux) (mantOf s.aux) (tagOf s.aux)) s.aux a3 s)

/-- R112 to R115: the two words of a product. `NR = 1` gives the halves of the product `hi, lo`, which
without `NN` is first doubled when its top bit is clear; `NR = 0` rounds the high half up on the top bit
of the low half, and a rounding carry moves the pair one place right. The words have the XOR of the
signs, the OR of the tags and one exponent. Above 127 that exponent is an overflow. A zero mantissa gives
two canonical zeros. "With `NR = 1` the pair `(hi, lo)` is the exact double-length product." -/
def Obligations.ProductWordsAreTheRoundedHalves : Prop :=
  (∀ (nn s t : Bool) (x y : Word) (prod hi lo : Nat) (e : Int),
    s = (signOf x ^^ signOf y) → t = (tagOf x || tagOf y) → mantOf x * mantOf y ≠ 0 →
    (if nn = false ∧ mantOf x * mantOf y < 2 ^ 71 then
      prod = 2 * (mantOf x * mantOf y) ∧ e = (expOf x : Int) + expOf y - 65
    else prod = mantOf x * mantOf y ∧ e = (expOf x : Int) + expOf y - 64) →
    prod = hi * 2 ^ 36 + lo → lo < 2 ^ 36 →
    mulUnit true nn x y = productPair s e hi lo t ∧
    mulUnit false nn x y =
      if lo < 2 ^ 35 then productPair s e hi lo t
      else if hi + 1 < 2 ^ 36 then productPair s e (hi + 1) lo t
      else productPair s (e + 1) (2 ^ 35) (lo / 2) t) ∧
  (∀ (nr nn : Bool) (x y : Word), mantOf x * mantOf y = 0 →
    mulUnit nr nn x y = .ok (zeroWord (tagOf x || tagOf y), zeroWord (tagOf x || tagOf y))) ∧
  ∀ x y : Word, 64 ≤ expOf x + expOf y → expOf x + expOf y ≤ 191 →
    ∃ r low, mulUnit true true x y = .ok (r, low) ∧
      mantOf r * 2 ^ 36 + mantOf low = mantOf x * mantOf y ∧
      tagOf r = (tagOf x || tagOf y) ∧ tagOf low = (tagOf x || tagOf y)

/-- R117: the multiplier is symmetric in its operands, and a result that did not collapse has the XOR of
the operand signs. -/
def Obligations.MulSymmetryAndSign : Prop :=
  ∀ (nr nn : Bool) (x y : Word), mulUnit nr nn x y = mulUnit nr nn y x ∧
    ∀ r low, mulUnit nr nn x y = .ok (r, low) → isZero r = false →
      signOf r = (signOf x ^^ signOf y)

/-- R130: DIV completes with `RES`, `CF` and the store (and the free `AUX` on the exact path), or ends
with the unit's status, nothing else changed. -/
def Obligations.DivCompletes : Prop :=
  (∀ (nr : Bool) (a1 a2 a3 : Operand) (s : State) (x y r : Word),
    reads s a1 x → reads s a2 y → divUnit nr x y = .ok r →
    exec (divInstr nr a1 a2 a3) s = arithDone r (auxAfter x y .div nr false false s) a3 s) ∧
  (∀ (nr : Bool) (a1 a2 a3 : Operand) (s : State) (x y : Word) (st : Status),
    reads s a1 x → reads s a2 y → divUnit nr x y = .error st →
    exec (divInstr nr a1 a2 a3) s = .next (onlyStatus st s))

/-- R126: the two checks, in their order, whatever the exponents, signs and tags; past them only
overflow is left. -/
def Obligations.DivChecksTheMantissas : Prop :=
  ∀ (nr : Bool) (x y : Word),
    (divUnit nr x y = .error .divZero ↔ mantOf y = 0) ∧
    (divUnit nr x y = .error .divMovf ↔ mantOf y ≠ 0 ∧ 2 * mantOf y ≤ mantOf x) ∧
    ∀ st, divUnit nr x y = .error st → st = .divZero ∨ st = .divMovf ∨ st = .divOvf

/-- R127 to R129: the quotient. Past the two checks the mantissa `q` is the fraction `mx / my`, or half
of it where it is 1 or more and the exponent is one higher: truncated with `NR = 1`, else rounded half
up on the bit below. The sign is the XOR, the tag the OR. A zero `q` or a negative exponent gives
canonical zero, and otherwise an exponent above 127 is the overflow, which arises in no other way. -/
def Obligations.QuotientIsTheRoundedFraction : Prop :=
  (∀ (nr : Bool) (x y : Word) (d q : Nat) (e : Int), mantOf y ≠ 0 → mantOf x < 2 * mantOf y →
    (if mantOf x < mantOf y then d = mantOf y ∧ e = (expOf x : Int) - expOf y + 64
    else d = 2 * mantOf y ∧ e = (expOf x : Int) - expOf y + 65) →
    q = (if nr = true then mantOf x * 2 ^ 36 / d else (mantOf x * 2 ^ 37 / d + 1) / 2) →
    q < 2 ^ 36 ∧
    divUnit nr x y =
      if q = 0 ∨ e < 0 then .ok (zeroWord (tagOf x || tagOf y))
      else if 127 < e then .error .divOvf
      else .ok (pack (signOf x ^^ signOf y) e q (tagOf x || tagOf y))) ∧
  ∀ x y r : Word, divUnit true x y = .ok r → isZero r = false →
    if mantOf x < mantOf y then
      mantOf r = mantOf x * 2 ^ 36 / mantOf y ∧ (expOf r : Int) = (expOf x : Int) - expOf y + 64
    else
      mantOf r = mantOf x * 2 ^ 35 / mantOf y ∧ (expOf r : Int) = (expOf x : Int) - expOf y + 65

/-- R138: SQRT completes with `RES`, `CF = 0` and the store, or ends with the unit's status, which is
that of a negative operand. R136, R137: the root of a nonzero mantissa is `isqrt` of the radicand, one
more with `NR = 0` when the remainder exceeds it, at the halved exponent and with the operand's tag. -/
def Obligations.SqrtCompletes : Prop :=
  (∀ (nr : Bool) (a1 a2 a3 : Operand) (s : State) (x r : Word),
    reads s a1 x → sqrtUnit nr x = .ok r →
    exec (sqrtInstr nr a1 a2 a3) s = arithDone r (auxAfter x 0 .sqrt nr false false s) a3 s ∧
      signOf r = false) ∧
  (∀ (nr : Bool) (a1 a2 a3 : Operand) (s : State) (x : Word) (st : Status),
    reads s a1 x → sqrtUnit nr x = .error st →
    exec (sqrtInstr nr a1 a2 a3) s = .next (onlyStatus st s)) ∧
  (∀ (nr : Bool) (x : Word) (st : Status),
    sqrtUnit nr x = .error st ↔ signOf x = true ∧ st = .sqrtNeg) ∧
  (∀ (nr : Bool) (x : Word), signOf x = false → mantOf x = 0 →
    sqrtUnit nr x = .ok (zeroWord (tagOf x))) ∧
  (∀ (nr : Bool) (x : Word) (rad e : Nat), signOf x = false → mantOf x ≠ 0 →
    (if expOf x % 2 = 1 then rad = mantOf x * 2 ^ 35 ∧ e = (expOf x + 1) / 2 + 32
    else rad = mantOf x * 2 ^ 36 ∧ e = expOf x / 2 + 32) →
    sqrtUnit nr x = .ok (pack false e
      (if nr = false ∧ isqrt rad < rad - isqrt rad * isqrt rad then isqrt rad + 1 else isqrt rad)
      (tagOf x)))

/-- R137: the root is the greatest integer whose square is at most the 72-bit radicand. -/
def Obligations.IsqrtIsTheGreatestRoot : Prop :=
  ∀ rad : Nat, rad < 2 ^ 72 →
    isqrt rad * isqrt rad ≤ rad ∧ rad < (isqrt rad + 1) * (isqrt rad + 1) ∧ isqrt rad < 2 ^ 36

/-- R146 to R150: the exponent instructions. With the exponent `e` of the rule: above 127 the status is
`ST_ADD_OVF`, nothing else changed; otherwise the number with exponent `e`, normalized unless `NN`,
where a negative exponent is canonical zero. -/
def Obligations.ExponentInstructionsComplete : Prop :=
  (∀ (sb nn : Bool) (a1 a2 a3 : Operand) (s : State) (x : Word) (e : Int), reads s a2 x →
    e = (if sb then expOf x - amountOf (effAddr a1 s) else expOf x + amountOf (effAddr a1 s)) →
    exec (expImmediateInstr sb nn a1 a2 a3) s =
      if 127 < e then .next (onlyStatus .addOvf s)
      else arithDone
        (if nn then if e < 0 then zeroWord (tagOf x) else pack (signOf x) e (mantOf x) (tagOf x)
          else normalize (signOf x) e (mantOf x) (tagOf x)) s.aux a3 s) ∧
  (∀ (sb nn : Bool) (a1 a2 a3 : Operand) (s : State) (x z : Word) (e : Int) (t : Bool),
    reads s a1 z → reads s a2 x → t = (tagOf x || tagOf z) →
    e = (if sb then (expOf x : Int) - expOf z + 64 else (expOf x : Int) + expOf z - 64) →
    exec (expOperandInstr sb nn a1 a2 a3) s =
      if 127 < e then .next (onlyStatus .addOvf s)
      else arithDone
        (if nn then if e < 0 then zeroWord t else pack (signOf x) e (mantOf x) t
          else normalize (signOf x) e (mantOf x) t) s.aux a3 s)

/-! ### Code and logical instructions -/

/-- R160, R162 to R169, R173, R174: the two-operand instructions, each with its result as arithmetic on
the operand words. -/
def Obligations.TwoOperandCodeInstructionsComplete : Prop :=
  ∀ (a1 a2 a3 : Operand) (s : State) (x y : Word), reads s a1 x → reads s a2 y →
    exec (.xor a1 a2 a3) s = codeDone (x ^^^ y) a3 s ∧
    exec (.and a1 a2 a3) s = codeDone (x &&& y) a3 s ∧
    exec (.or a1 a2 a3) s = codeDone (x ||| y) a3 s ∧
    exec (.adda a1 a2 a3) s = codeDone (BitVec.ofNat 45
      (x.toNat / 2 ^ 36 * 2 ^ 36 + (x.toNat + y.toNat) % 2 ^ 36)) a3 s ∧
    exec (.suba a1 a2 a3) s = codeDone (BitVec.ofNat 45
      (x.toNat / 2 ^ 36 * 2 ^ 36 + (x.toNat + (2 ^ 36 - y.toNat % 2 ^ 36)) % 2 ^ 36)) a3 s ∧
    exec (.addo a1 a2 a3) s = codeDone (BitVec.ofNat 45
      ((x.toNat / 2 ^ 36 + y.toNat / 2 ^ 36) % 2 ^ 9 * 2 ^ 36 + x.toNat % 2 ^ 36)) a3 s ∧
    exec (.subo a1 a2 a3) s = codeDone (BitVec.ofNat 45
      ((x.toNat / 2 ^ 36 + (2 ^ 9 - y.toNat / 2 ^ 36)) % 2 ^ 9 * 2 ^ 36 + x.toNat % 2 ^ 36)) a3 s ∧
    exec (.cycadd a1 a2 a3) s = codeDone (BitVec.ofNat 45
      (if 2 ^ 45 ≤ x.toNat + y.toNat then x.toNat + y.toNat - 2 ^ 45 + 1
        else x.toNat + y.toNat)) a3 s ∧
    exec (.cycsub a1 a2 a3) s = codeDone (BitVec.ofNat 45
      (if x.toNat < y.toNat then x.toNat + 2 ^ 45 - 1 - y.toNat else x.toNat - y.toNat)) a3 s ∧
    exec (.shme a1 a2 a3) s = codeDone (shiftedMant y.toNat ((expOf x : Int) - 64)) a3 s ∧
    exec (.shwe a1 a2 a3) s = codeDone (shiftedWord y.toNat ((expOf x : Int) - 64)) a3 s

/-- R157, R159, R171, R172: MOV, and the rotation and shifts by an immediate, each with its result as
arithmetic on the operand word. -/
def Obligations.OneOperandCodeInstructionsComplete : Prop :=
  (∀ (a1 a2 a3 : Operand) (s : State) (x : Word), reads s a1 x →
    exec (.mov a1 a2 a3) s = codeDone x a3 s) ∧
  (∀ (a1 a2 a3 : Operand) (s : State) (x : Word), reads s a2 x →
    exec (.rot a1 a2 a3) s = codeDone (BitVec.ofNat 45
      (x.toNat * 2 ^ ((effAddr a1 s).toNat % 45) % 2 ^ 45 +
        x.toNat / 2 ^ (45 - (effAddr a1 s).toNat % 45))) a3 s ∧
    exec (.shmi a1 a2 a3) s = codeDone (shiftedMant x.toNat (amountOf (effAddr a1 s))) a3 s ∧
    exec (.shwi a1 a2 a3) s = codeDone (shiftedWord x.toNat (amountOf (effAddr a1 s))) a3 s)

/-- R158: RDSW (opcode `020`) reads switch 0 to 3; any other number ends it with `ST_BAD_SWITCH`, nothing changed. -/
def Obligations.RdswReadsASwitch : Prop :=
  ∀ (a1 a2 a3 : Operand) (s : State),
    (effAddr a1 s = 0 → exec (.rdsw a1 a2 a3) s = codeDone s.sw0 a3 s) ∧
    (effAddr a1 s = 1 → exec (.rdsw a1 a2 a3) s = codeDone s.sw1 a3 s) ∧
    (effAddr a1 s = 2 → exec (.rdsw a1 a2 a3) s = codeDone s.sw2 a3 s) ∧
    (effAddr a1 s = 3 → exec (.rdsw a1 a2 a3) s = codeDone s.sw3 a3 s) ∧
    (3 < (effAddr a1 s).toNat → exec (.rdsw a1 a2 a3) s = .next (onlyStatus .badSwitch s)) ∧
    opcodeOf (.rdsw a1 a2 a3) = 0o20

/-- R161: XORCHK sets `RES` to 0 and `CF` to 1 and stores nothing when the operands agree; otherwise it
ends with `ST_CMP_FAIL`, nothing changed. -/
def Obligations.XorchkComparesOrStops : Prop :=
  ∀ (a1 a2 a3 : Operand) (s : State) (x y : Word), reads s a1 x → reads s a2 y →
    exec (.xorchk a1 a2 a3) s =
      if x = y then .next { s with res := 0, cf := true, status := .ok }
      else .next (onlyStatus .cmpFail s)

/-- R222: an instruction one of whose operand reads fails the integrity check, the first or, after a
readable first, the second, ends with `ST_MEM_CORRUPT`, nothing changed, whatever else would have stopped
it. R224: a fetch that meets a corrupt cell leaves `IR` and `PC` unchanged and reports
`ST_MEM_CORRUPT`. -/
def Obligations.CorruptReadStopsBeforeAnythingElse : Prop :=
  (∀ s : State, Inv s → memRead s s.pc = none → step s = .next (onlyStatus .memCorrupt s)) ∧
  (∀ (i : Instr) (o : Operand) (s : State), firstRead i = some o →
    memRead s (effAddr o s) = none → exec i s = .next (onlyStatus .memCorrupt s)) ∧
  ∀ (i : Instr) (o p : Operand) (s : State) (x : Word), firstRead i = some o →
    secondRead i = some p → reads s o x → memRead s (effAddr p s) = none →
    exec i s = .next (onlyStatus .memCorrupt s)

/-! ### Control instructions -/

/-- R187, R189, R190: the three jumps and their opcodes. -/
def Obligations.JumpsComplete : Prop :=
  ∀ (a1 a2 a3 : Operand) (s : State),
    exec (.jmp a1 a2 a3) s = .next { s with pc := effAddr a2 s, status := .ok } ∧
    exec (.jc a1 a2 a3) s =
      .next { s with pc := if s.cf = true then effAddr a2 s else s.pc, status := .ok } ∧
    exec (.jnc a1 a2 a3) s =
      .next { s with pc := if s.cf = false then effAddr a2 s else s.pc, status := .ok } ∧
    opcodeOf (.jmp a1 a2 a3) = 0o56 ∧ opcodeOf (.jc a1 a2 a3) = 0o36 ∧
    opcodeOf (.jnc a1 a2 a3) = 0o76

/-- R188: JSR stores the word `JMP 0, PC, 0` at `A3e`, then jumps to `A2e`. At the `IR` overlay the
marker is executed first and the jump follows it: the instruction leaves both due in the field `pend`,
which is the model's form (log 4, DESIGN CHOICE), and the step ends at the target with the marker in
`IR` (log 15). Opcode `056` is taken to be JMP there. -/
def Obligations.JsrStoresTheMarkerAndJumps : Prop :=
  (∀ (a1 a2 a3 : Operand) (s : State) (marker : Word) (m : State), Inv s →
    marker = encode (.jmp ⟨false, 0⟩ ⟨false, s.pc⟩ ⟨false, 0⟩) →
    m = memWrite (effAddr a3 s) marker { s with status := .ok } →
    exec (.jsr a1 a2 a3) s =
      if writeTarget s.cfg (effAddr a3 s) = .instruction then
        .next { m with pend := .jump (effAddr a2 s) }
      else .next { m with pc := effAddr a2 s }) ∧
  ∀ (a1 a2 a3 : Operand) (s : State) (w : Word), memRead s s.pc = some w →
    decodeWith s.cfg.opmap w = .jsr a1 a2 a3 → operationOf s.cfg.opmap 0o56 = 0o56 →
    writeTarget s.cfg (effAddr a3 s) = .instruction →
    ∃ t, step s = .next t ∧ t.status = .ok ∧ t.pc = effAddr a2 s ∧
      t.ir = encode (.jmp ⟨false, 0⟩ ⟨false, s.pc + 1⟩ ⟨false, 0⟩) ∧ t.mem = s.mem ∧
      t.res = s.res ∧ t.cf = s.cf ∧ t.idx = s.idx ∧ t.aux = s.aux

/-- R192 to R195: the four loop instructions and their opcodes; the bound, the target and the new index come from the old
`IDX`. -/
def Obligations.LoopsComplete : Prop :=
  ∀ (p : Polarity) (flag : Bool) (a1 a2 a3 : Operand) (s : State) (taken : Bool),
    taken = (match p with
      | .lt => decide (s.idx.toNat < (effAddr a1 s).toNat)
      | .ge => decide ((effAddr a1 s).toNat ≤ s.idx.toNat)) →
    exec (loopInstr p flag a1 a2 a3) s =
      .next { s with
        pc := if taken then effAddr a2 s else s.pc
        idx := effAddr a3 s
        cf := if flag then taken else s.cf
        status := .ok } ∧
      opcodeOf (.looplt a1 a2 a3) = 0o11 ∧ opcodeOf (.loopge a1 a2 a3) = 0o31 ∧
      opcodeOf (.loopltf a1 a2 a3) = 0o51 ∧ opcodeOf (.loopgef a1 a2 a3) = 0o71

/-- R196, R197, R57, R198: HALT and HALT2 end with `ST_HALT`; the reserved opcodes and, outside the
alternate mode, ADDRFORM end with `ST_BADOP`; in that mode the model refuses ADDRFORM. -/
def Obligations.HaltsAndUnimplementedOpcodes : Prop :=
  ∀ (a1 a2 a3 : Operand) (s : State),
    exec (.halt a1 a2 a3) s = .next (onlyStatus .halt s) ∧
    exec (.halt2 a1 a2 a3) s = .next (onlyStatus .halt s) ∧
    exec (.reserved057 a1 a2 a3) s = .next (onlyStatus .badOp s) ∧
    exec (.reserved077 a1 a2 a3) s = .next (onlyStatus .badOp s) ∧
    (s.cfg.alt = false → exec (.addrform a1 a2 a3) s = .next (onlyStatus .badOp s)) ∧
    (s.cfg.alt = true → exec (.addrform a1 a2 a3) s = .refused .addressFormation)

/-! ### Input and output -/

/-- R206: IOSETUP latches the descriptor when the condition code selects a device, and ends with
`ST_IO_CONFLICT`, nothing changed, when it does not. -/
def Obligations.IosetupLatchesOrConflicts : Prop :=
  ∀ (a1 a2 a3 : Operand) (s : State),
    (∀ d, ioSelect (effAddr a1 s) s = .device d →
      exec (.iosetup a1 a2 a3) s = .next { s with
        iod := ⟨true, d, effAddr a1 s, effAddr a2 s, effAddr a3 s⟩
        status := .ok }) ∧
    (ioSelect (effAddr a1 s) s = .conflict →
      exec (.iosetup a1 a2 a3) s = .next (onlyStatus .ioConflict s))

/-- R208: IOEXEC without a descriptor ends with `ST_IO_CONFLICT`, nothing changed. With one, when no
delivered word lands on the `IR` overlay, the device's words are stored and the delay added, and
then: on `OK` `RES` and the cell at `A3e` get the checksum; on an error the next instruction is at
`A2e` when the disable-stop flag is set, otherwise the device's status is the instruction's. -/
def Obligations.IoexecCompletes : Prop :=
  ∀ (a1 a2 a3 : Operand) (s d : State) (r : DevResult), s.pend = .idle →
    (s.iod.valid = false → exec (.ioexec a1 a2 a3) s = .next (onlyStatus .ioConflict s)) ∧
    (s.iod.valid = true → r = devPerform (effAddr a1 s) s → d = delivered r (effAddr a1 s) s →
      (∀ p ∈ r.writes, writeTarget s.cfg p.1 ≠ .instruction) →
      exec (.ioexec a1 a2 a3) s =
        if r.status = .ok then
          .next (memWrite (effAddr a3 s) r.checksum { d with res := r.checksum, status := .ok })
        else if ioNostop s.iod.cc s = true then
          .next { d with pc := effAddr a2 s, status := .ok }
        else .next (onlyStatus (deviceStatus r.status) d))
end

