-- ==== Sys2Proof/Laws/Decode.lean ====
section
/-! SUPPORT. Words and their fields as numbers: a word put together by `ipack` (R71), its fields taken
out again, a word put together from its own fields, and what an opcode map can do. -/

namespace Sys2Proof

theorem toNat_append_eq {m n : Nat} (x : BitVec m) (y : BitVec n) :
    (x ++ y).toNat = x.toNat * 2 ^ n + y.toNat := by
  rw [BitVec.toNat_append, ← Nat.shiftLeft_add_eq_or_of_lt y.isLt, Nat.shiftLeft_eq]

theorem toNat_extract {m : Nat} (x : BitVec m) (start len : Nat) :
    (x.extractLsb' start len).toNat = x.toNat / 2 ^ start % 2 ^ len := by
  rw [BitVec.extractLsb'_toNat, Nat.shiftRight_eq_div_pow]

theorem getLsbD_eq_decide {m : Nat} (x : BitVec m) (i : Nat) :
    x.getLsbD i = decide (x.toNat / 2 ^ i % 2 = 1) := by
  rw [BitVec.getLsbD, Nat.testBit_eq_decide_div_mod_eq]

theorem toNat_ofBool_eq (b : Bool) : (BitVec.ofBool b).toNat = b.toNat := by cases b <;> rfl

/-- The number of a word put together from its fields (R60, R71). -/
theorem ipack_toNat (t : BitVec 3) (op : BitVec 6) (a1 a2 a3 : Addr) :
    (ipack t op a1 a2 a3).toNat =
      t.toNat * 2 ^ 42 + op.toNat * 2 ^ 36 + a1.toNat * 2 ^ 24 + a2.toNat * 2 ^ 12 + a3.toNat := by
  unfold ipack
  rw [toNat_append_eq, toNat_append_eq, toNat_append_eq, toNat_append_eq]
  omega

theorem atagBits_toNat (o1 o2 o3 : Operand) :
    (atagBits o1 o2 o3).toNat =
      4 * o1.indexed.toNat + 2 * o2.indexed.toNat + o3.indexed.toNat := by
  unfold atagBits
  rw [toNat_append_eq, toNat_append_eq, toNat_ofBool_eq, toNat_ofBool_eq, toNat_ofBool_eq]
  omega

theorem opcOf_ipack (t : BitVec 3) (op : BitVec 6) (a1 a2 a3 : Addr) :
    opcOf (ipack t op a1 a2 a3) = op := by
  have h1 := a1.isLt; have h2 := a2.isLt; have h3 := a3.isLt; have h4 := op.isLt
  apply BitVec.eq_of_toNat_eq
  rw [opcOf, toNat_extract, ipack_toNat]
  omega

theorem operand_ext {o p : Operand} (h1 : o.indexed = p.indexed) (h2 : o.addr.toNat = p.addr.toNat) :
    o = p := by
  cases o; cases p
  simp_all [BitVec.toNat_inj]

theorem decide_toNat_eq_one (b : Bool) : decide (b.toNat = 1) = b := by cases b <;> rfl

theorem operand1_ipack (o1 o2 o3 : Operand) (op : BitVec 6) :
    operand1 (ipack (atagBits o1 o2 o3) op o1.addr o2.addr o3.addr) = o1 := by
  have h1 := o1.addr.isLt; have h2 := o2.addr.isLt; have h3 := o3.addr.isLt; have h4 := op.isLt
  have b1 := o1.indexed.toNat_le; have b2 := o2.indexed.toNat_le; have b3 := o3.indexed.toNat_le
  refine operand_ext ?_ ?_
  · unfold operand1
    rw [getLsbD_eq_decide, ipack_toNat, atagBits_toNat]
    refine Eq.trans (congrArg (fun n => decide (n = 1)) ?_) (decide_toNat_eq_one _)
    omega
  · unfold operand1
    rw [toNat_extract, ipack_toNat, atagBits_toNat]
    omega

theorem operand2_ipack (o1 o2 o3 : Operand) (op : BitVec 6) :
    operand2 (ipack (atagBits o1 o2 o3) op o1.addr o2.addr o3.addr) = o2 := by
  have h1 := o1.addr.isLt; have h2 := o2.addr.isLt; have h3 := o3.addr.isLt; have h4 := op.isLt
  have b1 := o1.indexed.toNat_le; have b2 := o2.indexed.toNat_le; have b3 := o3.indexed.toNat_le
  refine operand_ext ?_ ?_
  · unfold operand2
    rw [getLsbD_eq_decide, ipack_toNat, atagBits_toNat]
    refine Eq.trans (congrArg (fun n => decide (n = 1)) ?_) (decide_toNat_eq_one _)
    omega
  · unfold operand2
    rw [toNat_extract, ipack_toNat, atagBits_toNat]
    omega

theorem operand3_ipack (o1 o2 o3 : Operand) (op : BitVec 6) :
    operand3 (ipack (atagBits o1 o2 o3) op o1.addr o2.addr o3.addr) = o3 := by
  have h1 := o1.addr.isLt; have h2 := o2.addr.isLt; have h3 := o3.addr.isLt; have h4 := op.isLt
  have b1 := o1.indexed.toNat_le; have b2 := o2.indexed.toNat_le; have b3 := o3.indexed.toNat_le
  refine operand_ext ?_ ?_
  · unfold operand3
    rw [getLsbD_eq_decide, ipack_toNat, atagBits_toNat]
    refine Eq.trans (congrArg (fun n => decide (n = 1)) ?_) (decide_toNat_eq_one _)
    omega
  · unfold operand3
    rw [toNat_extract, ipack_toNat, atagBits_toNat]
    omega

/-- A row with its own opcode's modifiers is itself, so that the table of R56 is the map that gives each
opcode its own row. -/
@[simp] theorem withModifiers_self (op : BitVec 6) : withModifiers op op = op := by
  revert op
  decide

/-- The modifier bits depend on the low four opcode bits alone, which `withModifiers` keeps. -/
theorem modifierBits_withModifiers (op row : BitVec 6) :
    modifierBits (withModifiers op row) = modifierBits row := by
  revert op row
  decide +kernel

/-- The modifiers come from the opcode (R53). -/
theorem withModifiers_modifiers (op row : BitVec 6) :
    withModifiers op row &&& modifierBits row = op &&& modifierBits row := by
  revert op row
  decide +kernel

/-- Everything an opcode map can do: an opcode keeps its own row, or runs as a row of the map with its
own modifiers. -/
theorem operationOf_cases (m : OpMap) (op : BitVec 6) :
    operationOf m op = op ∨ ∃ row, (op, row) ∈ m ∧ operationOf m op = withModifiers op row := by
  induction m with
  | nil => exact .inl rfl
  | cons p m ih =>
    obtain ⟨k, row⟩ := p
    by_cases hk : k = op
    · exact .inr ⟨row, by simp [hk], by simp [operationOf, hk]⟩
    · rcases ih with h | ⟨r, hr, h⟩
      · exact .inl (by simpa [operationOf, hk] using h)
      · exact .inr ⟨r, by simp [hr], by simpa [operationOf, hk] using h⟩

@[simp] theorem operationOf_nil (op : BitVec 6) : operationOf [] op = op := rfl

@[simp] theorem decodeWith_nil (w : Word) : decodeWith [] w = decode w := rfl

/-- The opcode of a word built with opcode `op`. -/
@[simp] theorem opcOf_encodeAs (op : BitVec 6) (i : Instr) : opcOf (encodeAs op i) = op :=
  opcOf_ipack ..

/-- An opcode found for an instruction under a map selects its row. -/
theorem operationOf_opcodeUnder {m : OpMap} {i : Instr} {op : BitVec 6}
    (h : opcodeUnder m i = some op) : operationOf m op = opcodeOf i := by
  simpa using List.find?_some h

end Sys2Proof
end

