-- ==== Sys2Proof/Laws/State.lean ====
section
/-! SUPPORT. One lemma per field for each named update of the state, so that no later proof unfolds a
record update. -/

namespace Sys2Proof.Machine

section
variable (w : Word) (s : State)

@[simp] theorem fetched_mem : (fetched w s).mem = s.mem := rfl
@[simp] theorem fetched_pc : (fetched w s).pc = s.pc + 1 := rfl
@[simp] theorem fetched_ir : (fetched w s).ir = w := rfl
@[simp] theorem fetched_idx : (fetched w s).idx = s.idx := rfl
@[simp] theorem fetched_res : (fetched w s).res = s.res := rfl
@[simp] theorem fetched_cf : (fetched w s).cf = s.cf := rfl
@[simp] theorem fetched_aux : (fetched w s).aux = s.aux := rfl
@[simp] theorem fetched_sw0 : (fetched w s).sw0 = s.sw0 := rfl
@[simp] theorem fetched_sw1 : (fetched w s).sw1 = s.sw1 := rfl
@[simp] theorem fetched_sw2 : (fetched w s).sw2 = s.sw2 := rfl
@[simp] theorem fetched_sw3 : (fetched w s).sw3 = s.sw3 := rfl
@[simp] theorem fetched_iod : (fetched w s).iod = s.iod := rfl
@[simp] theorem fetched_delay : (fetched w s).delay = s.delay := rfl
@[simp] theorem fetched_cfg : (fetched w s).cfg = s.cfg := rfl
@[simp] theorem fetched_status : (fetched w s).status = s.status := rfl
@[simp] theorem fetched_pend : (fetched w s).pend = .idle := rfl
@[simp] theorem fetched_devices : (fetched w s).devices = s.devices := rfl

end

section
variable (op : BitVec 6) (s : State)

@[simp] theorem chargeDelay_mem : (chargeDelay op s).mem = s.mem := rfl
@[simp] theorem chargeDelay_pc : (chargeDelay op s).pc = s.pc := rfl
@[simp] theorem chargeDelay_ir : (chargeDelay op s).ir = s.ir := rfl
@[simp] theorem chargeDelay_idx : (chargeDelay op s).idx = s.idx := rfl
@[simp] theorem chargeDelay_res : (chargeDelay op s).res = s.res := rfl
@[simp] theorem chargeDelay_cf : (chargeDelay op s).cf = s.cf := rfl
@[simp] theorem chargeDelay_aux : (chargeDelay op s).aux = s.aux := rfl
@[simp] theorem chargeDelay_sw0 : (chargeDelay op s).sw0 = s.sw0 := rfl
@[simp] theorem chargeDelay_sw1 : (chargeDelay op s).sw1 = s.sw1 := rfl
@[simp] theorem chargeDelay_sw2 : (chargeDelay op s).sw2 = s.sw2 := rfl
@[simp] theorem chargeDelay_sw3 : (chargeDelay op s).sw3 = s.sw3 := rfl
@[simp] theorem chargeDelay_iod : (chargeDelay op s).iod = s.iod := rfl
@[simp] theorem chargeDelay_delay : (chargeDelay op s).delay = s.delay + Config.delayOf op := rfl
@[simp] theorem chargeDelay_cfg : (chargeDelay op s).cfg = s.cfg := rfl
@[simp] theorem chargeDelay_status : (chargeDelay op s).status = s.status := rfl
@[simp] theorem chargeDelay_pend : (chargeDelay op s).pend = s.pend := rfl
@[simp] theorem chargeDelay_devices : (chargeDelay op s).devices = s.devices := rfl

end

section
variable (v : Nat) (s : State)

@[simp] theorem setPc_mem : (setPc v s).mem = s.mem := rfl
@[simp] theorem setPc_pc : (setPc v s).pc = BitVec.ofNat 12 v := rfl
@[simp] theorem setPc_ir : (setPc v s).ir = s.ir := rfl
@[simp] theorem setPc_idx : (setPc v s).idx = s.idx := rfl
@[simp] theorem setPc_res : (setPc v s).res = s.res := rfl
@[simp] theorem setPc_cf : (setPc v s).cf = s.cf := rfl
@[simp] theorem setPc_aux : (setPc v s).aux = s.aux := rfl
@[simp] theorem setPc_sw0 : (setPc v s).sw0 = s.sw0 := rfl
@[simp] theorem setPc_sw1 : (setPc v s).sw1 = s.sw1 := rfl
@[simp] theorem setPc_sw2 : (setPc v s).sw2 = s.sw2 := rfl
@[simp] theorem setPc_sw3 : (setPc v s).sw3 = s.sw3 := rfl
@[simp] theorem setPc_iod : (setPc v s).iod = s.iod := rfl
@[simp] theorem setPc_delay : (setPc v s).delay = s.delay := rfl
@[simp] theorem setPc_cfg : (setPc v s).cfg = s.cfg := rfl
@[simp] theorem setPc_status : (setPc v s).status = s.status := rfl
@[simp] theorem setPc_pend : (setPc v s).pend = s.pend := rfl
@[simp] theorem setPc_devices : (setPc v s).devices = s.devices := rfl

end

section
variable (x y : Word) (op : AuxOp) (nr nn fr : Bool) (s : State)

@[simp] theorem drawAux_mem : (drawAux x y op nr nn fr s).mem = s.mem := by
  unfold drawAux; split <;> rfl
@[simp] theorem drawAux_pc : (drawAux x y op nr nn fr s).pc = s.pc := by
  unfold drawAux; split <;> rfl
@[simp] theorem drawAux_ir : (drawAux x y op nr nn fr s).ir = s.ir := by
  unfold drawAux; split <;> rfl
@[simp] theorem drawAux_idx : (drawAux x y op nr nn fr s).idx = s.idx := by
  unfold drawAux; split <;> rfl
@[simp] theorem drawAux_res : (drawAux x y op nr nn fr s).res = s.res := by
  unfold drawAux; split <;> rfl
@[simp] theorem drawAux_cf : (drawAux x y op nr nn fr s).cf = s.cf := by
  unfold drawAux; split <;> rfl
@[simp] theorem drawAux_sw0 : (drawAux x y op nr nn fr s).sw0 = s.sw0 := by
  unfold drawAux; split <;> rfl
@[simp] theorem drawAux_sw1 : (drawAux x y op nr nn fr s).sw1 = s.sw1 := by
  unfold drawAux; split <;> rfl
@[simp] theorem drawAux_sw2 : (drawAux x y op nr nn fr s).sw2 = s.sw2 := by
  unfold drawAux; split <;> rfl
@[simp] theorem drawAux_sw3 : (drawAux x y op nr nn fr s).sw3 = s.sw3 := by
  unfold drawAux; split <;> rfl
@[simp] theorem drawAux_iod : (drawAux x y op nr nn fr s).iod = s.iod := by
  unfold drawAux; split <;> rfl
@[simp] theorem drawAux_delay : (drawAux x y op nr nn fr s).delay = s.delay := by
  unfold drawAux; split <;> rfl
@[simp] theorem drawAux_cfg : (drawAux x y op nr nn fr s).cfg = s.cfg := by
  unfold drawAux; split <;> rfl
@[simp] theorem drawAux_status : (drawAux x y op nr nn fr s).status = s.status := by
  unfold drawAux; split <;> rfl
@[simp] theorem drawAux_pend : (drawAux x y op nr nn fr s).pend = s.pend := by
  unfold drawAux; split <;> rfl
@[simp] theorem drawAux_devices : (drawAux x y op nr nn fr s).devices = s.devices := by
  unfold drawAux; split <;> rfl

end

section
variable (b : Bool) (a : Addr) (s : State)

@[simp] theorem branch_mem : (branch b a s).mem = s.mem := by
  unfold branch; split <;> rfl
@[simp] theorem branch_pc : (branch b a s).pc = if b then a else s.pc := by
  unfold branch; split <;> rfl
@[simp] theorem branch_ir : (branch b a s).ir = s.ir := by
  unfold branch; split <;> rfl
@[simp] theorem branch_idx : (branch b a s).idx = s.idx := by
  unfold branch; split <;> rfl
@[simp] theorem branch_res : (branch b a s).res = s.res := by
  unfold branch; split <;> rfl
@[simp] theorem branch_cf : (branch b a s).cf = s.cf := by
  unfold branch; split <;> rfl
@[simp] theorem branch_aux : (branch b a s).aux = s.aux := by
  unfold branch; split <;> rfl
@[simp] theorem branch_sw0 : (branch b a s).sw0 = s.sw0 := by
  unfold branch; split <;> rfl
@[simp] theorem branch_sw1 : (branch b a s).sw1 = s.sw1 := by
  unfold branch; split <;> rfl
@[simp] theorem branch_sw2 : (branch b a s).sw2 = s.sw2 := by
  unfold branch; split <;> rfl
@[simp] theorem branch_sw3 : (branch b a s).sw3 = s.sw3 := by
  unfold branch; split <;> rfl
@[simp] theorem branch_iod : (branch b a s).iod = s.iod := by
  unfold branch; split <;> rfl
@[simp] theorem branch_delay : (branch b a s).delay = s.delay := by
  unfold branch; split <;> rfl
@[simp] theorem branch_cfg : (branch b a s).cfg = s.cfg := by
  unfold branch; split <;> rfl
@[simp] theorem branch_status : (branch b a s).status = s.status := by
  unfold branch; split <;> rfl
@[simp] theorem branch_pend : (branch b a s).pend = s.pend := by
  unfold branch; split <;> rfl
@[simp] theorem branch_devices : (branch b a s).devices = s.devices := by
  unfold branch; split <;> rfl

end

section
variable (a : Addr) (v : Word) (s : State)

@[simp] theorem memWrite_pc : (memWrite a v s).pc = s.pc := by
  unfold memWrite; split <;> rfl
@[simp] theorem memWrite_res : (memWrite a v s).res = s.res := by
  unfold memWrite; split <;> rfl
@[simp] theorem memWrite_cf : (memWrite a v s).cf = s.cf := by
  unfold memWrite; split <;> rfl
@[simp] theorem memWrite_aux : (memWrite a v s).aux = s.aux := by
  unfold memWrite; split <;> rfl
@[simp] theorem memWrite_sw0 : (memWrite a v s).sw0 = s.sw0 := by
  unfold memWrite; split <;> rfl
@[simp] theorem memWrite_sw1 : (memWrite a v s).sw1 = s.sw1 := by
  unfold memWrite; split <;> rfl
@[simp] theorem memWrite_sw2 : (memWrite a v s).sw2 = s.sw2 := by
  unfold memWrite; split <;> rfl
@[simp] theorem memWrite_sw3 : (memWrite a v s).sw3 = s.sw3 := by
  unfold memWrite; split <;> rfl
@[simp] theorem memWrite_iod : (memWrite a v s).iod = s.iod := by
  unfold memWrite; split <;> rfl
@[simp] theorem memWrite_delay : (memWrite a v s).delay = s.delay := by
  unfold memWrite; split <;> rfl
@[simp] theorem memWrite_cfg : (memWrite a v s).cfg = s.cfg := by
  unfold memWrite; split <;> rfl
@[simp] theorem memWrite_status : (memWrite a v s).status = s.status := by
  unfold memWrite; split <;> rfl
@[simp] theorem memWrite_devices : (memWrite a v s).devices = s.devices := by
  unfold memWrite; split <;> rfl

end

section
variable (s : State)

@[simp] theorem finish_mem : (finish s).mem = s.mem := by
  unfold finish; split
  · split <;> rfl
  · rfl
@[simp] theorem finish_idx : (finish s).idx = s.idx := by
  unfold finish; split
  · split <;> rfl
  · rfl
@[simp] theorem finish_res : (finish s).res = s.res := by
  unfold finish; split
  · split <;> rfl
  · rfl
@[simp] theorem finish_cf : (finish s).cf = s.cf := by
  unfold finish; split
  · split <;> rfl
  · rfl
@[simp] theorem finish_aux : (finish s).aux = s.aux := by
  unfold finish; split
  · split <;> rfl
  · rfl
@[simp] theorem finish_sw0 : (finish s).sw0 = s.sw0 := by
  unfold finish; split
  · split <;> rfl
  · rfl
@[simp] theorem finish_sw1 : (finish s).sw1 = s.sw1 := by
  unfold finish; split
  · split <;> rfl
  · rfl
@[simp] theorem finish_sw2 : (finish s).sw2 = s.sw2 := by
  unfold finish; split
  · split <;> rfl
  · rfl
@[simp] theorem finish_sw3 : (finish s).sw3 = s.sw3 := by
  unfold finish; split
  · split <;> rfl
  · rfl
@[simp] theorem finish_iod : (finish s).iod = s.iod := by
  unfold finish; split
  · split <;> rfl
  · rfl
@[simp] theorem finish_delay : (finish s).delay = s.delay := by
  unfold finish; split
  · split <;> rfl
  · rfl
@[simp] theorem finish_cfg : (finish s).cfg = s.cfg := by
  unfold finish; split
  · split <;> rfl
  · rfl
@[simp] theorem finish_pend : (finish s).pend = s.pend := by
  unfold finish; split
  · split <;> rfl
  · rfl
@[simp] theorem finish_devices : (finish s).devices = s.devices := by
  unfold finish; split
  · split <;> rfl
  · rfl

end

section
variable (a : Addr) (s : State)

@[simp] theorem jumpAfterStore_mem : (jumpAfterStore a s).mem = s.mem := by
  unfold jumpAfterStore; split <;> rfl
@[simp] theorem jumpAfterStore_ir : (jumpAfterStore a s).ir = s.ir := by
  unfold jumpAfterStore; split <;> rfl
@[simp] theorem jumpAfterStore_idx : (jumpAfterStore a s).idx = s.idx := by
  unfold jumpAfterStore; split <;> rfl
@[simp] theorem jumpAfterStore_res : (jumpAfterStore a s).res = s.res := by
  unfold jumpAfterStore; split <;> rfl
@[simp] theorem jumpAfterStore_cf : (jumpAfterStore a s).cf = s.cf := by
  unfold jumpAfterStore; split <;> rfl
@[simp] theorem jumpAfterStore_aux : (jumpAfterStore a s).aux = s.aux := by
  unfold jumpAfterStore; split <;> rfl
@[simp] theorem jumpAfterStore_sw0 : (jumpAfterStore a s).sw0 = s.sw0 := by
  unfold jumpAfterStore; split <;> rfl
@[simp] theorem jumpAfterStore_sw1 : (jumpAfterStore a s).sw1 = s.sw1 := by
  unfold jumpAfterStore; split <;> rfl
@[simp] theorem jumpAfterStore_sw2 : (jumpAfterStore a s).sw2 = s.sw2 := by
  unfold jumpAfterStore; split <;> rfl
@[simp] theorem jumpAfterStore_sw3 : (jumpAfterStore a s).sw3 = s.sw3 := by
  unfold jumpAfterStore; split <;> rfl
@[simp] theorem jumpAfterStore_iod : (jumpAfterStore a s).iod = s.iod := by
  unfold jumpAfterStore; split <;> rfl
@[simp] theorem jumpAfterStore_delay : (jumpAfterStore a s).delay = s.delay := by
  unfold jumpAfterStore; split <;> rfl
@[simp] theorem jumpAfterStore_cfg : (jumpAfterStore a s).cfg = s.cfg := by
  unfold jumpAfterStore; split <;> rfl
@[simp] theorem jumpAfterStore_status : (jumpAfterStore a s).status = s.status := by
  unfold jumpAfterStore; split <;> rfl
@[simp] theorem jumpAfterStore_devices : (jumpAfterStore a s).devices = s.devices := by
  unfold jumpAfterStore; split <;> rfl

end

theorem drawAux_aux_fast (x y : Word) (op : AuxOp) (nr nn fr : Bool) (s : State)
    (h : s.cfg.path = .fastPath) : (drawAux x y op nr nn fr s).aux = s.aux := by
  simp [drawAux, h]

theorem drawAux_aux_exact (x y : Word) (op : AuxOp) (nr nn fr : Bool) (s : State)
    (h : s.cfg.path = .exactPath) :
    (drawAux x y op nr nn fr s).aux = Config.auxDraw x y op nr nn fr := by
  simp [drawAux, h]

end Sys2Proof.Machine
end

