-- ==== Sys2Proof/Laws/Memory.lean ====
section
/-! SUPPORT. The basic laws of the backing store and of the two access primitives: a read after a
write, the cells a write leaves alone, and the canonical form. -/

namespace Sys2Proof.Machine

theorem memGet_eq_unlisted (m : Memory) (a : Nat) (h : ∀ p ∈ m, p.1 ≠ a) :
    memGet m a = unlistedCell := by
  induction m with
  | nil => rfl
  | cons p m ih =>
    obtain ⟨k, v⟩ := p
    have hk : k ≠ a := h (k, v) (by simp)
    simpa [memGet, hk] using ih fun q hq => h q (by simp [hq])

/-- A canonical list holds no address at or below one smaller than its first. -/
theorem memGet_below (m : Memory) (k a : Nat) (hm : ∀ q ∈ m, k < q.1) (ha : a ≤ k) :
    memGet m a = unlistedCell :=
  memGet_eq_unlisted m a fun q hq => by have := hm q hq; omega

/-- Reading the cell that was written gives the value written. -/
theorem memGet_memSet_same (m : Memory) (a v : Nat) (h : m.Pairwise fun p q => p.1 < q.1) :
    memGet (memSet m a v) a = v := by
  induction m with
  | nil =>
    by_cases hv : v = unlistedCell <;> simp [memSet, memGet, hv]
  | cons p m ih =>
    obtain ⟨k, u⟩ := p
    obtain ⟨h1, h2⟩ := List.pairwise_cons.mp h
    unfold memSet
    split_ifs with h3 h4 h5 h6
    · have hk : k ≠ a := by omega
      simp [memGet, hk, h4, memGet_below m k a (fun q hq => h1 q hq) (by omega)]
    · simp [memGet]
    · subst h5
      simp [h6, memGet_below m a a (fun q hq => h1 q hq) le_rfl]
    · simp [memGet]
    · have hk : k ≠ a := fun e => h5 e.symm
      simpa [memGet, hk] using ih h2

/-- Every other cell keeps its value. -/
theorem memGet_memSet_ne (m : Memory) (a b v : Nat) (hab : b ≠ a) :
    memGet (memSet m a v) b = memGet m b := by
  have hab' : a ≠ b := fun e => hab e.symm
  induction m with
  | nil => by_cases hv : v = unlistedCell <;> simp [memSet, memGet, hv, hab']
  | cons p m ih =>
    obtain ⟨k, u⟩ := p
    unfold memSet
    split_ifs with h3 h4 h5 h6
    · rfl
    · simp [memGet, hab']
    · subst h5; simp [memGet, hab']
    · subst h5; simp [memGet, hab']
    · simp [memGet, ih]

theorem mem_memSet (m : Memory) (a v : Nat) (p : Nat × Nat) (h : p ∈ memSet m a v) :
    p ∈ m ∨ (p = (a, v) ∧ v ≠ unlistedCell) := by
  induction m with
  | nil =>
    by_cases hv : v = unlistedCell <;> simp [memSet, hv] at h
    exact .inr ⟨h, hv⟩
  | cons q m ih =>
    obtain ⟨k, u⟩ := q
    unfold memSet at h
    split_ifs at h with h3 h4 h5 h6
    · exact .inl h
    · rcases List.mem_cons.mp h with rfl | h
      · exact .inr ⟨rfl, h4⟩
      · exact .inl h
    · exact .inl (by simp [h])
    · rcases List.mem_cons.mp h with rfl | h
      · exact .inr ⟨rfl, h6⟩
      · exact .inl (by simp [h])
    · rcases List.mem_cons.mp h with rfl | h
      · exact .inl (by simp)
      · rcases ih h with h | h
        · exact .inl (by simp [h])
        · exact .inr h

theorem memSet_sorted (m : Memory) (a v : Nat) (h : m.Pairwise fun p q => p.1 < q.1) :
    (memSet m a v).Pairwise fun p q => p.1 < q.1 := by
  induction m with
  | nil => by_cases hv : v = unlistedCell <;> simp [memSet, hv]
  | cons p m ih =>
    obtain ⟨k, u⟩ := p
    obtain ⟨h1, h2⟩ := List.pairwise_cons.mp h
    unfold memSet
    split_ifs with h3 h4 h5 h6
    · exact h
    · refine List.pairwise_cons.mpr ⟨fun q hq => ?_, h⟩
      rcases List.mem_cons.mp hq with rfl | hq
      · exact h3
      · exact lt_trans h3 (h1 q hq)
    · exact h2
    · exact List.pairwise_cons.mpr ⟨fun q hq => by have := h1 q hq; simp only at this ⊢; omega, h2⟩
    · refine List.pairwise_cons.mpr ⟨fun q hq => ?_, ih h2⟩
      rcases mem_memSet m a v q hq with hq | ⟨rfl, -⟩
      · exact h1 q hq
      · simp only; omega

/-- Storing a value that fits a cell, at an ordinary address, keeps the canonical form. -/
theorem memSet_wf (n w : Nat) (m : Memory) (a v : Nat) (h : memWf n w m) (h1 : 1 ≤ a)
    (h2 : a < n) (h3 : v < 2 ^ w) : memWf n w (memSet m a v) := by
  refine ⟨memSet_sorted m a v h.1, fun p hp => ?_⟩
  rcases mem_memSet m a v p hp with hp | ⟨rfl, hv⟩
  · exact h.2 p hp
  · exact ⟨h1, h2, hv, h3⟩

/-- Memory after reset has the canonical form. -/
theorem reset_mem_wf :
    memWf State.reset.cfg.memWords State.reset.cfg.storeW State.reset.mem := by decide

/-- The reduced address as a number (R30). -/
@[simp] theorem reduceAddr_toNat (cfg : Inputs) (a : Addr) :
    (reduceAddr cfg a).toNat = a.toNat % cfg.memWords := by
  have := lt_of_le_of_lt (Nat.mod_le a.toNat cfg.memWords) a.isLt
  simp [reduceAddr, Nat.mod_eq_of_lt this]

/-- With the whole 12-bit space present, reducing an address changes nothing. -/
theorem reduceAddr_of_le (cfg : Inputs) (a : Addr) (h : 4096 ≤ cfg.memWords) :
    reduceAddr cfg a = a :=
  BitVec.eq_of_toNat_eq (by
    rw [reduceAddr_toNat, Nat.mod_eq_of_lt (lt_of_lt_of_le a.isLt h)])

@[simp] theorem reduceAddr_idem (cfg : Inputs) (a : Addr) :
    reduceAddr cfg (reduceAddr cfg a) = reduceAddr cfg a :=
  BitVec.eq_of_toNat_eq (by simp)

@[simp] theorem reduceAddr_zero (cfg : Inputs) : reduceAddr cfg 0 = 0 :=
  BitVec.eq_of_toNat_eq (by simp)

/-- A reduced address names a word of memory. -/
theorem reduceAddr_lt (cfg : Inputs) (a : Addr) (h : 1 ≤ cfg.memWords) :
    (reduceAddr cfg a).toNat < cfg.memWords := by
  rw [reduceAddr_toNat]
  exact Nat.mod_lt _ h

theorem targetAt_cell (cfg : Inputs) (a : Addr) :
    targetAt cfg a = .cell ↔ a ≠ 0 ∧ overlaid cfg a = false := by
  unfold targetAt
  split_ifs with h1 h2 h3 h4 <;> simp_all

theorem targetAt_instruction (cfg : Inputs) (a : Addr) :
    targetAt cfg a = .instruction ↔ cfg.mmr = .ext ∧ a = 0o7777 := by
  have ha : a = 0o7777 ↔ a.toNat = 0o7777 := by rw [← BitVec.toNat_inj]; rfl
  unfold targetAt overlaid
  constructor
  · split_ifs with h1 h2 h3 h4 <;> simp_all
  · rintro ⟨h1, h2⟩
    subst h2
    simp [h1]

theorem targetAt_index (cfg : Inputs) (a : Addr) :
    targetAt cfg a = .index ↔ cfg.mmr = .ext ∧ a = 0o7776 := by
  have ha : a = 0o7776 ↔ a.toNat = 0o7776 := by rw [← BitVec.toNat_inj]; rfl
  unfold targetAt overlaid
  constructor
  · split_ifs with h1 h2 h3 h4 <;> simp_all
  · rintro ⟨h1, h2⟩
    subst h2
    simp [h1]

/-- Everything a store can do (R36). -/
theorem memWrite_cases (a : Addr) (v : Word) (s : State) :
    (writeTarget s.cfg a = .readOnly ∧ memWrite a v s = s) ∨
    (writeTarget s.cfg a = .index ∧ memWrite a v s = { s with idx := v.extractLsb' 0 12 }) ∨
    (writeTarget s.cfg a = .instruction ∧ memWrite a v s = { s with ir := v, pend := .store }) ∨
    (writeTarget s.cfg a = .cell ∧
      memWrite a v s = { s with mem := memSet s.mem (reduceAddr s.cfg a).toNat v.toNat }) := by
  unfold memWrite
  cases h : writeTarget s.cfg a <;> simp

/-- A store leaves every other cell alone. -/
theorem memGet_memWrite_ne (a : Addr) (v : Word) (s : State) (b : Nat)
    (h : b ≠ (reduceAddr s.cfg a).toNat) : memGet (memWrite a v s).mem b = memGet s.mem b := by
  rcases memWrite_cases a v s with ⟨-, e⟩ | ⟨-, e⟩ | ⟨-, e⟩ | ⟨-, e⟩ <;> rw [e]
  exact memGet_memSet_ne _ _ _ _ h

/-- A store keeps the canonical form of memory. -/
theorem memWrite_wf (a : Addr) (v : Word) (s : State) (h : memWf s.cfg.memWords s.cfg.storeW s.mem)
    (hw : 45 ≤ s.cfg.storeW) (hn : 1 ≤ s.cfg.memWords) :
    memWf s.cfg.memWords s.cfg.storeW (memWrite a v s).mem := by
  rcases memWrite_cases a v s with ⟨-, e⟩ | ⟨-, e⟩ | ⟨-, e⟩ | ⟨c, e⟩ <;> rw [e]
  · exact h
  · exact h
  · exact h
  · have ha := ((targetAt_cell _ _).mp c).1
    have h0 : (reduceAddr s.cfg a).toNat ≠ 0 := fun e0 =>
      ha (BitVec.eq_of_toNat_eq (by rw [e0]; rfl))
    refine memSet_wf _ _ _ _ _ h (Nat.one_le_iff_ne_zero.mpr h0) (reduceAddr_lt _ _ hn) ?_
    exact lt_of_lt_of_le v.isLt (Nat.pow_le_pow_right (by norm_num) hw)

/-- A store that is not to the `IR` overlay leaves no re-execution due. -/
theorem memWrite_pend (a : Addr) (v : Word) (s : State) (h : writeTarget s.cfg a ≠ .instruction) :
    (memWrite a v s).pend = s.pend := by
  rcases memWrite_cases a v s with ⟨-, e⟩ | ⟨-, e⟩ | ⟨c, -⟩ | ⟨-, e⟩
  · rw [e]
  · rw [e]
  · exact absurd c h
  · rw [e]

/-- A store leaves a re-execution due exactly when it is to the `IR` overlay. -/
theorem memWrite_pend_eq (a : Addr) (v : Word) (s : State) :
    (memWrite a v s).pend = .store ∧ writeTarget s.cfg a = .instruction ∨
      (memWrite a v s).pend = s.pend ∧ writeTarget s.cfg a ≠ .instruction := by
  rcases memWrite_cases a v s with ⟨c, e⟩ | ⟨c, e⟩ | ⟨c, e⟩ | ⟨c, e⟩ <;> simp [e, c]

/-- Everything a read at a reduced address can do (R33, R40). -/
theorem memReadAt_cases (s : State) (a : Addr) :
    (a = 0 ∧ memReadAt s a = some 0) ∨
    (a ≠ 0 ∧ overlaid s.cfg a = true ∧ memReadAt s a = some (overlayRead s a)) ∨
    (a ≠ 0 ∧ overlaid s.cfg a = false ∧
      (s.cfg.memcheck = false ∨ memGet s.mem a.toNat < 2 ^ 45) ∧
      memReadAt s a = some (BitVec.ofNat 45 (memGet s.mem a.toNat))) ∨
    (a ≠ 0 ∧ overlaid s.cfg a = false ∧ s.cfg.memcheck = true ∧
      2 ^ 45 ≤ memGet s.mem a.toNat ∧ memReadAt s a = none) := by
  unfold memReadAt
  split_ifs with h1 h2 h3
  · exact .inl ⟨h1, rfl⟩
  · exact .inr (.inl ⟨h1, h2, rfl⟩)
  · simp only [Bool.and_eq_true, decide_eq_true_eq] at h3
    exact .inr (.inr (.inr ⟨h1, by simpa using h2, h3.1, h3.2, rfl⟩))
  · refine .inr (.inr (.inl ⟨h1, by simpa using h2, ?_, rfl⟩))
    rcases Bool.eq_false_or_eq_true s.cfg.memcheck with h | h
    · simp only [h, Bool.true_and, decide_eq_true_eq, not_le] at h3
      exact .inr h3
    · exact .inl h

/-- Everything an operand read can do, `a` reduced first (R30, R33, R40). -/
theorem memRead_cases (s : State) (a b : Addr) (hb : reduceAddr s.cfg a = b) :
    (b = 0 ∧ memRead s a = some 0) ∨
    (b ≠ 0 ∧ overlaid s.cfg b = true ∧ memRead s a = some (overlayRead s b)) ∨
    (b ≠ 0 ∧ overlaid s.cfg b = false ∧
      (s.cfg.memcheck = false ∨ memGet s.mem b.toNat < 2 ^ 45) ∧
      memRead s a = some (BitVec.ofNat 45 (memGet s.mem b.toNat))) ∨
    (b ≠ 0 ∧ overlaid s.cfg b = false ∧ s.cfg.memcheck = true ∧
      2 ^ 45 ≤ memGet s.mem b.toNat ∧ memRead s a = none) := by
  subst hb
  exact memReadAt_cases s _

end Sys2Proof.Machine
end

