-- ==== Sys2Proof/Laws/Ops.lean ====
section
/-! SUPPORT. What each shared operation can answer, said once: the operand reads, the arithmetic
families, the tails, the nested re-execution and the controller's step. -/

namespace Sys2Proof.Machine

theorem withRead_some (a : Addr) (s : State) (k : Word → Result) (w : Word)
    (h : memRead s a = some w) : withRead a s k = k w := by simp [withRead, h]

theorem withRead_none (a : Addr) (s : State) (k : Word → Result) (h : memRead s a = none) :
    withRead a s k = raise .memCorrupt s := by simp [withRead, h]

/-- An instruction that reads an operand and answers: either the read raised, or the rest answered. -/
theorem withRead_next {a : Addr} {s t : State} {k : Word → Result} (h : withRead a s k = .next t) :
    (memRead s a = none ∧ t = { s with status := .memCorrupt }) ∨
      ∃ w, memRead s a = some w ∧ k w = .next t := by
  cases hr : memRead s a with
  | none =>
    rw [withRead_none _ _ _ hr] at h
    exact .inl ⟨rfl, by simpa [raise] using h.symm⟩
  | some w =>
    rw [withRead_some _ _ _ _ hr] at h
    exact .inr ⟨w, rfl, h⟩

theorem andThen_next {r : Result} {k : State → Result} {t : State} (h : andThen r k = .next t) :
    ∃ u, r = .next u ∧ k u = .next t := by
  cases r with
  | next u => exact ⟨u, rfl, h⟩
  | fault f => cases f
  | refused x => cases h

@[simp] theorem andThen_of_next (u : State) (k : State → Result) : andThen (.next u) k = k u := rfl

@[simp] theorem andThen_of_refused (x : Refusal) (k : State → Result) :
    andThen (.refused x) k = .refused x := rfl

/-- What an addition-family instruction can answer (R100). -/
theorem addFamily_next {op : AddOp} {nr nn : Bool} {a1 a2 a3 : Operand} {s t : State}
    (h : addFamily op nr nn a1 a2 a3 s = .next t) :
    (∃ st, st ≠ .ok ∧ t = { s with status := st }) ∨
      ∃ x y r, memRead s (effAddr a1 s) = some x ∧ memRead s (effAddr a2 s) = some y ∧
        addsub op nr nn (forceRound x y) x y = .ok r ∧
        t = memWrite (effAddr a3 s) r
          { drawAux x y (auxOpOf op) nr nn (forceRound x y) s with
            res := r, cf := signFlag r, status := .ok } := by
  rcases withRead_next h with ⟨-, e⟩ | ⟨x, hx, h⟩
  · exact .inl ⟨_, by decide, e⟩
  rcases withRead_next h with ⟨-, e⟩ | ⟨y, hy, h⟩
  · exact .inl ⟨_, by decide, e⟩
  cases hr : addsub op nr nn (forceRound x y) x y with
  | error st =>
    simp only [hr, raise, Host.Outcome.next.injEq] at h
    refine .inl ⟨st, ?_, h.symm⟩
    unfold addsub at hr
    simp only at hr
    split_ifs at hr
    cases hr
    decide
  | ok r =>
    simp only [hr, arithFinish, Host.Outcome.next.injEq] at h
    exact .inr ⟨x, y, r, hx, hy, hr, h.symm⟩

/-- What a MUL can answer (R116). -/
theorem mulFamily_next {nr nn : Bool} {a1 a2 a3 : Operand} {s t : State}
    (h : mulFamily nr nn a1 a2 a3 s = .next t) :
    (∃ st, st ≠ .ok ∧ t = { s with status := st }) ∨
      ∃ x y r low, memRead s (effAddr a1 s) = some x ∧ memRead s (effAddr a2 s) = some y ∧
        mulUnit nr nn x y = .ok (r, low) ∧
        t = memWrite (effAddr a3 s) r
          { s with aux := low, res := r, cf := signFlag r, status := .ok } := by
  rcases withRead_next h with ⟨-, e⟩ | ⟨x, hx, h⟩
  · exact .inl ⟨_, by decide, e⟩
  rcases withRead_next h with ⟨-, e⟩ | ⟨y, hy, h⟩
  · exact .inl ⟨_, by decide, e⟩
  cases hr : mulUnit nr nn x y with
  | error st =>
    simp only [hr, raise, Host.Outcome.next.injEq] at h
    refine .inl ⟨st, ?_, h.symm⟩
    unfold mulUnit at hr
    simp only at hr
    split_ifs at hr
    cases hr
    decide
  | ok p =>
    obtain ⟨r, low⟩ := p
    simp only [hr, arithFinish, Host.Outcome.next.injEq] at h
    exact .inr ⟨x, y, r, low, hx, hy, hr, h.symm⟩

/-- What a DIV can answer (R130). -/
theorem divFamily_next {nr : Bool} {a1 a2 a3 : Operand} {s t : State}
    (h : divFamily nr a1 a2 a3 s = .next t) :
    (∃ st, st ≠ .ok ∧ t = { s with status := st }) ∨
      ∃ x y r, memRead s (effAddr a1 s) = some x ∧ memRead s (effAddr a2 s) = some y ∧
        divUnit nr x y = .ok r ∧
        t = memWrite (effAddr a3 s) r
          { drawAux x y .div nr false false s with
            res := r, cf := signFlag r, status := .ok } := by
  rcases withRead_next h with ⟨-, e⟩ | ⟨x, hx, h⟩
  · exact .inl ⟨_, by decide, e⟩
  rcases withRead_next h with ⟨-, e⟩ | ⟨y, hy, h⟩
  · exact .inl ⟨_, by decide, e⟩
  cases hr : divUnit nr x y with
  | error st =>
    simp only [hr, raise, Host.Outcome.next.injEq] at h
    refine .inl ⟨st, ?_, h.symm⟩
    unfold divUnit at hr
    simp only at hr
    split_ifs at hr <;> cases hr <;> decide
  | ok r =>
    simp only [hr, arithFinish, Host.Outcome.next.injEq] at h
    exact .inr ⟨x, y, r, hx, hy, hr, h.symm⟩

/-- What a SQRT can answer (R138). -/
theorem sqrtFamily_next {nr : Bool} {a1 a3 : Operand} {s t : State}
    (h : sqrtFamily nr a1 a3 s = .next t) :
    (∃ st, st ≠ .ok ∧ t = { s with status := st }) ∨
      ∃ x r, memRead s (effAddr a1 s) = some x ∧ sqrtUnit nr x = .ok r ∧
        t = memWrite (effAddr a3 s) r
          { drawAux x 0 .sqrt nr false false s with
            res := r, cf := signFlag r, status := .ok } := by
  rcases withRead_next h with ⟨-, e⟩ | ⟨x, hx, h⟩
  · exact .inl ⟨_, by decide, e⟩
  cases hr : sqrtUnit nr x with
  | error st =>
    simp only [hr, raise, Host.Outcome.next.injEq] at h
    refine .inl ⟨st, ?_, h.symm⟩
    unfold sqrtUnit at hr
    simp only at hr
    split_ifs at hr <;> cases hr <;> decide
  | ok r =>
    simp only [hr, arithFinish, Host.Outcome.next.injEq] at h
    exact .inr ⟨x, r, hx, hr, h.symm⟩

/-- What an exponent instruction's tail can answer (R146). -/
theorem expFinish_next {nn : Bool} {x : Word} {e : Int} {tg : Bool} {dest : Addr} {s t : State}
    (h : expFinish nn x e tg dest s = .next t) :
    t = { s with status := .addOvf } ∨
      ∃ r, expUnit nn (signOf x) e (mantOf x) tg = .ok r ∧
        t = memWrite dest r { s with res := r, cf := signFlag r, status := .ok } := by
  unfold expFinish at h
  cases hr : expUnit nn (signOf x) e (mantOf x) tg with
  | error st =>
    simp only [hr, raise, Host.Outcome.next.injEq] at h
    unfold expUnit at hr
    split_ifs at hr; cases hr
    exact .inl h.symm
  | ok r =>
    simp only [hr, arithFinish, Host.Outcome.next.injEq] at h
    exact .inr ⟨r, rfl, h.symm⟩

/-- What an exponent instruction with an immediate can answer (R147, R148). -/
theorem expImmediate_next {sb nn : Bool} {a1 a2 a3 : Operand} {s t : State}
    (h : expImmediate sb nn a1 a2 a3 s = .next t) :
    (∃ st, st ≠ .ok ∧ t = { s with status := st }) ∨
      ∃ r, t = memWrite (effAddr a3 s) r { s with res := r, cf := signFlag r, status := .ok } := by
  rcases withRead_next h with ⟨-, e⟩ | ⟨x, hx, h⟩
  · exact .inl ⟨_, by decide, e⟩
  rcases expFinish_next h with e | ⟨r, -, e⟩
  · exact .inl ⟨_, by decide, e⟩
  · exact .inr ⟨r, e⟩

/-- What an exponent instruction on two operands can answer (R149, R150). -/
theorem expOperand_next {sb nn : Bool} {a1 a2 a3 : Operand} {s t : State}
    (h : expOperand sb nn a1 a2 a3 s = .next t) :
    (∃ st, st ≠ .ok ∧ t = { s with status := st }) ∨
      ∃ r, t = memWrite (effAddr a3 s) r { s with res := r, cf := signFlag r, status := .ok } := by
  rcases withRead_next h with ⟨-, e⟩ | ⟨z, hz, h⟩
  · exact .inl ⟨_, by decide, e⟩
  rcases withRead_next h with ⟨-, e⟩ | ⟨x, hx, h⟩
  · exact .inl ⟨_, by decide, e⟩
  rcases expFinish_next h with e | ⟨r, -, e⟩
  · exact .inl ⟨_, by decide, e⟩
  · exact .inr ⟨r, e⟩

/-- What a code/logical instruction on two operands can answer (R156). -/
theorem logBinary_next {f : Word → Word → Word} {a1 a2 a3 : Operand} {s t : State}
    (h : logBinary f a1 a2 a3 s = .next t) :
    t = { s with status := .memCorrupt } ∨
      ∃ x y, memRead s (effAddr a1 s) = some x ∧ memRead s (effAddr a2 s) = some y ∧
        t = memWrite (effAddr a3 s) (f x y)
          { s with res := f x y, cf := zeroFlag (f x y), status := .ok } := by
  rcases withRead_next h with ⟨-, e⟩ | ⟨x, hx, h⟩
  · exact .inl e
  rcases withRead_next h with ⟨-, e⟩ | ⟨y, hy, h⟩
  · exact .inl e
  simp only [logFinish, Host.Outcome.next.injEq] at h
  exact .inr ⟨x, y, hx, hy, h.symm⟩

/-- What a code/logical instruction on an immediate can answer (R156). -/
theorem logImmediate_next {f : Addr → Word → Word} {a1 a2 a3 : Operand} {s t : State}
    (h : logImmediate f a1 a2 a3 s = .next t) :
    t = { s with status := .memCorrupt } ∨
      ∃ x, memRead s (effAddr a2 s) = some x ∧
        t = memWrite (effAddr a3 s) (f (effAddr a1 s) x)
          { s with
            res := f (effAddr a1 s) x, cf := zeroFlag (f (effAddr a1 s) x), status := .ok } := by
  rcases withRead_next h with ⟨-, e⟩ | ⟨x, hx, h⟩
  · exact .inl e
  simp only [logFinish, Host.Outcome.next.injEq] at h
  exact .inr ⟨x, hx, h.symm⟩

/-- Everything the bookkeeping of a status can do (R226). -/
theorem finish_cases (s : State) :
    (rollsBack s.status = false ∧ finish s = s) ∨
    (rollsBack s.status = true ∧ ∃ w, memRead s (s.pc - 1) = some w ∧
      finish s = { s with pc := s.pc - 1, ir := w }) ∨
    (rollsBack s.status = true ∧ memRead s (s.pc - 1) = none ∧
      finish s = { s with pc := s.pc - 1, status := .memCorrupt }) := by
  unfold finish
  cases h : rollsBack s.status with
  | false => exact .inl ⟨rfl, by simp⟩
  | true =>
    cases hr : memRead s (s.pc - 1) with
    | none => exact .inr (.inr ⟨rfl, rfl, by simp⟩)
    | some w => exact .inr (.inl ⟨rfl, w, rfl, by simp⟩)

theorem settle_idle (re : State → Result) (s : State) (h : s.pend = .idle) :
    settle re s = .next s := by simp [settle, h]

theorem settle_store (re : State → Result) (s : State) (h : s.pend = .store) :
    settle re s = re { s with pend := .idle } := by simp [settle, rerun, h]

theorem execute_succ (n : Nat) (w : Word) (s : State) :
    execute (n + 1) w s =
      andThen (exec (decodeWith s.cfg.opmap w) (chargeDelay (opcOf w) s))
        (settle fun t => execute n t.ir t) := rfl

/-- An executed instruction that leaves no re-execution due is `exec` of the decoded word. -/
theorem execute_of_idle (n : Nat) (w : Word) (s t : State)
    (h : exec (decodeWith s.cfg.opmap w) (chargeDelay (opcOf w) s) = .next t) (hp : t.pend = .idle) :
    execute (n + 1) w s = .next t := by
  rw [execute_succ, h, andThen_of_next, settle_idle _ _ hp]

theorem stepOnce_none (s : State) (h : memRead s s.pc = none) :
    stepOnce s = .next { s with pend := .idle, status := .memCorrupt } := by
  simp [stepOnce, h, raise]

theorem stepOnce_some (s : State) (w : Word) (h : memRead s s.pc = some w) :
    stepOnce s =
      andThen (execute Config.reexecLimit w (fetched w s)) fun t => .next (finish t) := by
  simp [stepOnce, h]

end Sys2Proof.Machine
end

