-- ==== Sys2Proof/Laws/PerInstr.lean ====
section
/-! SUPPORT. Statements made once per instruction. `OpcodeField`: the opcode field of an instruction's
word is the opcode the table gives it (R51, R56, R60). -/

namespace Sys2Proof.Laws.OpcodeField

/-- Bits 41:36 of the encoded instruction hold its opcode. -/
def Statement (i : Instr) : Prop := opcOf (encode i) = opcodeOf i

theorem of_any (i : Instr) : Statement i := opcOf_ipack _ _ _ _ _

theorem mov (a1 a2 a3 : Operand) : Statement (.mov a1 a2 a3) := of_any _
theorem add (a1 a2 a3 : Operand) : Statement (.add a1 a2 a3) := of_any _
theorem sub (a1 a2 a3 : Operand) : Statement (.sub a1 a2 a3) := of_any _
theorem subabs (a1 a2 a3 : Operand) : Statement (.subabs a1 a2 a3) := of_any _
theorem div (a1 a2 a3 : Operand) : Statement (.div a1 a2 a3) := of_any _
theorem mul (a1 a2 a3 : Operand) : Statement (.mul a1 a2 a3) := of_any _
theorem expaddi (a1 a2 a3 : Operand) : Statement (.expaddi a1 a2 a3) := of_any _
theorem lowprod (a1 a2 a3 : Operand) : Statement (.lowprod a1 a2 a3) := of_any _
theorem expadd (a1 a2 a3 : Operand) : Statement (.expadd a1 a2 a3) := of_any _
theorem looplt (a1 a2 a3 : Operand) : Statement (.looplt a1 a2 a3) := of_any _
theorem cycadd (a1 a2 a3 : Operand) : Statement (.cycadd a1 a2 a3) := of_any _
theorem adda (a1 a2 a3 : Operand) : Statement (.adda a1 a2 a3) := of_any _
theorem shmi (a1 a2 a3 : Operand) : Statement (.shmi a1 a2 a3) := of_any _
theorem xor (a1 a2 a3 : Operand) : Statement (.xor a1 a2 a3) := of_any _
theorem jsr (a1 a2 a3 : Operand) : Statement (.jsr a1 a2 a3) := of_any _
theorem halt (a1 a2 a3 : Operand) : Statement (.halt a1 a2 a3) := of_any _
theorem rdsw (a1 a2 a3 : Operand) : Statement (.rdsw a1 a2 a3) := of_any _
theorem addNr (a1 a2 a3 : Operand) : Statement (.addNr a1 a2 a3) := of_any _
theorem subNr (a1 a2 a3 : Operand) : Statement (.subNr a1 a2 a3) := of_any _
theorem subabsNr (a1 a2 a3 : Operand) : Statement (.subabsNr a1 a2 a3) := of_any _
theorem divNr (a1 a2 a3 : Operand) : Statement (.divNr a1 a2 a3) := of_any _
theorem mulNr (a1 a2 a3 : Operand) : Statement (.mulNr a1 a2 a3) := of_any _
theorem expsubi (a1 a2 a3 : Operand) : Statement (.expsubi a1 a2 a3) := of_any _
theorem lowprod027 (a1 a2 a3 : Operand) : Statement (.lowprod027 a1 a2 a3) := of_any _
theorem expsub (a1 a2 a3 : Operand) : Statement (.expsub a1 a2 a3) := of_any _
theorem loopge (a1 a2 a3 : Operand) : Statement (.loopge a1 a2 a3) := of_any _
theorem cycsub (a1 a2 a3 : Operand) : Statement (.cycsub a1 a2 a3) := of_any _
theorem suba (a1 a2 a3 : Operand) : Statement (.suba a1 a2 a3) := of_any _
theorem shwi (a1 a2 a3 : Operand) : Statement (.shwi a1 a2 a3) := of_any _
theorem xorchk (a1 a2 a3 : Operand) : Statement (.xorchk a1 a2 a3) := of_any _
theorem jc (a1 a2 a3 : Operand) : Statement (.jc a1 a2 a3) := of_any _
theorem halt2 (a1 a2 a3 : Operand) : Statement (.halt2 a1 a2 a3) := of_any _
theorem rot (a1 a2 a3 : Operand) : Statement (.rot a1 a2 a3) := of_any _
theorem addNn (a1 a2 a3 : Operand) : Statement (.addNn a1 a2 a3) := of_any _
theorem subNn (a1 a2 a3 : Operand) : Statement (.subNn a1 a2 a3) := of_any _
theorem subabsNn (a1 a2 a3 : Operand) : Statement (.subabsNn a1 a2 a3) := of_any _
theorem sqrt (a1 a2 a3 : Operand) : Statement (.sqrt a1 a2 a3) := of_any _
theorem mulNn (a1 a2 a3 : Operand) : Statement (.mulNn a1 a2 a3) := of_any _
theorem expaddiNn (a1 a2 a3 : Operand) : Statement (.expaddiNn a1 a2 a3) := of_any _
theorem lowprodNn (a1 a2 a3 : Operand) : Statement (.lowprodNn a1 a2 a3) := of_any _
theorem expaddNn (a1 a2 a3 : Operand) : Statement (.expaddNn a1 a2 a3) := of_any _
theorem loopltf (a1 a2 a3 : Operand) : Statement (.loopltf a1 a2 a3) := of_any _
theorem iosetup (a1 a2 a3 : Operand) : Statement (.iosetup a1 a2 a3) := of_any _
theorem addo (a1 a2 a3 : Operand) : Statement (.addo a1 a2 a3) := of_any _
theorem shme (a1 a2 a3 : Operand) : Statement (.shme a1 a2 a3) := of_any _
theorem and (a1 a2 a3 : Operand) : Statement (.and a1 a2 a3) := of_any _
theorem jmp (a1 a2 a3 : Operand) : Statement (.jmp a1 a2 a3) := of_any _
theorem reserved057 (a1 a2 a3 : Operand) : Statement (.reserved057 a1 a2 a3) := of_any _
theorem addrform (a1 a2 a3 : Operand) : Statement (.addrform a1 a2 a3) := of_any _
theorem addNrNn (a1 a2 a3 : Operand) : Statement (.addNrNn a1 a2 a3) := of_any _
theorem subNrNn (a1 a2 a3 : Operand) : Statement (.subNrNn a1 a2 a3) := of_any _
theorem subabsNrNn (a1 a2 a3 : Operand) : Statement (.subabsNrNn a1 a2 a3) := of_any _
theorem sqrtNr (a1 a2 a3 : Operand) : Statement (.sqrtNr a1 a2 a3) := of_any _
theorem mulNrNn (a1 a2 a3 : Operand) : Statement (.mulNrNn a1 a2 a3) := of_any _
theorem expsubiNn (a1 a2 a3 : Operand) : Statement (.expsubiNn a1 a2 a3) := of_any _
theorem lowprodNn067 (a1 a2 a3 : Operand) : Statement (.lowprodNn067 a1 a2 a3) := of_any _
theorem expsubNn (a1 a2 a3 : Operand) : Statement (.expsubNn a1 a2 a3) := of_any _
theorem loopgef (a1 a2 a3 : Operand) : Statement (.loopgef a1 a2 a3) := of_any _
theorem ioexec (a1 a2 a3 : Operand) : Statement (.ioexec a1 a2 a3) := of_any _
theorem subo (a1 a2 a3 : Operand) : Statement (.subo a1 a2 a3) := of_any _
theorem shwe (a1 a2 a3 : Operand) : Statement (.shwe a1 a2 a3) := of_any _
theorem or (a1 a2 a3 : Operand) : Statement (.or a1 a2 a3) := of_any _
theorem jnc (a1 a2 a3 : Operand) : Statement (.jnc a1 a2 a3) := of_any _
theorem reserved077 (a1 a2 a3 : Operand) : Statement (.reserved077 a1 a2 a3) := of_any _

end Sys2Proof.Laws.OpcodeField
end

