-- ==== Sys2Proof/Tests/Slice0.lean ====
section
/-! SUPPORT. The model's own tests: well-formedness, decoding of words written out from the octal layout
of R51, single steps with results taken from spec/95_test_vectors.md (the vector's name is in the
docstring; "by hand" where the results are worked out from a rule), and one witness for each
obligation with hypotheses. -/

namespace Sys2Proof.Tests

set_option Elab.async false

open Sys2Proof.Machine
open Sys2Proof.Claims

/-! ### Well-formedness -/

theorem test_reserved057_is_refused (a1 a2 a3 : Operand) :
    wellFormed (.reserved057 a1 a2 a3) = false := rfl

theorem test_reserved077_is_refused (a1 a2 a3 : Operand) :
    wellFormed (.reserved077 a1 a2 a3) = false := rfl

theorem test_tagged_add_is_well_formed :
    wellFormed (.add ⟨true, 0o7777⟩ ⟨true, 0o7777⟩ ⟨true, 0o7777⟩) = true := by decide

/-! ### Decoding: for each row of the opcode table a word `T OO AAAA BBBB CCCC`, octal digit by digit -/

theorem test_decode_mov : decodeTableWord 45 0o500001245677001 =
    some (.mov ⟨true, 0o0012⟩ ⟨false, 0o4567⟩ ⟨true, 0o7001⟩) := by decide

theorem test_decode_add : decodeTableWord 45 0o201456770010012 =
    some (.add ⟨false, 0o4567⟩ ⟨true, 0o7001⟩ ⟨false, 0o0012⟩) := by decide

theorem test_decode_sub : decodeTableWord 45 0o402700100124567 =
    some (.sub ⟨true, 0o7001⟩ ⟨false, 0o0012⟩ ⟨false, 0o4567⟩) := by decide

theorem test_decode_subabs : decodeTableWord 45 0o103001245677001 =
    some (.subabs ⟨false, 0o0012⟩ ⟨false, 0o4567⟩ ⟨true, 0o7001⟩) := by decide

theorem test_decode_div : decodeTableWord 45 0o604456770010012 =
    some (.div ⟨true, 0o4567⟩ ⟨true, 0o7001⟩ ⟨false, 0o0012⟩) := by decide

theorem test_decode_mul : decodeTableWord 45 0o305700100124567 =
    some (.mul ⟨false, 0o7001⟩ ⟨true, 0o0012⟩ ⟨true, 0o4567⟩) := by decide

theorem test_decode_expaddi : decodeTableWord 45 0o706001245677001 =
    some (.expaddi ⟨true, 0o0012⟩ ⟨true, 0o4567⟩ ⟨true, 0o7001⟩) := by decide

theorem test_decode_lowprod : decodeTableWord 45 0o007456770010012 =
    some (.lowprod ⟨false, 0o4567⟩ ⟨false, 0o7001⟩ ⟨false, 0o0012⟩) := by decide

theorem test_decode_expadd : decodeTableWord 45 0o510700100124567 =
    some (.expadd ⟨true, 0o7001⟩ ⟨false, 0o0012⟩ ⟨true, 0o4567⟩) := by decide

theorem test_decode_looplt : decodeTableWord 45 0o211001245677001 =
    some (.looplt ⟨false, 0o0012⟩ ⟨true, 0o4567⟩ ⟨false, 0o7001⟩) := by decide

theorem test_decode_cycadd : decodeTableWord 45 0o412456770010012 =
    some (.cycadd ⟨true, 0o4567⟩ ⟨false, 0o7001⟩ ⟨false, 0o0012⟩) := by decide

theorem test_decode_adda : decodeTableWord 45 0o113700100124567 =
    some (.adda ⟨false, 0o7001⟩ ⟨false, 0o0012⟩ ⟨true, 0o4567⟩) := by decide

theorem test_decode_shmi : decodeTableWord 45 0o614001245677001 =
    some (.shmi ⟨true, 0o0012⟩ ⟨true, 0o4567⟩ ⟨false, 0o7001⟩) := by decide

theorem test_decode_xor : decodeTableWord 45 0o315456770010012 =
    some (.xor ⟨false, 0o4567⟩ ⟨true, 0o7001⟩ ⟨true, 0o0012⟩) := by decide

theorem test_decode_jsr : decodeTableWord 45 0o716700100124567 =
    some (.jsr ⟨true, 0o7001⟩ ⟨true, 0o0012⟩ ⟨true, 0o4567⟩) := by decide

theorem test_decode_halt : decodeTableWord 45 0o017001245677001 =
    some (.halt ⟨false, 0o0012⟩ ⟨false, 0o4567⟩ ⟨false, 0o7001⟩) := by decide

theorem test_decode_rdsw : decodeTableWord 45 0o520456770010012 =
    some (.rdsw ⟨true, 0o4567⟩ ⟨false, 0o7001⟩ ⟨true, 0o0012⟩) := by decide

theorem test_decode_addNr : decodeTableWord 45 0o221700100124567 =
    some (.addNr ⟨false, 0o7001⟩ ⟨true, 0o0012⟩ ⟨false, 0o4567⟩) := by decide

theorem test_decode_subNr : decodeTableWord 45 0o422001245677001 =
    some (.subNr ⟨true, 0o0012⟩ ⟨false, 0o4567⟩ ⟨false, 0o7001⟩) := by decide

theorem test_decode_subabsNr : decodeTableWord 45 0o123456770010012 =
    some (.subabsNr ⟨false, 0o4567⟩ ⟨false, 0o7001⟩ ⟨true, 0o0012⟩) := by decide

theorem test_decode_divNr : decodeTableWord 45 0o624700100124567 =
    some (.divNr ⟨true, 0o7001⟩ ⟨true, 0o0012⟩ ⟨false, 0o4567⟩) := by decide

theorem test_decode_mulNr : decodeTableWord 45 0o325001245677001 =
    some (.mulNr ⟨false, 0o0012⟩ ⟨true, 0o4567⟩ ⟨true, 0o7001⟩) := by decide

theorem test_decode_expsubi : decodeTableWord 45 0o726456770010012 =
    some (.expsubi ⟨true, 0o4567⟩ ⟨true, 0o7001⟩ ⟨true, 0o0012⟩) := by decide

theorem test_decode_lowprod027 : decodeTableWord 45 0o027700100124567 =
    some (.lowprod027 ⟨false, 0o7001⟩ ⟨false, 0o0012⟩ ⟨false, 0o4567⟩) := by decide

theorem test_decode_expsub : decodeTableWord 45 0o530001245677001 =
    some (.expsub ⟨true, 0o0012⟩ ⟨false, 0o4567⟩ ⟨true, 0o7001⟩) := by decide

theorem test_decode_loopge : decodeTableWord 45 0o231456770010012 =
    some (.loopge ⟨false, 0o4567⟩ ⟨true, 0o7001⟩ ⟨false, 0o0012⟩) := by decide

theorem test_decode_cycsub : decodeTableWord 45 0o432700100124567 =
    some (.cycsub ⟨true, 0o7001⟩ ⟨false, 0o0012⟩ ⟨false, 0o4567⟩) := by decide

theorem test_decode_suba : decodeTableWord 45 0o133001245677001 =
    some (.suba ⟨false, 0o0012⟩ ⟨false, 0o4567⟩ ⟨true, 0o7001⟩) := by decide

theorem test_decode_shwi : decodeTableWord 45 0o634456770010012 =
    some (.shwi ⟨true, 0o4567⟩ ⟨true, 0o7001⟩ ⟨false, 0o0012⟩) := by decide

theorem test_decode_xorchk : decodeTableWord 45 0o335700100124567 =
    some (.xorchk ⟨false, 0o7001⟩ ⟨true, 0o0012⟩ ⟨true, 0o4567⟩) := by decide

theorem test_decode_jc : decodeTableWord 45 0o736001245677001 =
    some (.jc ⟨true, 0o0012⟩ ⟨true, 0o4567⟩ ⟨true, 0o7001⟩) := by decide

theorem test_decode_halt2 : decodeTableWord 45 0o037456770010012 =
    some (.halt2 ⟨false, 0o4567⟩ ⟨false, 0o7001⟩ ⟨false, 0o0012⟩) := by decide

theorem test_decode_rot : decodeTableWord 45 0o540700100124567 =
    some (.rot ⟨true, 0o7001⟩ ⟨false, 0o0012⟩ ⟨true, 0o4567⟩) := by decide

theorem test_decode_addNn : decodeTableWord 45 0o241001245677001 =
    some (.addNn ⟨false, 0o0012⟩ ⟨true, 0o4567⟩ ⟨false, 0o7001⟩) := by decide

theorem test_decode_subNn : decodeTableWord 45 0o442456770010012 =
    some (.subNn ⟨true, 0o4567⟩ ⟨false, 0o7001⟩ ⟨false, 0o0012⟩) := by decide

theorem test_decode_subabsNn : decodeTableWord 45 0o143700100124567 =
    some (.subabsNn ⟨false, 0o7001⟩ ⟨false, 0o0012⟩ ⟨true, 0o4567⟩) := by decide

theorem test_decode_sqrt : decodeTableWord 45 0o644001245677001 =
    some (.sqrt ⟨true, 0o0012⟩ ⟨true, 0o4567⟩ ⟨false, 0o7001⟩) := by decide

theorem test_decode_mulNn : decodeTableWord 45 0o345456770010012 =
    some (.mulNn ⟨false, 0o4567⟩ ⟨true, 0o7001⟩ ⟨true, 0o0012⟩) := by decide

theorem test_decode_expaddiNn : decodeTableWord 45 0o746700100124567 =
    some (.expaddiNn ⟨true, 0o7001⟩ ⟨true, 0o0012⟩ ⟨true, 0o4567⟩) := by decide

theorem test_decode_lowprodNn : decodeTableWord 45 0o047001245677001 =
    some (.lowprodNn ⟨false, 0o0012⟩ ⟨false, 0o4567⟩ ⟨false, 0o7001⟩) := by decide

theorem test_decode_expaddNn : decodeTableWord 45 0o550456770010012 =
    some (.expaddNn ⟨true, 0o4567⟩ ⟨false, 0o7001⟩ ⟨true, 0o0012⟩) := by decide

theorem test_decode_loopltf : decodeTableWord 45 0o251700100124567 =
    some (.loopltf ⟨false, 0o7001⟩ ⟨true, 0o0012⟩ ⟨false, 0o4567⟩) := by decide

theorem test_decode_iosetup : decodeTableWord 45 0o452001245677001 =
    some (.iosetup ⟨true, 0o0012⟩ ⟨false, 0o4567⟩ ⟨false, 0o7001⟩) := by decide

theorem test_decode_addo : decodeTableWord 45 0o153456770010012 =
    some (.addo ⟨false, 0o4567⟩ ⟨false, 0o7001⟩ ⟨true, 0o0012⟩) := by decide

theorem test_decode_shme : decodeTableWord 45 0o654700100124567 =
    some (.shme ⟨true, 0o7001⟩ ⟨true, 0o0012⟩ ⟨false, 0o4567⟩) := by decide

theorem test_decode_and : decodeTableWord 45 0o355001245677001 =
    some (.and ⟨false, 0o0012⟩ ⟨true, 0o4567⟩ ⟨true, 0o7001⟩) := by decide

theorem test_decode_jmp : decodeTableWord 45 0o756456770010012 =
    some (.jmp ⟨true, 0o4567⟩ ⟨true, 0o7001⟩ ⟨true, 0o0012⟩) := by decide

theorem test_decode_reserved057 : decodeTableWord 45 0o057700100124567 =
    some (.reserved057 ⟨false, 0o7001⟩ ⟨false, 0o0012⟩ ⟨false, 0o4567⟩) := by decide

theorem test_decode_addrform : decodeTableWord 45 0o560001245677001 =
    some (.addrform ⟨true, 0o0012⟩ ⟨false, 0o4567⟩ ⟨true, 0o7001⟩) := by decide

theorem test_decode_addNrNn : decodeTableWord 45 0o261456770010012 =
    some (.addNrNn ⟨false, 0o4567⟩ ⟨true, 0o7001⟩ ⟨false, 0o0012⟩) := by decide

theorem test_decode_subNrNn : decodeTableWord 45 0o462700100124567 =
    some (.subNrNn ⟨true, 0o7001⟩ ⟨false, 0o0012⟩ ⟨false, 0o4567⟩) := by decide

theorem test_decode_subabsNrNn : decodeTableWord 45 0o163001245677001 =
    some (.subabsNrNn ⟨false, 0o0012⟩ ⟨false, 0o4567⟩ ⟨true, 0o7001⟩) := by decide

theorem test_decode_sqrtNr : decodeTableWord 45 0o664456770010012 =
    some (.sqrtNr ⟨true, 0o4567⟩ ⟨true, 0o7001⟩ ⟨false, 0o0012⟩) := by decide

theorem test_decode_mulNrNn : decodeTableWord 45 0o365700100124567 =
    some (.mulNrNn ⟨false, 0o7001⟩ ⟨true, 0o0012⟩ ⟨true, 0o4567⟩) := by decide

theorem test_decode_expsubiNn : decodeTableWord 45 0o766001245677001 =
    some (.expsubiNn ⟨true, 0o0012⟩ ⟨true, 0o4567⟩ ⟨true, 0o7001⟩) := by decide

theorem test_decode_lowprodNn067 : decodeTableWord 45 0o067456770010012 =
    some (.lowprodNn067 ⟨false, 0o4567⟩ ⟨false, 0o7001⟩ ⟨false, 0o0012⟩) := by decide

theorem test_decode_expsubNn : decodeTableWord 45 0o570700100124567 =
    some (.expsubNn ⟨true, 0o7001⟩ ⟨false, 0o0012⟩ ⟨true, 0o4567⟩) := by decide

theorem test_decode_loopgef : decodeTableWord 45 0o271001245677001 =
    some (.loopgef ⟨false, 0o0012⟩ ⟨true, 0o4567⟩ ⟨false, 0o7001⟩) := by decide

theorem test_decode_ioexec : decodeTableWord 45 0o472456770010012 =
    some (.ioexec ⟨true, 0o4567⟩ ⟨false, 0o7001⟩ ⟨false, 0o0012⟩) := by decide

theorem test_decode_subo : decodeTableWord 45 0o173700100124567 =
    some (.subo ⟨false, 0o7001⟩ ⟨false, 0o0012⟩ ⟨true, 0o4567⟩) := by decide

theorem test_decode_shwe : decodeTableWord 45 0o674001245677001 =
    some (.shwe ⟨true, 0o0012⟩ ⟨true, 0o4567⟩ ⟨false, 0o7001⟩) := by decide

theorem test_decode_or : decodeTableWord 45 0o375456770010012 =
    some (.or ⟨false, 0o4567⟩ ⟨true, 0o7001⟩ ⟨true, 0o0012⟩) := by decide

theorem test_decode_jnc : decodeTableWord 45 0o776700100124567 =
    some (.jnc ⟨true, 0o7001⟩ ⟨true, 0o0012⟩ ⟨true, 0o4567⟩) := by decide

theorem test_decode_reserved077 : decodeTableWord 45 0o077001245677001 =
    some (.reserved077 ⟨false, 0o0012⟩ ⟨false, 0o4567⟩ ⟨false, 0o7001⟩) := by decide

theorem test_decode_rejects_a_wide_cell :
    decodeTableWord 46 (2 ^ 45) = none ∧ decodeTableWord 45 (2 ^ 45 - 1) =
      some (.reserved077 ⟨true, 0o7777⟩ ⟨true, 0o7777⟩ ⟨true, 0o7777⟩) := by decide

/-! ### Single steps -/

/-- Reset with the given cells, rising addresses, and `PC`. -/
def cpu (pc : Addr) (cells : Memory) : State := { State.reset with pc := pc, mem := cells }

/-- The step's state, where there is one, passes the check. -/
def ran (r : Result) (check : State → Bool) : Bool :=
  match r with
  | .next s => check s
  | _ => false

/-- The word is executed at `0100` from the cells (all below `0100`): status, `PC`, `RES`, `CF` and the
cell at `0020` afterwards. -/
def oneStep (word : Nat) (cells : Memory) (status : Status) (pc : Addr) (res : Word) (cf : Bool)
    (cell20 : Nat) : Bool :=
  ran (step (cpu 0o100 (cells ++ [(0o100, word)]))) fun t =>
    t.status == status && t.pc == pc && t.res == res && t.cf == cf && memGet t.mem 0o20 == cell20

/-- A11. -/
theorem test_add :
    oneStep 0o001001000110020 [(0o10, 0o100777777777777), (0o11, 0o100000000000002)] .ok 0o101
      0o101400000000001 false 0o101400000000001 = true := by decide +kernel

/-- A12. -/
theorem test_addNr :
    oneStep 0o021001000110020 [(0o10, 0o100777777777777), (0o11, 0o100000000000002)] .ok 0o101
      0o101400000000000 false 0o101400000000000 = true := by decide +kernel

/-- A23. -/
theorem test_addNn :
    oneStep 0o041001000110020 [(0o11, 0o100000000000001)] .ok 0o101
      0o100000000000001 false 0o100000000000001 = true := by decide +kernel

/-- A25. -/
theorem test_addNrNn :
    oneStep 0o061001000110020 [(0o10, 0o000400000000000), (0o11, 0o200000000000000)] .ok 0o101
      0o000377777777777 false 0o000377777777777 = true := by decide +kernel

/-- A2. -/
theorem test_sub :
    oneStep 0o002001000110020 [(0o10, 0o101600000000000), (0o11, 0o102440000000000)] .ok 0o101
      0o300600000000000 true 0o300600000000000 = true := by decide +kernel

/-- A2 with NR: no bit is lost, by hand. -/
theorem test_subNr :
    oneStep 0o022001000110020 [(0o10, 0o101600000000000), (0o11, 0o102440000000000)] .ok 0o101
      0o300600000000000 true 0o300600000000000 = true := by decide +kernel

/-- A18. -/
theorem test_subNn :
    oneStep 0o042001000110020 [(0o10, 0o000400000000000), (0o11, 0o000300000000000)] .ok 0o101
      0o000100000000000 false 0o000100000000000 = true := by decide +kernel

/-- A8. -/
theorem test_subNrNn :
    oneStep 0o062001000110020 [(0o10, 0o101600000000000), (0o11, 0o101600000000000)] .ok 0o101
      0o101000000000000 false 0o101000000000000 = true := by decide +kernel

/-- A6. -/
theorem test_subabs :
    oneStep 0o003001000110020 [(0o10, 0o102440000000000), (0o11, 0o301600000000000)] .ok 0o101
      0o100600000000000 false 0o100600000000000 = true := by decide +kernel

/-- A5 with NR: no bit is lost, by hand. -/
theorem test_subabsNr :
    oneStep 0o023001000110020 [(0o10, 0o301600000000000), (0o11, 0o102440000000000)] .ok 0o101
      0o300600000000000 true 0o300600000000000 = true := by decide +kernel

/-- A5 with NN: -0.1875 at exponent 66, by hand. -/
theorem test_subabsNn :
    oneStep 0o043001000110020 [(0o10, 0o301600000000000), (0o11, 0o102440000000000)] .ok 0o101
      0o302140000000000 true 0o302140000000000 = true := by decide +kernel

/-- A5 with NR and NN, by hand. -/
theorem test_subabsNrNn :
    oneStep 0o063001000110020 [(0o10, 0o301600000000000), (0o11, 0o102440000000000)] .ok 0o101
      0o302140000000000 true 0o302140000000000 = true := by decide +kernel

/-- A13: nothing is written. -/
theorem test_add_overflow :
    oneStep 0o001001000110020 [(0o10, 0o177400000000000), (0o11, 0o177400000000000)] .addOvf 0o101
      0o0 false 0o0 = true := by decide +kernel

/-- A27: forced rounding with a carry (SUB). -/
theorem test_add_forced_round_carries :
    oneStep 0o002001000110020 [(0o10, 0o000777777777777), (0o11, 0o200000000000000)] .ok 0o101
      0o001400000000000 false 0o001400000000000 = true := by decide +kernel

/-- M10. -/
theorem test_mul :
    oneStep 0o005001000110020 [(0o10, 0o100777777777776), (0o11, 0o100400000000001)] .ok 0o101
      0o100400000000000 false 0o100400000000000 = true := by decide +kernel

/-- M11. -/
theorem test_mulNr :
    oneStep 0o025001000110020 [(0o10, 0o100777777777776), (0o11, 0o100400000000001)] .ok 0o101
      0o077777777777777 false 0o077777777777777 = true := by decide +kernel

/-- M4. -/
theorem test_mulNn :
    oneStep 0o045001000110020 [(0o10, 0o100400000000000), (0o11, 0o100400000000000)] .ok 0o101
      0o100200000000000 false 0o100200000000000 = true := by decide +kernel

/-- M7. -/
theorem test_mulNrNn :
    oneStep 0o065001000110020 [(0o10, 0o100400000000001), (0o11, 0o100400000000001)] .ok 0o101
      0o100200000000001 false 0o100200000000001 = true := by decide +kernel

/-- M17. -/
theorem test_mul_overflow :
    oneStep 0o005001000110020 [(0o10, 0o177400000000000), (0o11, 0o177400000000000)] .mulOvf 0o101
      0o0 false 0o0 = true := by decide +kernel

/-- M7, M11: the auxiliary word of the product. -/
theorem test_mul_auxiliary :
    (match mulUnit true true 0o100400000000001 0o100400000000001,
        mulUnit true false 0o100777777777776 0o100400000000001 with
      | .ok p, .ok q => p.2 == 0o100000000000001 && q.2 == 0o077777777777774
      | _, _ => false) = true := by decide +kernel

/-- M22. -/
theorem test_lowprod :
    ran (step { cpu 0o100 [(0o100, 0o007000000000020)] with aux := 0o100000000000001 }) (fun t =>
      t.res == 0o035400000000000 && memGet t.mem 0o20 == 0o035400000000000 && !t.cf &&
        t.aux == 0o100000000000001) = true := by decide +kernel

/-- M23. -/
theorem test_lowprodNn :
    ran (step { cpu 0o100 [(0o100, 0o047000000000020)] with aux := 0o100000000000001 }) (fun t =>
      t.res == 0o100000000000001 && memGet t.mem 0o20 == 0o100000000000001 && !t.cf &&
        t.aux == 0o100000000000001) = true := by decide +kernel

/-- M25. -/
theorem test_lowprod027 :
    ran (step { cpu 0o100 [(0o100, 0o027000000000020)] with aux := 0o100000000000001 }) (fun t =>
      t.res == 0o035400000000000 && memGet t.mem 0o20 == 0o035400000000000 && !t.cf &&
        t.aux == 0o100000000000001) = true := by decide +kernel

/-- M23, the NR position ignored (R120). -/
theorem test_lowprodNn067 :
    ran (step { cpu 0o100 [(0o100, 0o067000000000020)] with aux := 0o100000000000001 }) (fun t =>
      t.res == 0o100000000000001 && memGet t.mem 0o20 == 0o100000000000001 && !t.cf &&
        t.aux == 0o100000000000001) = true := by decide +kernel

/-- Q3. -/
theorem test_div :
    oneStep 0o004001000110020 [(0o10, 0o101400000000000), (0o11, 0o102600000000000)] .ok 0o101
      0o077525252525253 false 0o077525252525253 = true := by decide +kernel

/-- Q4. -/
theorem test_divNr :
    oneStep 0o024001000110020 [(0o10, 0o101400000000000), (0o11, 0o102600000000000)] .ok 0o101
      0o077525252525252 false 0o077525252525252 = true := by decide +kernel

/-- S4. -/
theorem test_sqrt :
    oneStep 0o044001000110020 [(0o10, 0o102400000000000)] .ok 0o101
      0o101552023631500 false 0o101552023631500 = true := by decide +kernel

/-- S5. -/
theorem test_sqrtNr :
    oneStep 0o064001000110020 [(0o10, 0o102400000000000)] .ok 0o101
      0o101552023631477 false 0o101552023631477 = true := by decide +kernel

/-- Q8: rolled back. -/
theorem test_div_by_zero :
    oneStep 0o004001000110020 [(0o10, 0o101600000000000)] .divZero 0o100
      0o0 false 0o0 = true := by decide +kernel

/-- S8: rolled back. -/
theorem test_sqrt_of_negative :
    oneStep 0o044001000110020 [(0o10, 0o303400000000000)] .sqrtNeg 0o100
      0o0 false 0o0 = true := by decide +kernel

/-- E1. -/
theorem test_expaddi :
    oneStep 0o006010300100020 [(0o10, 0o101600000000000)] .ok 0o101
      0o104600000000000 false 0o104600000000000 = true := by decide +kernel

/-- E8. -/
theorem test_expsubi :
    oneStep 0o026020200100020 [(0o10, 0o101600000000000)] .ok 0o101
      0o177600000000000 false 0o177600000000000 = true := by decide +kernel

/-- E16. -/
theorem test_expadd :
    oneStep 0o010001100100020 [(0o10, 0o101600000000000), (0o11, 0o477000000000000)] .ok 0o101
      0o500600000000000 false 0o500600000000000 = true := by decide +kernel

/-- E4. -/
theorem test_expsub :
    oneStep 0o030001100100020 [(0o10, 0o102440000000000), (0o11, 0o102440000000000)] .ok 0o101
      0o100440000000000 false 0o100440000000000 = true := by decide +kernel

/-- E12. -/
theorem test_expaddiNn :
    oneStep 0o046010100100020 [(0o10, 0o376000000000000)] .ok 0o101
      0o377000000000000 true 0o377000000000000 = true := by decide +kernel

/-- E15. -/
theorem test_expsubiNn :
    oneStep 0o066017700100020 [(0o10, 0o001600000000000)] .ok 0o101
      0o000000000000000 false 0o000000000000000 = true := by decide +kernel

/-- R149 by hand: 65 + 66 - 64, not normalized. -/
theorem test_expaddNn :
    oneStep 0o050001100100020 [(0o10, 0o101200000000000), (0o11, 0o102440000000000)] .ok 0o101
      0o103200000000000 false 0o103200000000000 = true := by decide +kernel

/-- R150 by hand: 65 - 66 + 64, not normalized. -/
theorem test_expsubNn :
    oneStep 0o070001100100020 [(0o10, 0o101200000000000), (0o11, 0o102440000000000)] .ok 0o101
      0o077200000000000 false 0o077200000000000 = true := by decide +kernel

/-- E5. -/
theorem test_expaddi_overflow :
    oneStep 0o006017700100020 [(0o10, 0o101600000000000)] .addOvf 0o101
      0o0 false 0o0 = true := by decide +kernel

/-- L1. -/
theorem test_mov :
    oneStep 0o000001000000020 [(0o10, 0o123456701234567)] .ok 0o101
      0o123456701234567 false 0o123456701234567 = true := by decide +kernel

/-- L2: CF is the zero test. -/
theorem test_mov_zero :
    oneStep 0o000001000000020 [] .ok 0o101
      0o000000000000000 true 0o000000000000000 = true := by decide +kernel

/-- L8. -/
theorem test_rot :
    oneStep 0o040005400100020 [(0o10, 0o000000000000003)] .ok 0o101
      0o400000000000001 false 0o400000000000001 = true := by decide +kernel

/-- L9. -/
theorem test_rot_45 :
    oneStep 0o040005500100020 [(0o10, 0o000000000000003)] .ok 0o101
      0o000000000000003 false 0o000000000000003 = true := by decide +kernel

/-- L10. -/
theorem test_xor :
    oneStep 0o015001000110020 [(0o10, 0o000000000007070), (0o11, 0o000000000000777)] .ok 0o101
      0o000000000007707 false 0o000000000007707 = true := by decide +kernel

/-- L11. -/
theorem test_and :
    oneStep 0o055001000110020 [(0o10, 0o000000000007070), (0o11, 0o000000000000777)] .ok 0o101
      0o000000000000070 false 0o000000000000070 = true := by decide +kernel

/-- L12. -/
theorem test_or :
    oneStep 0o075001000110020 [(0o10, 0o000000000007070), (0o11, 0o000000000000777)] .ok 0o101
      0o000000000007777 false 0o000000000007777 = true := by decide +kernel

/-- L16. -/
theorem test_adda :
    oneStep 0o013001000110020 [(0o10, 0o001777777777777), (0o11, 0o000000000000001)] .ok 0o101
      0o001000000000000 false 0o001000000000000 = true := by decide +kernel

/-- L17. -/
theorem test_suba :
    oneStep 0o033001000110020 [(0o10, 0o001000000000000), (0o11, 0o000000000000001)] .ok 0o101
      0o001777777777777 false 0o001777777777777 = true := by decide +kernel

/-- L19. -/
theorem test_addo :
    oneStep 0o053001000110020 [(0o10, 0o777000000000005), (0o11, 0o001000000000000)] .ok 0o101
      0o000000000000005 false 0o000000000000005 = true := by decide +kernel

/-- L20. -/
theorem test_subo :
    oneStep 0o073001000110020 [(0o10, 0o000000000000005), (0o11, 0o001000000000000)] .ok 0o101
      0o777000000000005 false 0o777000000000005 = true := by decide +kernel

/-- L21. -/
theorem test_cycadd :
    oneStep 0o012001000110020 [(0o10, 0o777777777777777), (0o11, 0o000000000000001)] .ok 0o101
      0o000000000000001 false 0o000000000000001 = true := by decide +kernel

/-- L24. -/
theorem test_cycsub :
    oneStep 0o032001000110020 [(0o10, 0o000000000000001), (0o11, 0o000000000000002)] .ok 0o101
      0o777777777777776 false 0o777777777777776 = true := by decide +kernel

/-- L26. -/
theorem test_shmi :
    oneStep 0o014010300100020 [(0o10, 0o101000000000001)] .ok 0o101
      0o101000000000010 false 0o101000000000010 = true := by decide +kernel

/-- L29. -/
theorem test_shmi_right :
    oneStep 0o014007500100020 [(0o10, 0o301700000000000)] .ok 0o101
      0o301070000000000 false 0o301070000000000 = true := by decide +kernel

/-- L32. -/
theorem test_shwi :
    oneStep 0o034002400100020 [(0o10, 0o400000000000000)] .ok 0o101
      0o000000000000001 false 0o000000000000001 = true := by decide +kernel

/-- L35. -/
theorem test_shme :
    oneStep 0o054001100100020 [(0o10, 0o101000000000001), (0o11, 0o103000000000000)] .ok 0o101
      0o101000000000010 false 0o101000000000010 = true := by decide +kernel

/-- L36. -/
theorem test_shwe :
    oneStep 0o074001100100020 [(0o10, 0o000000000000010), (0o11, 0o075777777777777)] .ok 0o101
      0o000000000000001 false 0o000000000000001 = true := by decide +kernel

/-- L14: nothing is stored. -/
theorem test_xorchk_equal :
    oneStep 0o035001000110020 [(0o10, 0o5), (0o11, 0o5)] .ok 0o101
      0o0 true 0o0 = true := by decide +kernel

/-- L15: rolled back. -/
theorem test_xorchk_differs :
    oneStep 0o035001000110020 [(0o10, 0o5), (0o11, 0o4)] .cmpFail 0o100
      0o0 false 0o0 = true := by decide +kernel

/-- L6: the switch number is index-modified. -/
theorem test_rdsw :
    ran (step { cpu 0o100 [(0o100, 0o420000200000020)] with idx := 1, sw2 := 2, sw3 := 3 }) (fun t =>
      t.res == 3 && memGet t.mem 0o20 == 3) = true := by decide +kernel

/-- L5. -/
theorem test_rdsw_bad_switch :
    oneStep 0o020000400000020 [] .badSwitch 0o101
      0o0 false 0o0 = true := by decide +kernel

/-- K2. -/
theorem test_jmp :
    ran (step { cpu 0o5 [(0o5, 0o256000001000000)] with idx := 7 }) (fun t =>
      t.pc == 0o107 && t.status == .ok) = true := by decide +kernel

/-- K3. -/
theorem test_jsr :
    ran (step { cpu 0o10 [(0o10, 0o016000002000277)] with cf := true, res := 5 }) (fun t =>
      t.pc == 0o200 && memGet t.mem 0o277 == 0o056000000110000 && t.res == 5 && t.cf) = true := by decide +kernel

/-- K4. -/
theorem test_jc :
    ran (step { cpu 0o5 [(0o5, 0o036000001000000)] with cf := true }) (fun t =>
      t.pc == 0o100) = true := by decide +kernel

/-- K5. -/
theorem test_jc_clear :
    ran (step (cpu 0o5 [(0o5, 0o036000001000000)])) (fun t =>
      t.pc == 6) = true := by decide +kernel

/-- K7. -/
theorem test_jnc :
    ran (step (cpu 0o5 [(0o5, 0o076000001000000)])) (fun t =>
      t.pc == 0o100) = true := by decide +kernel

/-- K6. -/
theorem test_jnc_set :
    ran (step { cpu 0o5 [(0o5, 0o076000001000000)] with cf := true }) (fun t =>
      t.pc == 6) = true := by decide +kernel

/-- K8. -/
theorem test_looplt :
    ran (step { cpu 0o20 [(0o20, 0o111000501000001)] with idx := 3 }) (fun t =>
      t.pc == 0o100 && t.idx == 4) = true := by decide +kernel

/-- K14. -/
theorem test_looplt_wraps :
    ran (step { cpu 0o20 [(0o20, 0o111777701000001)] with idx := 0o7777 }) (fun t =>
      t.pc == 0o21 && t.idx == 0) = true := by decide +kernel

/-- K10. -/
theorem test_loopge :
    ran (step { cpu 0o20 [(0o20, 0o031000501000000)] with idx := 5 }) (fun t =>
      t.pc == 0o100 && t.idx == 0) = true := by decide +kernel

/-- K11. -/
theorem test_loopge_not_taken :
    ran (step { cpu 0o20 [(0o20, 0o031000501000000)] with idx := 4 }) (fun t =>
      t.pc == 0o21 && t.idx == 0) = true := by decide +kernel

/-- K12. -/
theorem test_loopltf :
    ran (step { cpu 0o20 [(0o20, 0o151000501000001)] with idx := 7, cf := true }) (fun t =>
      t.pc == 0o21 && t.idx == 0o10 && !t.cf) = true := by decide +kernel

/-- K13. -/
theorem test_loopgef :
    ran (step { cpu 0o20 [(0o20, 0o071000501000000)] with idx := 7 }) (fun t =>
      t.pc == 0o100 && t.idx == 0 && t.cf) = true := by decide +kernel

/-- K15. -/
theorem test_halt :
    ran (step (cpu 0o3 [(0o3, 0o017000000000000)])) (fun t =>
      t.status == .halt && t.pc == 3 && t.ir == 0o017000000000000) = true := by decide +kernel

/-- K16. -/
theorem test_halt2 :
    ran (step (cpu 0o3 [(0o3, 0o037000100020003)])) (fun t =>
      t.status == .halt && t.pc == 3) = true := by decide +kernel

/-- K17. -/
theorem test_addrform :
    ran (step (cpu 0o3 [(0o3, 0o060000000000000)])) (fun t =>
      t.status == .badOp && t.pc == 4) = true := by decide +kernel

/-- K18. -/
theorem test_reserved057 :
    ran (step (cpu 0o3 [(0o3, 0o057000000000000)])) (fun t =>
      t.status == .badOp && t.pc == 4) = true := by decide +kernel

/-- K19: PC wraps. -/
theorem test_reserved077 :
    ran (step (cpu 0o7777 [(0o7777, 0o077000000000000)])) (fun t =>
      t.status == .badOp && t.pc == 0) = true := by decide +kernel

/-- R198: outside the specified behaviour the model refuses. -/
theorem test_addrform_alternate_is_refused :
    (match step { cpu 3 [(3, 0o060000000000000)] with
        cfg := { State.reset.cfg with alt := true } } with
      | .refused r => r == .addressFormation
      | _ => false) = true := by decide +kernel

/-- A machine whose condition code 3 selects the drum, with the given disable-stop flag and the device's
next answer; the descriptor is that of vector I1. -/
def drum (word : Nat) (nostop : Bool) (r : DevResult) : State :=
  { cpu 0o100 [(0o100, word)] with
    iod := ⟨true, .drum, 3, 0o1000, 0o2777⟩
    cf := true
    devices := {
      codes := [(3, ⟨.device .drum, nostop⟩), (7, ⟨.conflict, nostop⟩)]
      results := [r]
      calls := 0 } }

/-- The IOEXEC of vectors I3 to I8. -/
def ioexecWord : Nat := 0o072200003000020

/-- I1. -/
theorem test_iosetup :
    ran (step { drum 0o052000310002777 false ⟨.ok, 0, []⟩ with iod := State.reset.iod }) (fun t =>
      t.status == .ok && t.iod == ⟨true, .drum, 3, 0o1000, 0o2777⟩) = true := by decide +kernel

/-- I2. -/
theorem test_iosetup_conflict :
    ran (step (drum 0o052000710002777 false ⟨.ok, 0, []⟩)) (fun t =>
      t.status == .ioConflict && t.pc == 0o101 && t.iod.cc == 3) = true := by decide +kernel

/-- I4. -/
theorem test_ioexec :
    ran (step (drum ioexecWord false ⟨.ok, 0o1234, [(0o2000, 5)]⟩)) (fun t =>
      t.status == .ok && memGet t.mem 0o2000 == 5 && memGet t.mem 0o20 == 0o1234 &&
        t.res == 0o1234 && t.cf && t.pc == 0o101) = true := by decide +kernel

/-- I5, I6: the device's error, with the disable-stop flag clear and set. -/
theorem test_ioexec_error :
    (ran (step (drum ioexecWord false ⟨.tapeRead, 1, [(0o2000, 5)]⟩)) (fun t =>
      t.status == .tapeRead && t.pc == 0o100 && memGet t.mem 0o2000 == 5 && t.res == 0) &&
    ran (step (drum ioexecWord true ⟨.tapeRead, 1, [(0o2000, 5)]⟩)) (fun t =>
      t.status == .ok && t.pc == 0o300 && memGet t.mem 0o20 == 0)) = true := by decide +kernel

/-! ### The overlay -/

/-- A machine with the overlay in the given mode and the instruction `word` at `0100`. -/
def overlay (mmr : Overlay) (word : Nat) (cells : Memory) : State :=
  { cpu 0o100 (cells ++ [(0o100, word)]) with cfg := { State.reset.cfg with mmr := mmr } }

/-- X2, X3: a store to `07775` is dropped under the overlay and made without it. -/
theorem test_store_to_result_overlay :
    (ran (step (overlay .basic 0o000001000007775 [(0o10, 0o55)])) (fun t =>
      t.status == .ok && t.res == 0o55 && memGet t.mem 0o7775 == 0) &&
    ran (step (overlay .off 0o000001000007775 [(0o10, 0o55)])) (fun t =>
      memGet t.mem 0o7775 == 0o55)) = true := by decide +kernel

/-- X4: a store to the index register. -/
theorem test_store_to_index_overlay :
    ran (step (overlay .ext 0o000001000007776 [(0o10, 0o123456701234567)])) (fun t =>
      t.idx == 0o4567 && t.res == 0o123456701234567) = true := by decide +kernel

/-- X8: the instruction reads itself from `IR`. -/
theorem test_read_of_ir_overlay :
    ran (step (overlay .ext 0o000777700000020 [])) (fun t =>
      memGet t.mem 0o20 == 0o000777700000020) = true := by decide +kernel

/-- X11: the stored ADD is executed within the step. -/
theorem test_indirect_execute_add :
    ran (step (overlay .ext 0o000003000007777
      [(0o12, 0o101600000000000), (0o13, 0o102440000000000), (0o30, 0o001001200130014)])) (fun t =>
      t.status == .ok && t.ir == 0o001001200130014 && memGet t.mem 0o14 == 0o102740000000000 &&
        t.res == 0o102740000000000 && t.pc == 0o101) = true := by decide +kernel

/-- X12. -/
theorem test_indirect_execute_jump :
    ran (step (overlay .ext 0o000003000007777 [(0o30, 0o056000002000000)])) (fun t =>
      t.pc == 0o200 && t.res == 0o056000002000000 && !t.cf) = true := by decide +kernel

/-- X13: the stored HALT rolls the MOV back. -/
theorem test_indirect_execute_halt :
    ran (step (overlay .ext 0o000003000007777 [(0o30, 0o017000000000000)])) (fun t =>
      t.status == .halt && t.pc == 0o100 && t.ir == 0o000003000007777 &&
        t.res == 0o017000000000000) = true := by decide +kernel

/-- R188: a marker executed from the overlay is overridden by the jump. -/
theorem test_jsr_through_the_overlay :
    ran (step (overlay .ext 0o016000002007777 [])) (fun t =>
      t.pc == 0o200 && t.ir == 0o056000001010000) = true := by decide +kernel

/-- R40: a corrupt operand with the check on and off. -/
theorem test_corrupt_operand :
    (ran (step { cpu 0o100 [(0o10, 2 ^ 45 + 5), (0o100, 0o000001000000020)] with
        cfg := { State.reset.cfg with memcheck := true, storeW := 64 } }) (fun t =>
      t.status == .memCorrupt && t.pc == 0o101 && t.res == 0) &&
    ran (step { cpu 0o100 [(0o10, 2 ^ 45 + 5), (0o100, 0o000001000000020)] with
        cfg := { State.reset.cfg with storeW := 64 } }) (fun t => t.res == 5)) = true := by
  decide +kernel

/-- V10: a deposit at address 0 is rejected. -/
theorem test_deposit_at_zero :
    ran (deposit 0 0o55 State.reset) (fun t =>
      t.status == .readOnly && examine 0 t == some 0) = true := by decide +kernel

/-- R56: with `OPMAP` giving opcode `057` the row of JMP, the word `057000001000000` jumps. -/
theorem test_remapped_opcode :
    ran (step { cpu 5 [(5, 0o057000001000000)] with
        cfg := { State.reset.cfg with opmap := [(0o57, 0o56)] } }) (fun t =>
      t.status == .ok && t.pc == 0o100) = true := by decide +kernel

/-- R53: with `OPMAP` giving opcode `021` the row of ADD, the result is truncated, as in vector A12. -/
theorem test_remapped_modifiers :
    ran (step { cpu 0o100 [(0o10, 0o100777777777777), (0o11, 0o100000000000002),
        (0o100, 0o021001000110020)] with
        cfg := { State.reset.cfg with opmap := [(0o21, 0o01)] } }) (fun t =>
      t.res == 0o101400000000000) = true := by decide +kernel

/-- R30: with 1024 words the address `02010` names the cell `0010`. -/
theorem test_address_reduced :
    ran (step { cpu 0o100 [(0o10, 5), (0o100, 0o000201000002020)] with
        cfg := { State.reset.cfg with memWords := 1024 } }) (fun t =>
      t.res == 5 && memGet t.mem 0o20 == 5) = true := by decide +kernel

/-- The instruction `withFetchWord` places is the one the next step runs. -/
theorem test_with_fetch_word :
    ran (step (State.reset.withFetchWord 45 0o056000001000000)) (fun t => t.pc == 0o100) = true := by
  decide +kernel

/-! ### Witnesses: the hypotheses of each obligation that has some are met together -/

/-- An operand at an address, not index-modified. -/
def at_ (a : Addr) : Operand := ⟨false, a⟩

/-- Two operands at `0010` and `0011`. -/
def data (x y : Nat) : State := cpu 0 [(0o10, x), (0o11, y)]

/-- A corrupt cell at `0001`, where the machine fetches and reads, with the check on. -/
def corrupt : State :=
  { cpu 1 [(1, 2 ^ 45)] with cfg := { State.reset.cfg with memcheck := true, storeW := 46 } }

/-- With `OPMAP` giving opcode `021` the row of ADD, `044` that of DIV.NR and `006` that of EXPADDI.NN,
the modifiers are those of the opcode. -/
theorem witness_ModifiersAreOpcodeBits :
    decodeWith [(0o21, 0o01)] 0o021000000000000 = addInstr .add true false (at_ 0) (at_ 0) (at_ 0) ∧
      decodeWith [(0o44, 0o24)] 0o044000000000000 = divInstr false (at_ 0) (at_ 0) (at_ 0) ∧
      decodeWith [(0o06, 0o46)] 0o006000000000000 =
        expImmediateInstr false false (at_ 0) (at_ 0) (at_ 0) ∧
      decodeWith [] 0o065000000000000 = mulInstr true true (at_ 0) (at_ 0) (at_ 0) := by decide

theorem witness_EncodedWordIsTheFieldFormula :
    operandsOf (.or ⟨true, 0o7777⟩ (at_ 0) (at_ 1)) = (⟨true, 0o7777⟩, at_ 0, at_ 1) := rfl

theorem witness_PackPlacesEveryField :
    ((0 : Int) ≤ 0 ∧ (0 : Int) ≤ 127 ∧ 0 < 2 ^ 36) ∧
      ((0 : Int) ≤ 127 ∧ (127 : Int) ≤ 127 ∧ 2 ^ 36 - 1 < 2 ^ 36) := by decide

theorem witness_NormalizeIsItsClosedForm :
    (0 < 2 ^ 36 ∧ 35 = 35 - Nat.log2 0) ∧ (1 < 2 ^ 36 ∧ 35 = 35 - Nat.log2 1) ∧
      (2 ^ 36 - 1 < 2 ^ 36 ∧ 0 = 35 - Nat.log2 (2 ^ 36 - 1)) := by decide +kernel

theorem witness_CanonicalZeroProperties :
    (signOf 0o400000000000000 = signOf 0 ∧ expOf 0o400000000000000 = expOf 0 ∧
      mantOf 0o400000000000000 = mantOf 0) ∧
    ((127 : Int) ≤ 127 ∧ 1 < 2 ^ 36 ∧ signOf (normalize true 127 1 true) = true) := by decide +kernel

theorem witness_DecodeOfEncodeIsTheInstruction :
    encodeWith [(0o57, 0)] (.mov (at_ 1) (at_ 2) (at_ 3)) = some 0o000000100020003 ∧
      encodeWith [(0, 0o57)] (.mov (at_ 1) (at_ 2) (at_ 3)) = none := by decide +kernel

theorem witness_MemoryPrimitivesFollowTheirRules :
    (0o7777 : Addr).toNat = (0o7777 : Addr).toNat % State.reset.cfg.memWords ∧
      (0 : Addr).toNat = (0o2000 : Addr).toNat % { State.reset.cfg with memWords := 1024 }.memWords := by
  decide

theorem witness_OverlayReadsTheRegisters :
    (overlay .basic 0 []).cfg.memWords = 4096 ∧
      (overlay .basic 0 []).cfg.mmr ≠ .off ∧ (overlay .ext 0 []).cfg.mmr ≠ .off := by decide

/-- A machine with 1024 words of memory. -/
def small : State := { State.reset with cfg := { State.reset.cfg with memWords := 1024 } }

theorem witness_StoredWordIsReadBackAndNothingElseMoves :
    (Inv State.reset ∧ (0o7777 : Addr).toNat = (0o7777 : Addr).toNat % State.reset.cfg.memWords ∧
      (0o7777 : Addr) ≠ 0 ∧ State.reset.cfg.mmr = .off ∧
      (0 : Addr).toNat % State.reset.cfg.memWords ≠ (0o7777 : Addr).toNat) ∧
    (Inv (overlay .ext 1 []) ∧
      (0o7767 : Addr).toNat = (0o7767 : Addr).toNat % (overlay .ext 1 []).cfg.memWords ∧
      (0o7767 : Addr) ≠ 0 ∧ (0o7767 : Addr).toNat < 0o7770) ∧
    (Inv small ∧ (1 : Addr).toNat = (0o2001 : Addr).toNat % small.cfg.memWords) := by decide

theorem witness_NoCorruptionWithWordWideCells :
    Inv (data 1 (2 ^ 45 - 1)) ∧ (data 1 (2 ^ 45 - 1)).cfg.storeW = 45 := by decide

theorem witness_DepositThenExamine :
    (Inv (data 1 2) ∧ (0o7777 : Addr).toNat = (0o7777 : Addr).toNat % (data 1 2).cfg.memWords ∧
      (0o7777 : Addr) ≠ 0 ∧ (data 1 2).cfg.mmr = .off) ∧
    (Inv (overlay .basic 1 []) ∧
      (1 : Addr).toNat = (1 : Addr).toNat % (overlay .basic 1 []).cfg.memWords ∧ (1 : Addr) ≠ 0 ∧
      (1 : Addr).toNat < 0o7770) := by decide

theorem witness_StepRunsTheDecodedInstruction :
    (memRead State.reset 0 = some 0 ∧
      ∃ t, exec (decodeWith State.reset.cfg.opmap 0) (entered 0 State.reset) = .next t ∧
        t.pend = .idle) ∧
    ∃ s : State, memRead s s.pc = some 0o060000000000000 ∧
      exec (decodeWith s.cfg.opmap 0o060000000000000) (entered 0o060000000000000 s) =
        .refused .addressFormation :=
  ⟨⟨rfl, _, rfl, rfl⟩,
    { cpu 3 [(3, 0o060000000000000)] with cfg := { State.reset.cfg with alt := true } }, rfl, rfl⟩

/-- The state of a result. -/
def after (r : Result) : State :=
  match r with
  | .next s => s
  | _ => State.reset

/-- A MOV of a MOV of a HALT, each stored to the `IR` overlay: two levels of re-execution. -/
def nested : State :=
  overlay .ext 0o000003000007777 [(0o30, 0o000003100007777), (0o31, 0o017000000000000)]

/-- The states between the nested instructions. -/
def nestedChain : Nat → State
  | 0 => after (exec (decodeWith [] 0o000003000007777) (entered 0o000003000007777 nested))
  | n + 1 => after (reexecuted (nestedChain n))

theorem witness_StepReexecutesTheStoredWord :
    2 < Config.reexecLimit ∧ memRead nested nested.pc = some 0o000003000007777 ∧
      exec (decodeWith nested.cfg.opmap 0o000003000007777) (entered 0o000003000007777 nested) =
        .next (nestedChain 0) ∧
      (∀ k < 2, (nestedChain k).pend = .store ∧
        reexecuted (nestedChain k) = .next (nestedChain (k + 1))) ∧
      (nestedChain 2).pend = .idle ∧ (nestedChain 2).status = .halt := by
  refine ⟨by decide, rfl, rfl, fun k hk => ?_, rfl, rfl⟩
  match k, hk with
  | 0, _ => exact ⟨rfl, rfl⟩
  | 1, _ => exact ⟨rfl, rfl⟩

/-- An IOEXEC whose device delivers a word, a JMP to the `IR` overlay, and another word. -/
def delivering (st : DevStatus) (nostop : Bool) : State :=
  { drum ioexecWord nostop
      ⟨st, 7, [(0o2000, 5), (0o7777, 0o056000005000000), (0o2001, 6)]⟩ with
    cfg := { State.reset.cfg with mmr := .ext } }

/-- The delivering machine when the JMP is about to be executed. -/
def beforeJump (st : DevStatus) (nostop : Bool) : State :=
  storeAll [(0o2000, 5)]
    { entered ioexecWord (delivering st nostop) with
      delay := (entered ioexecWord (delivering st nostop)).delay +
        Config.devDelay (delivering st nostop).iod 0o2000
      devices := deviceCalled (delivering st nostop).devices
      status := .ok }

theorem witness_StepReexecutesADeliveredWord :
    ∀ st nostop, memRead (delivering st nostop) 0o100 = some ioexecWord ∧
      decodeWith (delivering st nostop).cfg.opmap ioexecWord =
        .ioexec (at_ 0o2000) (at_ 0o300) (at_ 0o20) ∧
      (delivering st nostop).iod.valid = true ∧
      (devPerform 0o2000 (delivering st nostop)).writes =
        [(0o2000, 5)] ++ (0o7777, 0o056000005000000) :: [(0o2001, 6)] ∧
      writeTarget (delivering st nostop).cfg 0o7777 = .instruction ∧
      writeTarget (delivering st nostop).cfg 0o2000 = .cell ∧
      writeTarget (delivering st nostop).cfg 0o2001 = .cell ∧
      writeTarget (delivering st nostop).cfg 0o20 = .cell ∧
      ran (reexecuted { beforeJump st nostop with ir := 0o056000005000000 }) (fun u =>
        u.pend == .idle && u.pc == 0o500) = true :=
  fun st nostop => ⟨rfl, rfl, rfl, rfl, rfl, rfl, rfl, rfl, by
    cases st <;> cases nostop <;> decide +kernel⟩

theorem witness_NestingBoundIsOnlyAResourceLimit :
    State.reset.cfg.alt = false ∧ ∃ t, execute 1 0 State.reset = .next t := ⟨rfl, _, rfl⟩

theorem witness_CorruptReadStopsBeforeAnythingElse_fetch : Inv corrupt ∧ memRead corrupt corrupt.pc = none := by
  decide

theorem witness_RollbackBookkeeping :
    (onlyStatus .halt State.reset).status ∈ [Status.sqrtNeg, .cardCksum, .cardRead, .tapeRead, .halt,
        .cmpFail, .noCard, .divZero, .divMovf] ∧
      memRead (onlyStatus .halt State.reset) (0 - 1) = some 0 ∧
      State.reset.status ∉ [Status.sqrtNeg, .cardCksum, .cardRead, .tapeRead, .halt, .cmpFail,
        .noCard, .divZero, .divMovf] := by decide

theorem witness_FailingInstructionWritesNothing :
    isIoexec (.halt (at_ 0) (at_ 0) (at_ 0)) = false ∧
      ∃ t, exec (.halt (at_ 0) (at_ 0) (at_ 0)) State.reset = .next t ∧ t.status ≠ .ok :=
  ⟨rfl, _, rfl, by decide⟩

theorem witness_OnlyListedStatusesAreRaised :
    ∃ t, exec (.rdsw (at_ 4) (at_ 0) (at_ 0)) State.reset = .next t ∧ t.status = .badSwitch :=
  ⟨_, rfl, rfl⟩

theorem witness_StepAfterFailedInstruction :
    (∃ s t : State, memRead s s.pc = some 0o017000000000000 ∧
      isIoexec (decodeWith s.cfg.opmap 0o017000000000000) = false ∧
      exec (decodeWith s.cfg.opmap 0o017000000000000) (entered 0o017000000000000 s) = .next t ∧
      t.status ≠ .ok ∧ rollsBack t.status = true) ∧
    ∃ s t : State, memRead s s.pc = some 0o057000000000000 ∧
      isIoexec (decodeWith s.cfg.opmap 0o057000000000000) = false ∧
      exec (decodeWith s.cfg.opmap 0o057000000000000) (entered 0o057000000000000 s) = .next t ∧
      t.status ≠ .ok ∧ rollsBack t.status = false :=
  ⟨⟨cpu 0o7777 [(0o7777, 0o017000000000000)], _, rfl, rfl, rfl, by decide, rfl⟩,
    cpu 0o7777 [(0o7777, 0o057000000000000)], _, rfl, rfl, rfl, by decide, rfl⟩

theorem witness_ResumedFailureRepeats :
    ∃ s t : State, s.cfg.mmr ≠ .ext ∧ memRead s s.pc = some 0o017000000000000 ∧
      isIoexec (decodeWith s.cfg.opmap 0o017000000000000) = false ∧ step s = .next t ∧ rollsBack t.status = true :=
  ⟨cpu 3 [(3, 0o017000000000000)], after (step (cpu 3 [(3, 0o017000000000000)])), by decide, rfl,
    rfl, rfl, by decide +kernel⟩

theorem witness_StepsInPlainModeAreNeverRefused :
    plainMode State.reset ∧ plainMode (overlay .basic 0o000001000007775 [(0o10, 1)]) := by decide

theorem witness_EveryStepKeepsTheInvariant :
    Inv (data 1 2) ∧ ∃ t, step (data 1 2) = .next t := ⟨by decide, after (step (data 1 2)), rfl⟩

theorem witness_ClearedMemoryRunsForEver :
    State.reset.mem = [] ∧ State.reset.cfg.mmr = .off ∧ (cpu 0o7777 []).mem = [] ∧
      operationOf State.reset.cfg.opmap 0 = 0 := by decide

theorem witness_SwitchesAndInputsStayAndDelayGrows : ∃ t, step State.reset = .next t :=
  ⟨after (step State.reset), rfl⟩

theorem witness_OnlyTheStoreOperandsCellChanges :
    ∃ t, isIoexec (.mov (at_ 0o10) (at_ 0) (at_ 0o20)) = false ∧
      exec (.mov (at_ 0o10) (at_ 0) (at_ 0o20)) (data 1 2) = .next t ∧
      (∀ o, storeOperand (.mov (at_ 0o10) (at_ 0) (at_ 0o20)) = some o →
        0o21 ≠ (effAddr o (data 1 2)).toNat % (data 1 2).cfg.memWords) ∧
      memGet t.mem 0o20 = 1 :=
  ⟨_, rfl, rfl, fun o h => by cases h; decide, rfl⟩

/-- The drum of vector I4, about to execute. -/
def ready (r : DevResult) (nostop : Bool) : State := drum ioexecWord nostop r

theorem witness_IoexecFrame :
    ∃ t, exec (.ioexec (at_ 0o2000) (at_ 0o300) (at_ 0o20)) (ready ⟨.ok, 7, [(0o2000, 5)]⟩ false) =
        .next t ∧
      0o21 ≠ (effAddr (at_ 0o20) (ready ⟨.ok, 7, [(0o2000, 5)]⟩ false)).toNat % 4096 ∧
      (∀ p ∈ (devPerform 0o2000 (ready ⟨.ok, 7, [(0o2000, 5)]⟩ false)).writes,
        0o21 ≠ p.1.toNat % 4096) ∧
      (ready ⟨.ok, 7, [(0o2000, 5)]⟩ false).cfg.mmr ≠ .ext :=
  ⟨_, rfl, by decide, by simp [devPerform, ready, drum], by decide⟩

theorem witness_PcResultAndFlagWriters :
    (∃ t, exec (.mov (at_ 1) (at_ 0) (at_ 2)) State.reset = .next t ∧
      groupOf (.mov (at_ 1) (at_ 0) (at_ 2)) ≠ .control) ∧
    (∃ t, exec (.jmp (at_ 1) (at_ 5) (at_ 2)) State.reset = .next t ∧
      groupOf (.jmp (at_ 1) (at_ 5) (at_ 2)) = .control) ∧
    ∃ t, exec (.iosetup (at_ 3) (at_ 5) (at_ 2)) (ready ⟨.ok, 7, []⟩ false) = .next t ∧
      groupOf (.iosetup (at_ 3) (at_ 5) (at_ 2)) = .inputOutput :=
  ⟨⟨_, rfl, by decide⟩, ⟨_, rfl, rfl⟩, _, rfl, rfl⟩

theorem witness_OnlyTheListedInstructionsWriteAux :
    ∃ t, exec (.mulNrNn (at_ 0o10) (at_ 0o11) (at_ 0o20))
        (data 0o100400000000001 0o100400000000001) = .next t ∧
      t.aux ≠ (data 0o100400000000001 0o100400000000001).aux :=
  ⟨after (exec (.mulNrNn (at_ 0o10) (at_ 0o11) (at_ 0o20))
    (data 0o100400000000001 0o100400000000001)), rfl, by decide +kernel⟩

theorem witness_IndexDescriptorAndSwitchWriters :
    (∃ t, exec (.looplt (at_ 0) (at_ 0) (at_ 5)) State.reset = .next t ∧
      t.idx ≠ State.reset.idx) ∧
    (∃ t, exec (.mov (at_ 0o10) (at_ 0) (at_ 0o7776)) (overlay .ext 0 [(0o10, 3)]) = .next t ∧
      t.idx ≠ (overlay .ext 0 [(0o10, 3)]).idx) ∧
    ∃ t, exec (.mov (at_ 0o10) (at_ 0) (at_ 0o7777)) (overlay .ext 0 [(0o10, 3)]) = .next t ∧
      t.ir ≠ (overlay .ext 0 [(0o10, 3)]).ir :=
  ⟨⟨_, rfl, by decide⟩, ⟨_, rfl, by decide⟩, _, rfl, by decide⟩

theorem witness_AddFamilyCompletes :
    ∃ r, reads (data 0o101600000000000 0o102440000000000) (at_ 0o10) 0o101600000000000 ∧
      reads (data 0o101600000000000 0o102440000000000) (at_ 0o11) 0o102440000000000 ∧
      addsub .add false false (forceRound 0o101600000000000 0o102440000000000)
        0o101600000000000 0o102440000000000 = .ok r :=
  ⟨0o102740000000000, by decide, by decide, rfl⟩

theorem witness_AddFamilyCompletes_forced :
    forceRound 0o000400000000000 0o600000000000000 = true ∧
      forceRound 0o000400000000000 0o200000000000001 = false := by decide

theorem witness_AddOverflowExactly :
    reads (data 0o177400000000000 0o177400000000000) (at_ 0o10) 0o177400000000000 ∧
      reads (data 0o177400000000000 0o177400000000000) (at_ 0o11) 0o177400000000000 ∧
      addsub .add false false (forceRound 0o177400000000000 0o177400000000000)
        0o177400000000000 0o177400000000000 = .error .addOvf :=
  ⟨by decide, by decide, rfl⟩

theorem witness_RoundBitIsInertAndAddCommutes :
    expOf 0o101600000000000 ≠ expOf 0o102600000000000 ∧
      expOf 0o000400000000000 ≠ expOf 0o177400000000000 := by decide

theorem witness_AddZeroResults :
    (addsub .sub false false false 0o101600000000000 0o102440000000000 = .ok 0o300600000000000 ∧
      signOf 0o300600000000000 = true) ∧
    mantSum .sub 0o101600000000000 0o101600000000000
      (roundBit 0o101600000000000 0o101600000000000 false false) = 0 :=
  ⟨⟨rfl, by decide⟩, by decide⟩

theorem witness_AdderGivesTheAlignedSum :
    (66 = max (expOf 0o101600000000000) (expOf 0o102440000000000) ∧
      0o300000000000 = mantOf 0o101600000000000 / 2 ^ (66 - expOf 0o101600000000000) ∧
      0o440000000000 = mantOf 0o102440000000000 / 2 ^ (66 - expOf 0o102440000000000) ∧
      -0o140000000000 = signedMag (signOf 0o101600000000000) 0o300000000000 -
        signedMag (signOf 0o102440000000000) 0o440000000000) ∧
    (addsub .sub false true false 0o101600000000000 0o102440000000000 = .ok 0o302140000000000) ∧
    addsub .add false true false 0o177400000000000 0o177400000000000 = .error .addOvf :=
  ⟨by decide, rfl, rfl⟩

theorem witness_MulAndLowprodComplete :
    (reads (data 0o101600000000000 0o102440000000000) (at_ 0o10) 0o101600000000000 ∧
      reads (data 0o101600000000000 0o102440000000000) (at_ 0o11) 0o102440000000000 ∧
      mulUnit false false 0o101600000000000 0o102440000000000 = .ok (0o102660000000000, 0)) ∧
    (reads (data 0o177400000000000 0o177400000000000) (at_ 0o10) 0o177400000000000 ∧
      reads (data 0o177400000000000 0o177400000000000) (at_ 0o11) 0o177400000000000 ∧
      mulUnit false false 0o177400000000000 0o177400000000000 = .error .mulOvf) :=
  ⟨⟨by decide, by decide, rfl⟩, by decide, by decide, rfl⟩

theorem witness_ProductWordsAreTheRoundedHalves :
    (mantOf 0o100400000000001 * mantOf 0o100400000000001 < 2 ^ 71 ∧
      2 * (mantOf 0o100400000000001 * mantOf 0o100400000000001) = 0o400000000002 * 2 ^ 36 + 2) ∧
    mantOf 0 * mantOf 0o101600000000000 = 0 ∧
    (64 ≤ expOf 0o100400000000000 + expOf 0 ∧ expOf 0o100400000000000 + expOf 0 ≤ 191) ∧
      (64 ≤ expOf 0o177400000000000 + expOf 0o100400000000000 ∧
        expOf 0o177400000000000 + expOf 0o100400000000000 ≤ 191) := by decide

theorem witness_MulSymmetryAndSign :
    mulUnit false false 0o301600000000000 0o102400000000000 = .ok (0o302600000000000, 0) ∧
      isZero 0o302600000000000 = false := ⟨rfl, by decide⟩

theorem witness_DivCompletes :
    (reads (data 0o102740000000000 0o101600000000000) (at_ 0o10) 0o102740000000000 ∧
      reads (data 0o102740000000000 0o101600000000000) (at_ 0o11) 0o101600000000000 ∧
      divUnit false 0o102740000000000 0o101600000000000 = .ok 0o102500000000000) ∧
    (reads (data 1 0) (at_ 0o10) 1 ∧ reads (data 1 0) (at_ 0o12) 0 ∧
      divUnit false 1 0 = .error .divZero) :=
  ⟨⟨by decide, by decide, rfl⟩, by decide, by decide, rfl⟩

theorem witness_DivChecksTheMantissas :
    divUnit false 0o177400000000000 0o100400000000000 = .error .divOvf ∧
      divUnit false 0o100400000000000 0o100200000000000 = .error .divMovf ∧
      divUnit false 0 0 = .error .divZero := ⟨rfl, rfl, rfl⟩

theorem witness_QuotientIsTheRoundedFraction :
    (mantOf 0o102600000000000 ≠ 0 ∧
      mantOf 0o101400000000000 < 2 * mantOf 0o102600000000000 ∧
      mantOf 0o101400000000000 < mantOf 0o102600000000000 ∧
      divUnit true 0o101400000000000 0o102600000000000 = .ok 0o077525252525252 ∧
      isZero 0o077525252525252 = false) ∧
    (mantOf 0o101600000000000 < 2 * mantOf 0o101600000000000 ∧
      ¬ mantOf 0o101600000000000 < mantOf 0o101600000000000 ∧
      divUnit true 0o101600000000000 0o101600000000000 = .ok 0o101400000000000 ∧
      isZero 0o101400000000000 = false) :=
  ⟨⟨by decide, by decide, by decide, rfl, by decide⟩, by decide, by decide, rfl, by decide⟩

theorem witness_SqrtCompletes :
    (reads (data 0o103400000000000 1) (at_ 0o10) 0o103400000000000 ∧
      (sqrtUnit false 0o103400000000000).toBool = true) ∧
    (reads (data 0o303400000000000 1) (at_ 0o10) 0o303400000000000 ∧
      sqrtUnit false 0o303400000000000 = .error .sqrtNeg) ∧
    (signOf 0o177000000000000 = false ∧ mantOf 0o177000000000000 = 0) ∧
    (signOf 0o103400000000000 = false ∧ mantOf 0o103400000000000 ≠ 0 ∧
      expOf 0o103400000000000 % 2 = 1) ∧
    (signOf 0o102400000000000 = false ∧ mantOf 0o102400000000000 ≠ 0 ∧
      expOf 0o102400000000000 % 2 = 0) :=
  ⟨⟨by decide, by decide +kernel⟩, ⟨by decide, rfl⟩, by decide, by decide, by decide⟩

theorem witness_IsqrtIsTheGreatestRoot : 2 ^ 72 - 1 < 2 ^ 72 ∧ 0 < 2 ^ 72 := by decide

theorem witness_ExponentInstructionsComplete :
    (reads (data 0o101600000000000 1) (at_ 0o10) 0o101600000000000 ∧
      (128 : Int) = expOf 0o101600000000000 + amountOf (effAddr (at_ 0o177) State.reset)) ∧
    (reads (data 0o101600000000000 1) (at_ 0o10) 0o101600000000000 ∧
      (127 : Int) = expOf 0o101600000000000 + amountOf (effAddr (at_ 0o176) State.reset)) ∧
    (reads (data 0o101600000000000 0o102440000000000) (at_ 0o11) 0o102440000000000 ∧
      reads (data 0o101600000000000 0o102440000000000) (at_ 0o10) 0o101600000000000 ∧
      false = (tagOf 0o101600000000000 || tagOf 0o102440000000000) ∧
      (63 : Int) = (expOf 0o101600000000000 : Int) - expOf 0o102440000000000 + 64) := by decide

theorem witness_TwoOperandCodeInstructionsComplete :
    reads (data 0o7070 0o777) (at_ 0o10) 0o7070 ∧ reads (data 0o7070 0o777) (at_ 0o11) 0o777 := by
  decide

theorem witness_OneOperandCodeInstructionsComplete :
    reads (data 0o777777777777777 1) (at_ 0o10) 0o777777777777777 := by decide

theorem witness_RdswReadsASwitch :
    effAddr (at_ 0) State.reset = 0 ∧ effAddr (at_ 1) State.reset = 1 ∧
      effAddr (at_ 2) State.reset = 2 ∧ effAddr (at_ 3) State.reset = 3 ∧
      3 < (effAddr (at_ 4) State.reset).toNat ∧ 3 < (effAddr (at_ 0o7777) State.reset).toNat := by
  decide

theorem witness_XorchkComparesOrStops :
    (reads (data 5 5) (at_ 0o10) 5 ∧ reads (data 5 5) (at_ 0o11) 5) ∧
      (reads (data 5 4) (at_ 0o10) 5 ∧ reads (data 5 4) (at_ 0o11) 4) := by decide

theorem witness_CorruptReadStopsBeforeAnythingElse_operands :
    (firstRead (.sqrt (at_ 1) (at_ 0) (at_ 0)) = some (at_ 1) ∧
      memRead corrupt (effAddr (at_ 1) corrupt) = none) ∧
    (firstRead (.div (at_ 2) (at_ 1) (at_ 0)) = some (at_ 2) ∧
      secondRead (.div (at_ 2) (at_ 1) (at_ 0)) = some (at_ 1) ∧ reads corrupt (at_ 2) 0 ∧
      memRead corrupt (effAddr (at_ 1) corrupt) = none) := by decide

theorem witness_JsrStoresTheMarkerAndJumps :
    Inv State.reset ∧ Inv (overlay .ext 1 []) ∧
      writeTarget (overlay .ext 1 []).cfg (effAddr (at_ 0o7777) (overlay .ext 1 [])) = .instruction ∧
      ∃ marker, marker = encode (.jmp ⟨false, 0⟩ ⟨false, State.reset.pc⟩ ⟨false, 0⟩) ∧
        ∃ m, m = memWrite (effAddr (at_ 5) State.reset) marker { State.reset with status := .ok } :=
  ⟨by decide, by decide, by decide, _, rfl, _, rfl⟩

theorem witness_JsrStoresTheMarkerAndJumps_overlay :
    memRead (overlay .ext 0o016000002007777 []) 0o100 = some 0o016000002007777 ∧
      decodeWith (overlay .ext 0o016000002007777 []).cfg.opmap 0o016000002007777 =
        .jsr (at_ 0) (at_ 0o200) (at_ 0o7777) ∧
      operationOf (overlay .ext 0o016000002007777 []).cfg.opmap 0o56 = 0o56 ∧
      writeTarget (overlay .ext 0o016000002007777 []).cfg
        (effAddr (at_ 0o7777) (overlay .ext 0o016000002007777 [])) = .instruction := by decide

theorem witness_LoopsComplete :
    true = decide (State.reset.idx.toNat < (effAddr (at_ 1) State.reset).toNat) ∧
      false = decide (State.reset.idx.toNat < (effAddr (at_ 0) State.reset).toNat) ∧
      true = decide ((effAddr (at_ 0) State.reset).toNat ≤ State.reset.idx.toNat) ∧
      false = decide ((effAddr (at_ 1) State.reset).toNat ≤ State.reset.idx.toNat) := by decide

theorem witness_HaltsAndUnimplementedOpcodes :
    State.reset.cfg.alt = false ∧
      { State.reset.cfg with alt := true }.alt = true := by decide

theorem witness_IosetupLatchesOrConflicts :
    ioSelect (effAddr (at_ 3) (ready ⟨.ok, 7, []⟩ false)) (ready ⟨.ok, 7, []⟩ false) =
        .device .drum ∧
      ioSelect (effAddr (at_ 7) (ready ⟨.ok, 7, []⟩ false)) (ready ⟨.ok, 7, []⟩ false) =
        .conflict := ⟨rfl, rfl⟩

theorem witness_IoexecCompletes :
    State.reset.pend = .idle ∧ State.reset.iod.valid = false ∧
    ∀ st nostop, (ready ⟨st, 7, [(0o2000, 5), (0o7777, 6)]⟩ nostop).pend = .idle ∧
      (ready ⟨st, 7, [(0o2000, 5), (0o7777, 6)]⟩ nostop).iod.valid = true ∧
      devPerform 0o2000 (ready ⟨st, 7, [(0o2000, 5), (0o7777, 6)]⟩ nostop) =
        ⟨st, 7, [(0o2000, 5), (0o7777, 6)]⟩ ∧
      (∀ p ∈ [((0o2000 : Addr), (5 : Word)), (0o7777, 6)],
        writeTarget (ready ⟨st, 7, [(0o2000, 5), (0o7777, 6)]⟩ nostop).cfg p.1 ≠ .instruction) ∧
      ioNostop 3 (ready ⟨st, 7, [(0o2000, 5), (0o7777, 6)]⟩ nostop) = nostop :=
  ⟨rfl, rfl, fun _ _ => ⟨rfl, rfl, rfl, by
    simp only [List.mem_cons, List.not_mem_nil, or_false, forall_eq_or_imp, forall_eq]
    exact ⟨nofun, nofun⟩, rfl⟩⟩


end Sys2Proof.Tests
end

section
/-! What the host's reset leaves (spec/10_state.md R24, spec/70_reset_and_hazards.md R245): one rule per
field of `hostReset`, and the reading of cleared memory. -/

namespace Sys2Proof.Machine

/-! ### Memory -/

@[simp] theorem hostReset_mem (s : State) : (hostReset s).mem = [] := rfl

/-- R24: "every `MEM` cell 0", since no cell is listed. -/
theorem memGet_hostReset (s : State) (a : Nat) : memGet (hostReset s).mem a = 0 :=
  memGet_eq_unlisted (hostReset s).mem a (by simp)

/-! ### Registers, switches, descriptor and delay -/

@[simp] theorem hostReset_pc (s : State) : (hostReset s).pc = 0 := rfl

@[simp] theorem hostReset_ir (s : State) : (hostReset s).ir = 0 := rfl

@[simp] theorem hostReset_idx (s : State) : (hostReset s).idx = 0 := rfl

@[simp] theorem hostReset_res (s : State) : (hostReset s).res = 0 := rfl

@[simp] theorem hostReset_cf (s : State) : (hostReset s).cf = false := rfl

@[simp] theorem hostReset_aux (s : State) : (hostReset s).aux = 0 := rfl

@[simp] theorem hostReset_sw0 (s : State) : (hostReset s).sw0 = 0 := rfl

@[simp] theorem hostReset_sw1 (s : State) : (hostReset s).sw1 = 0 := rfl

@[simp] theorem hostReset_sw2 (s : State) : (hostReset s).sw2 = 0 := rfl

@[simp] theorem hostReset_sw3 (s : State) : (hostReset s).sw3 = 0 := rfl

@[simp] theorem hostReset_iod_valid (s : State) : (hostReset s).iod.valid = false := rfl

@[simp] theorem hostReset_delay (s : State) : (hostReset s).delay = 0 := rfl

/-! ### What reset does not touch -/

@[simp] theorem hostReset_cfg (s : State) : (hostReset s).cfg = s.cfg := rfl

@[simp] theorem hostReset_devices (s : State) : (hostReset s).devices = s.devices := rfl

/-- A machine right after reset is a fixed point of reset. -/
@[simp] theorem hostReset_reset : hostReset State.reset = State.reset := rfl

/-- Settles O28: cleared memory reads 0 everywhere, and every other value is a field rule of
`hostReset`. -/
theorem resetValues : Obligations.ResetValues := fun s =>
  ⟨memGet_hostReset s, hostReset_pc s, hostReset_ir s, hostReset_idx s, hostReset_res s,
    hostReset_cf s, hostReset_aux s, hostReset_sw0 s, hostReset_sw1 s, hostReset_sw2 s,
    hostReset_sw3 s, hostReset_iod_valid s, hostReset_delay s, hostReset_cfg s,
    hostReset_devices s, hostReset_reset⟩

end Sys2Proof.Machine
end

section
/-! RDSW, the console switches and the completing tail of the code/logical group
(spec/45_code_logical.md R156, R158). -/

namespace Sys2Proof.Machine

open Sys2Proof.Claims

/-! ### The switch an address names -/

@[simp] theorem switchOf_zero (s : State) : switchOf 0 s = some s.sw0 := rfl

@[simp] theorem switchOf_one (s : State) : switchOf 1 s = some s.sw1 := rfl

@[simp] theorem switchOf_two (s : State) : switchOf 2 s = some s.sw2 := rfl

@[simp] theorem switchOf_three (s : State) : switchOf 3 s = some s.sw3 := rfl

/-- R55: "legal numbers are 0 to 3", so the match falls through to its last arm. -/
theorem switchOf_eq_none {a : Addr} (h : 3 < a.toNat) (s : State) : switchOf a s = none := by
  unfold switchOf
  split
  case h_5 => rfl
  all_goals omega

/-! ### The instruction, by whether there is such a switch -/

/-- R156's `logfinish` in the words of the claims. -/
theorem logFinish_eq_codeDone (r : Word) (a3 : Operand) (s : State) :
    logFinish r (effAddr a3 s) s = codeDone r a3 s := rfl

theorem exec_rdsw_of_switch {a1 : Operand} {s : State} {w : Word}
    (h : switchOf (effAddr a1 s) s = some w) (a2 a3 : Operand) :
    exec (.rdsw a1 a2 a3) s = codeDone w a3 s := by
  simp only [exec, execRdsw, h, logFinish_eq_codeDone]

theorem exec_rdsw_of_no_switch {a1 : Operand} {s : State}
    (h : switchOf (effAddr a1 s) s = none) (a2 a3 : Operand) :
    exec (.rdsw a1 a2 a3) s = .next (onlyStatus .badSwitch s) := by
  simp only [exec, execRdsw, h, raise, onlyStatus]

/-- Settles O52: each legal number names its switch, and any other number names none. -/
theorem rdswReadsASwitch : Obligations.RdswReadsASwitch := by
  intro a1 a2 a3 s
  refine ⟨fun h => ?_, fun h => ?_, fun h => ?_, fun h => ?_, fun h => ?_, rfl⟩
  · exact exec_rdsw_of_switch (by rw [h, switchOf_zero]) a2 a3
  · exact exec_rdsw_of_switch (by rw [h, switchOf_one]) a2 a3
  · exact exec_rdsw_of_switch (by rw [h, switchOf_two]) a2 a3
  · exact exec_rdsw_of_switch (by rw [h, switchOf_three]) a2 a3
  · exact exec_rdsw_of_no_switch (switchOf_eq_none h s) a2 a3

end Sys2Proof.Machine
end

section
/-! The rollback bookkeeping (spec/60_exceptions.md R218, R219, R226): the statuses of the two rollback
classes, and what `finish` does for them and for all others. -/

namespace Sys2Proof.Machine

/-! ### The statuses of the two classes -/

/-- The statuses in the test of R226's `finish`, in the rule's order. -/
def rollbackStatuses : List Status :=
  [.sqrtNeg, .cardCksum, .cardRead, .tapeRead, .halt, .cmpFail, .noCard, .divZero, .divMovf]

/-- The model's test is membership in R226's list, status by status. -/
theorem mem_rollbackStatuses (st : Status) : st ∈ rollbackStatuses ↔ rollsBack st = true := by
  cases st <;> decide

/-! ### The bookkeeping, by whether the status rolls back -/

/-- The fatal class and `OK` (R217): no bookkeeping. -/
theorem finish_of_not_rollsBack {s : State} (h : rollsBack s.status = false) : finish s = s := by
  simp [finish, h]

/-- The two rollback classes, where the cell before `PC` reads without a fault. -/
theorem finish_of_rollsBack {s : State} {w : Word} (h : rollsBack s.status = true)
    (hr : memRead s (s.pc - 1) = some w) : finish s = { s with pc := s.pc - 1, ir := w } := by
  simp only [finish, h, if_true, hr]

/-- Settles O20: R226's list is the model's test, and each outcome of the test has its equation. -/
theorem rollbackBookkeeping : Obligations.RollbackBookkeeping := by
  intro s
  refine ⟨fun hmem w hr => ?rolls, fun hmem => ?stays⟩
  case rolls =>
    exact finish_of_rollsBack ((mem_rollbackStatuses s.status).1 hmem) hr
  case stays =>
    have hno : rollsBack s.status = false :=
      Bool.eq_false_iff.2 fun h => hmem ((mem_rollbackStatuses s.status).2 h)
    exact finish_of_not_rollsBack hno

end Sys2Proof.Machine
end

section
/-! Decoder and encoder (spec/30_encoding.md R50 to R60): the table of R56 as a bijection between opcodes
and constructors, a word put together from its own fields, and the modifier bits of R53 under any opcode
map. -/

namespace Sys2Proof

open Sys2Proof.Machine Sys2Proof.Claims

/-! ### The table: opcodes and constructors -/

/-- An instruction is the row of its own opcode, with its own operands. -/
theorem instrOf_opcodeOf {i : Instr} {a1 a2 a3 : Operand} (h : operandsOf i = (a1, a2, a3)) :
    instrOf (opcodeOf i).toNat a1 a2 a3 = i := by
  cases i <;> cases h <;> rfl

/-- Each of the 64 opcodes selects a row with that opcode. -/
theorem opcodeOf_instrOf (op : BitVec 6) (a1 a2 a3 : Operand) :
    opcodeOf (instrOf op.toNat a1 a2 a3) = op := by
  obtain ⟨⟨n, hn⟩⟩ := op
  interval_cases n <;> rfl

@[simp] theorem operandsOf_instrOf (n : Nat) (a1 a2 a3 : Operand) :
    operandsOf (instrOf n a1 a2 a3) = (a1, a2, a3) := by
  unfold instrOf
  split <;> rfl

/-- An instruction is known by its opcode and its operands. -/
theorem instr_ext {i j : Instr} (hop : opcodeOf i = opcodeOf j) (hargs : operandsOf i = operandsOf j) :
    i = j := by
  rw [← instrOf_opcodeOf (i := i) (operandsOf i).eta.symm, hop, hargs]
  exact instrOf_opcodeOf (operandsOf j).eta.symm

/-! ### What the decoder answers -/

@[simp] theorem opcodeOf_decodeWith (m : OpMap) (w : Word) :
    opcodeOf (decodeWith m w) = operationOf m (opcOf w) :=
  opcodeOf_instrOf ..

@[simp] theorem operandsOf_decodeWith (m : OpMap) (w : Word) :
    operandsOf (decodeWith m w) = (operand1 w, operand2 w, operand3 w) :=
  operandsOf_instrOf ..

theorem opcodeOf_decode (w : Word) : opcodeOf (decode w) = opcOf w :=
  opcodeOf_decodeWith [] w

/-- A word built for an instruction with any opcode holds its operands. -/
theorem operands_encodeAs (op : BitVec 6) (i : Instr) :
    (operand1 (encodeAs op i), operand2 (encodeAs op i), operand3 (encodeAs op i)) = operandsOf i := by
  unfold encodeAs
  rw [operand1_ipack, operand2_ipack, operand3_ipack]

/-- A word whose opcode runs as the instruction's row under a map decodes to the instruction. -/
theorem decodeWith_encodeAs {m : OpMap} {op : BitVec 6} {i : Instr}
    (h : operationOf m op = opcodeOf i) : decodeWith m (encodeAs op i) = i :=
  instr_ext (by rw [opcodeOf_decodeWith, opcOf_encodeAs, h])
    (by rw [operandsOf_decodeWith, operands_encodeAs])

/-- R60 undoes R52: decoding what the assembler wrote. -/
theorem decode_encode (i : Instr) : decode (encode i) = i :=
  decodeWith_encodeAs (m := []) rfl

/-! ### A word put together from its own fields -/

theorem atagBits_operands_toNat (w : Word) :
    (atagBits (operand1 w) (operand2 w) (operand3 w)).toNat = w.toNat / 2 ^ 42 := by
  have hw := w.isLt
  have bit (i : Nat) : (w.getLsbD i).toNat = w.toNat / 2 ^ i % 2 := by
    rw [getLsbD_eq_decide]
    rcases Nat.mod_two_eq_zero_or_one (w.toNat / 2 ^ i) with h | h <;> simp [h]
  rw [atagBits_toNat]
  simp only [operand1, operand2, operand3, bit]
  omega

/-- R50, R51: the tag, the opcode and the three addresses are all there is in a word. -/
theorem ipack_fields (w : Word) :
    ipack (atagBits (operand1 w) (operand2 w) (operand3 w)) (opcOf w)
      (operand1 w).addr (operand2 w).addr (operand3 w).addr = w := by
  have hw := w.isLt
  apply BitVec.eq_of_toNat_eq
  rw [ipack_toNat, atagBits_operands_toNat]
  simp only [opcOf, operand1, operand2, operand3, toNat_extract]
  omega

theorem encode_decode (w : Word) : encode (decode w) = w := by
  have hargs : operandsOf (decode w) = (operand1 w, operand2 w, operand3 w) :=
    operandsOf_decodeWith [] w
  unfold encode encodeAs
  rw [opcodeOf_decode, hargs]
  exact ipack_fields w

/-! ### Opcode maps -/

/-- Every opcode is one of those that `opcodeUnder` searches. -/
theorem mem_opcodes (op : BitVec 6) : op ∈ (List.range 64).map (BitVec.ofNat 6) :=
  List.mem_map.2 ⟨op.toNat, List.mem_range.2 op.isLt, by simp⟩

/-- Where the search finds no opcode, none selects the instruction's row. -/
theorem operationOf_ne_of_opcodeUnder_none {m : OpMap} {i : Instr} (h : opcodeUnder m i = none)
    (op : BitVec 6) : operationOf m op ≠ opcodeOf i := by
  have := List.find?_eq_none.1 h op (mem_opcodes op)
  simpa using this

/-- By the table of R56 each instruction has exactly its own opcode. -/
theorem opcodeUnder_nil (i : Instr) : opcodeUnder [] i = some (opcodeOf i) := by
  cases h : opcodeUnder [] i with
  | none => exact absurd rfl (operationOf_ne_of_opcodeUnder_none h (opcodeOf i))
  | some op => rw [← operationOf_opcodeUnder h, operationOf_nil]

/-- Settles O1: an instruction is known by its opcode and operands, and its word holds both. -/
theorem decodeOfEncodeIsTheInstruction : Obligations.DecodeOfEncodeIsTheInstruction := by
  refine ⟨decode_encode, fun m i w h => ?found, fun m i h w hw => ?none, fun i => ?table⟩
  case found =>
    obtain ⟨op, hop, rfl⟩ := Option.map_eq_some_iff.1 h
    exact decodeWith_encodeAs (operationOf_opcodeUnder hop)
  case none =>
    have hnone : opcodeUnder m i = none := Option.map_eq_none_iff.1 h
    exact operationOf_ne_of_opcodeUnder_none hnone (opcOf w) (by rw [← hw, opcodeOf_decodeWith])
  case table => rw [encodeWith, opcodeUnder_nil]; rfl

/-- Settles O2: the fields of a word are all of it. -/
theorem encodeOfDecodeIsTheWord : Obligations.EncodeOfDecodeIsTheWord := encode_decode

/-- Settles O3: the number of a packed word, with the tag as the sum of R60. -/
theorem encodedWordIsTheFieldFormula : Obligations.EncodedWordIsTheFieldFormula := by
  intro i a1 a2 a3 h
  unfold encode encodeAs
  rw [h, ipack_toNat, atagBits_toNat]

/-- Settles O4: the rows by the table of `opcodeOf`, the words by evaluation. -/
theorem specWordsDecode : Obligations.SpecWordsDecode :=
  ⟨fun _ _ _ => ⟨rfl, rfl, rfl, rfl⟩, by decide, by decide, by decide, by decide, by decide, by decide,
    by decide⟩

/-! ### The opcodes without a handler -/

/-- R57 on the constructors: the rows `057` and `077` are the two without a handler. -/
theorem wellFormed_iff (i : Instr) : wellFormed i = true ↔ opcodeOf i ≠ 0o57 ∧ opcodeOf i ≠ 0o77 := by
  cases i <;> simp [wellFormed, opcodeOf]

/-- Settles O5: a word's row is the operation of its opcode. -/
theorem onlyTwoOpcodesHaveNoHandler : Obligations.OnlyTwoOpcodesHaveNoHandler :=
  ⟨fun w => by rw [wellFormed_iff, opcodeOf_decode],
    fun m w => by rw [wellFormed_iff, opcodeOf_decodeWith]⟩

/-! ### The modifier bits -/

/-- R53: whatever row an opcode runs as, the bits that the row uses as modifiers are the opcode's own. -/
theorem operationOf_modifiers (m : OpMap) (op : BitVec 6) :
    operationOf m op &&& modifierBits (operationOf m op) = op &&& modifierBits (operationOf m op) := by
  rcases operationOf_cases m op with h | ⟨row, -, h⟩
  · rw [h]
  · rw [h, modifierBits_withModifiers, withModifiers_modifiers]

/-- A modifier bit of the decoded instruction's row is that bit of the word's opcode. -/
theorem getLsbD_of_decodeWith {m : OpMap} {w : Word} {i : Instr} (h : decodeWith m w = i) {k : Nat}
    (hk : (modifierBits (opcodeOf i)).getLsbD k = true) :
    (opcodeOf i).getLsbD k = (opcOf w).getLsbD k := by
  have hbits := congrArg (BitVec.getLsbD · k) (operationOf_modifiers m (opcOf w))
  rw [← opcodeOf_decodeWith, h] at hbits
  simpa [hk] using hbits

section
variable (op : AddOp) (nr nn b : Bool) (a1 a2 a3 : Operand)

theorem opcodeOf_addInstr_bits :
    modifierBits (opcodeOf (addInstr op nr nn a1 a2 a3)) = 0o60 ∧
      (opcodeOf (addInstr op nr nn a1 a2 a3)).getLsbD 4 = nr ∧
      (opcodeOf (addInstr op nr nn a1 a2 a3)).getLsbD 5 = nn := by
  cases op <;> cases nr <;> cases nn <;> simp [addInstr, opcodeOf, modifierBits]

theorem opcodeOf_mulInstr_bits :
    modifierBits (opcodeOf (mulInstr nr nn a1 a2 a3)) = 0o60 ∧
      (opcodeOf (mulInstr nr nn a1 a2 a3)).getLsbD 4 = nr ∧
      (opcodeOf (mulInstr nr nn a1 a2 a3)).getLsbD 5 = nn := by
  cases nr <;> cases nn <;> simp [mulInstr, opcodeOf, modifierBits]

theorem opcodeOf_divInstr_bits :
    modifierBits (opcodeOf (divInstr nr a1 a2 a3)) = 0o20 ∧
      (opcodeOf (divInstr nr a1 a2 a3)).getLsbD 4 = nr := by
  cases nr <;> simp [divInstr, opcodeOf, modifierBits]

theorem opcodeOf_sqrtInstr_bits :
    modifierBits (opcodeOf (sqrtInstr nr a1 a2 a3)) = 0o20 ∧
      (opcodeOf (sqrtInstr nr a1 a2 a3)).getLsbD 4 = nr := by
  cases nr <;> simp [sqrtInstr, opcodeOf, modifierBits]

theorem opcodeOf_lowInstr_bits :
    modifierBits (opcodeOf (lowInstr b nn a1 a2 a3)) = 0o40 ∧
      (opcodeOf (lowInstr b nn a1 a2 a3)).getLsbD 5 = nn := by
  cases b <;> cases nn <;> simp [lowInstr, opcodeOf, modifierBits]

theorem opcodeOf_expImmediateInstr_bits :
    modifierBits (opcodeOf (expImmediateInstr b nn a1 a2 a3)) = 0o40 ∧
      (opcodeOf (expImmediateInstr b nn a1 a2 a3)).getLsbD 5 = nn := by
  cases b <;> cases nn <;> simp [expImmediateInstr, opcodeOf, modifierBits]

theorem opcodeOf_expOperandInstr_bits :
    modifierBits (opcodeOf (expOperandInstr b nn a1 a2 a3)) = 0o40 ∧
      (opcodeOf (expOperandInstr b nn a1 a2 a3)).getLsbD 5 = nn := by
  cases b <;> cases nn <;> simp [expOperandInstr, opcodeOf, modifierBits]

end

/-- A modifier of a decoded row is the word's opcode bit, given which bits the row uses. -/
theorem modifier_of_decodeWith {m : OpMap} {w : Word} {i : Instr} {bits : BitVec 6} {k : Nat} {v : Bool}
    (h : decodeWith m w = i) (hbits : modifierBits (opcodeOf i) = bits)
    (hk : bits.getLsbD k = true) (hv : (opcodeOf i).getLsbD k = v) : v = (opcOf w).getLsbD k := by
  rw [← hv]
  exact getLsbD_of_decodeWith h (by rw [hbits, hk])

/-- Settles O6: the rows of each family use their modifier bits, and those are the opcode's. -/
theorem modifiersAreOpcodeBits : Obligations.ModifiersAreOpcodeBits := by
  intro m w nr nn a1 a2 a3
  refine ⟨?addMul, ?divSqrt, ?lowExp⟩
  case addMul =>
    rintro (⟨op, h⟩ | h)
    · obtain ⟨hb, h4, h5⟩ := opcodeOf_addInstr_bits op nr nn a1 a2 a3
      exact ⟨modifier_of_decodeWith h hb rfl h4, modifier_of_decodeWith h hb rfl h5⟩
    · obtain ⟨hb, h4, h5⟩ := opcodeOf_mulInstr_bits nr nn a1 a2 a3
      exact ⟨modifier_of_decodeWith h hb rfl h4, modifier_of_decodeWith h hb rfl h5⟩
  case divSqrt =>
    rintro (h | h)
    · obtain ⟨hb, h4⟩ := opcodeOf_divInstr_bits nr a1 a2 a3
      exact modifier_of_decodeWith h hb rfl h4
    · obtain ⟨hb, h4⟩ := opcodeOf_sqrtInstr_bits nr a1 a2 a3
      exact modifier_of_decodeWith h hb rfl h4
  case lowExp =>
    rintro ⟨b, h | h | h⟩
    · obtain ⟨hb, h5⟩ := opcodeOf_lowInstr_bits nn b a1 a2 a3
      exact modifier_of_decodeWith h hb rfl h5
    · obtain ⟨hb, h5⟩ := opcodeOf_expImmediateInstr_bits nn b a1 a2 a3
      exact modifier_of_decodeWith h hb rfl h5
    · obtain ⟨hb, h5⟩ := opcodeOf_expOperandInstr_bits nn b a1 a2 a3
      exact modifier_of_decodeWith h hb rfl h5

end Sys2Proof
end

section
/-! The numeric word (spec/40_word_model.md R70 to R77): `pack` as a number and the fields it gives back,
the word as the sum of its fields, canonical zero, and the closed form of the normalization loop. -/

namespace Sys2Proof.Machine

/-! ### Fields as numbers -/

theorem expOf_eq (w : Word) : expOf w = w.toNat / 2 ^ 36 % 2 ^ 7 := toNat_extract ..

theorem mantOf_eq (w : Word) : mantOf w = w.toNat % 2 ^ 36 := by
  rw [mantOf, toNat_extract, pow_zero, Nat.div_one]

theorem expOf_lt (w : Word) : expOf w < 128 := (w.extractLsb' 36 7).isLt

theorem mantOf_lt (w : Word) : mantOf w < 2 ^ 36 := (w.extractLsb' 0 36).isLt

/-- A word is the weighted sum of its fields (R70). -/
theorem toNat_eq_fields (w : Word) :
    w.toNat = (tagOf w).toNat * 2 ^ 44 + (signOf w).toNat * 2 ^ 43 + expOf w * 2 ^ 36 + mantOf w := by
  have hw := w.isLt
  have bit (i : Nat) : (w.getLsbD i).toNat = w.toNat / 2 ^ i % 2 := by
    rw [getLsbD_eq_decide]
    rcases Nat.mod_two_eq_zero_or_one (w.toNat / 2 ^ i) with h | h <;> simp [h]
  rw [tagOf, signOf, bit, bit, expOf_eq, mantOf_eq]
  omega

/-! ### `pack` -/

/-- R72 without its ranges: exponent and mantissa are cut to their fields. -/
theorem pack_toNat (s : Bool) (e : Int) (m : Nat) (t : Bool) :
    (pack s e m t).toNat =
      t.toNat * 2 ^ 44 + s.toNat * 2 ^ 43 + (e % 128).toNat * 2 ^ 36 + m % 2 ^ 36 := by
  unfold pack
  rw [toNat_append_eq, toNat_append_eq, toNat_append_eq, toNat_ofBool_eq, toNat_ofBool_eq,
    BitVec.toNat_ofInt, BitVec.toNat_ofNat]
  norm_num only
  omega

@[simp] theorem tagOf_pack (s : Bool) (e : Int) (m : Nat) (t : Bool) : tagOf (pack s e m t) = t := by
  rw [tagOf, getLsbD_eq_decide, pack_toNat]
  refine Eq.trans (congrArg (fun n => decide (n = 1)) ?_) (decide_toNat_eq_one t)
  have := t.toNat_le; have := s.toNat_le
  omega

@[simp] theorem signOf_pack (s : Bool) (e : Int) (m : Nat) (t : Bool) : signOf (pack s e m t) = s := by
  rw [signOf, getLsbD_eq_decide, pack_toNat]
  refine Eq.trans (congrArg (fun n => decide (n = 1)) ?_) (decide_toNat_eq_one s)
  have := t.toNat_le; have := s.toNat_le
  omega

theorem expOf_pack {s : Bool} {e : Int} {m : Nat} {t : Bool} (h0 : 0 ≤ e) (h1 : e ≤ 127) :
    (expOf (pack s e m t) : Int) = e := by
  rw [expOf_eq, pack_toNat]
  have := t.toNat_le; have := s.toNat_le
  omega

theorem mantOf_pack {s : Bool} {e : Int} {m : Nat} {t : Bool} (h : m < 2 ^ 36) :
    mantOf (pack s e m t) = m := by
  rw [mantOf_eq, pack_toNat]
  omega

/-- Settles O7: the sum of R72 with fields in range, and each field's rule. -/
theorem packPlacesEveryField : Obligations.PackPlacesEveryField := by
  intro s t e m h0 h1 hm
  refine ⟨?_, tagOf_pack .., signOf_pack .., expOf_pack h0 h1, mantOf_pack hm⟩
  rw [pack_toNat]
  omega

/-! ### Canonical zero -/

/-- R73 as a number: the word without its tag bit is 0. -/
theorem isZero_iff_mod (w : Word) : isZero w = true ↔ w.toNat % 2 ^ 44 = 0 := by
  rw [isZero, beq_iff_eq, ← BitVec.toNat_inj, toNat_extract, pow_zero, Nat.div_one]
  rfl

theorem isZero_iff (w : Word) :
    isZero w = true ↔ signOf w = false ∧ expOf w = 0 ∧ mantOf w = 0 := by
  have hfields := toNat_eq_fields w
  have he := expOf_lt w
  have hm := mantOf_lt w
  have hs : (signOf w).toNat = 0 ↔ signOf w = false := by simp
  have hs1 := (signOf w).toNat_le
  rw [isZero_iff_mod, ← hs]
  omega

@[simp] theorem isZero_zeroWord (t : Bool) : isZero (zeroWord t) = true := by cases t <;> decide

@[simp] theorem signOf_zeroWord (t : Bool) : signOf (zeroWord t) = false := signOf_pack ..

@[simp] theorem tagOf_zeroWord (t : Bool) : tagOf (zeroWord t) = t := tagOf_pack ..

@[simp] theorem mantOf_zeroWord (t : Bool) : mantOf (zeroWord t) = 0 := mantOf_pack (by norm_num)

/-! ### Left-normalization -/

/-- With the top bit set the closed form shifts by no place. -/
theorem normalized_already {s t : Bool} {e : Int} {m : Nat} (hm : m < 2 ^ 36) (he : 0 ≤ e)
    (htop : Nat.log2 m = 35) :
    pack s e m t =
      if e - (35 - Nat.log2 m : Nat) < 0 then zeroWord t
      else pack s (e - (35 - Nat.log2 m : Nat)) (m * 2 ^ (35 - Nat.log2 m) % 2 ^ 36) t := by
  simp only [htop, Nat.sub_self, pow_zero, mul_one, Nat.cast_zero, sub_zero, if_neg (not_lt.2 he),
    Nat.mod_eq_of_lt hm]

/-- The loop with enough shifts left to bring the highest bit of the mantissa to bit 35. -/
theorem normalizeLoop_eq (s t : Bool) (n : Nat) (e : Int) (m : Nat) (hm0 : m ≠ 0) (hm : m < 2 ^ 36)
    (he : 0 ≤ e) (hn : 35 - Nat.log2 m ≤ n) :
    normalizeLoop s t n e m =
      if e - (35 - Nat.log2 m : Nat) < 0 then zeroWord t
      else pack s (e - (35 - Nat.log2 m : Nat)) (m * 2 ^ (35 - Nat.log2 m) % 2 ^ 36) t := by
  have hlog : Nat.log2 m < 36 := (Nat.log2_lt hm0).2 hm
  -- the top bit of the mantissa is set exactly when no shift is needed
  have htop : 2 ^ 35 ≤ m ↔ Nat.log2 m = 35 := by
    rw [← Nat.le_log2 hm0]; omega
  induction n generalizing e m with
  | zero =>
    exact normalized_already hm he (by omega)
  | succ n ih =>
    unfold normalizeLoop
    by_cases h35 : Nat.log2 m = 35
    · rw [if_pos (htop.2 h35)]
      exact normalized_already hm he h35
    · have hsmall : m * 2 < 2 ^ 36 := by have := htop.not.2 h35; omega
      have hdouble : Nat.log2 (m * 2) = Nat.log2 m + 1 := by
        rw [mul_comm]; exact Nat.log2_two_mul hm0
      have hk : 35 - Nat.log2 m = (35 - Nat.log2 (m * 2)) + 1 := by omega
      rw [if_neg (htop.not.2 h35), Nat.mod_eq_of_lt hsmall, hk]
      by_cases hneg : e - 1 < 0
      · rw [if_pos hneg, if_pos (by omega)]
      · rw [if_neg hneg, ih (e - 1) (m * 2) (by omega) hsmall (by omega) (by omega) (by omega)
          (by rw [← Nat.le_log2 (by omega : m * 2 ≠ 0)]; omega)]
        have he1 (k : Nat) : e - 1 - (k : Int) = e - ((k + 1 : Nat) : Int) := by omega
        rw [he1, mul_assoc, ← pow_succ']

theorem normalize_eq (s t : Bool) (e : Int) (m : Nat) (hm : m < 2 ^ 36) :
    normalize s e m t =
      if m = 0 ∨ e < 0 ∨ e - (35 - Nat.log2 m : Nat) < 0 then zeroWord t
      else pack s (e - (35 - Nat.log2 m : Nat)) (m * 2 ^ (35 - Nat.log2 m) % 2 ^ 36) t := by
  unfold normalize
  by_cases hm0 : m = 0
  · simp [hm0]
  by_cases he : e < 0
  · simp [he]
  rw [if_neg hm0, if_neg he, normalizeLoop_eq s t 35 e m hm0 hm (by omega) (by omega)]
  simp [hm0, he]

/-- Settles O8: the closed form of the loop, behind its two tests for zero. -/
theorem normalizeIsItsClosedForm : Obligations.NormalizeIsItsClosedForm := by
  rintro s t e m k hm rfl
  exact normalize_eq s t e m hm

/-- The shifted mantissa has its top bit set. -/
theorem normalized_mant_ne_zero {m : Nat} (hm0 : m ≠ 0) (hm : m < 2 ^ 36) :
    m * 2 ^ (35 - Nat.log2 m) % 2 ^ 36 ≠ 0 := by
  have hlog : Nat.log2 m < 36 := (Nat.log2_lt hm0).2 hm
  have hlt : m * 2 ^ (35 - Nat.log2 m) < 2 ^ 36 := by
    calc m * 2 ^ (35 - Nat.log2 m) < 2 ^ (Nat.log2 m + 1) * 2 ^ (35 - Nat.log2 m) :=
          Nat.mul_lt_mul_of_pos_right Nat.lt_log2_self (by positivity)
      _ = 2 ^ 36 := by rw [← pow_add]; congr 1; omega
  rw [Nat.mod_eq_of_lt hlt]
  positivity

/-- R77: "`normalize` never returns a set sign with a zero mantissa". -/
theorem normalize_mant_ne_zero {s t : Bool} {e : Int} {m : Nat} (hm : m < 2 ^ 36)
    (h : signOf (normalize s e m t) = true) : mantOf (normalize s e m t) ≠ 0 := by
  rw [normalize_eq s t e m hm] at h ⊢
  split_ifs at h ⊢ with hz
  · simp at h
  · rw [mantOf_pack (Nat.mod_lt _ (by positivity))]
    exact normalized_mant_ne_zero (fun h0 => hz (.inl h0)) hm

/-- Settles O9: the zero test sees sign, exponent and mantissa alone, and a normalized mantissa has its
top bit set. -/
theorem canonicalZeroProperties : Obligations.CanonicalZeroProperties := by
  refine ⟨isZero_iff, fun v w hs he hm => ?_, isZero_zeroWord,
    fun s t e m _ hm => normalize_mant_ne_zero hm⟩
  rw [Bool.eq_iff_iff, isZero_iff, isZero_iff, hs, he, hm]

end Sys2Proof.Machine
end

section
/-! Memory, the register overlay and effective addresses (spec/20_memory.md R30 to R41, R54, R249): the
two primitives at the reduced address, the rules for an ordinary cell, and what a read depends on. -/

namespace Sys2Proof.Machine

open Sys2Proof.Claims

/-! ### The reduced address -/

theorem reduceAddr_eq {cfg : Inputs} {a b : Addr} (h : b.toNat = a.toNat % cfg.memWords) :
    reduceAddr cfg a = b :=
  BitVec.eq_of_toNat_eq (by rw [reduceAddr_toNat, h])

theorem overlaid_eq_true (cfg : Inputs) (a : Addr) :
    overlaid cfg a = true ↔ cfg.mmr ≠ .off ∧ 0o7770 ≤ a.toNat := by
  simp [overlaid]

theorem overlaid_eq_false (cfg : Inputs) (a : Addr) :
    overlaid cfg a = false ↔ cfg.mmr = .off ∨ a.toNat < 0o7770 := by
  rw [← Bool.not_eq_true, overlaid_eq_true, not_and_or, not_not, not_le]

/-- An address names an ordinary cell when its reduced address is neither 0 nor overlaid (R36). -/
theorem writeTarget_cell {cfg : Inputs} {a b : Addr} (hb : reduceAddr cfg a = b) (h0 : b ≠ 0)
    (hov : cfg.mmr = .off ∨ b.toNat < 0o7770) : writeTarget cfg a = .cell := by
  rw [writeTarget, hb, targetAt_cell]
  exact ⟨h0, (overlaid_eq_false cfg b).2 hov⟩

/-- Only the `EXT` mode lets a store reach `IR` (R36). -/
theorem writeTarget_ne_instruction {cfg : Inputs} (h : cfg.mmr ≠ .ext) (a : Addr) :
    writeTarget cfg a ≠ .instruction := fun hi => h ((targetAt_instruction _ _).1 hi).1

/-- Only the `EXT` mode lets a store reach `IDX` (R36). -/
theorem writeTarget_ne_index {cfg : Inputs} (h : cfg.mmr ≠ .ext) (a : Addr) :
    writeTarget cfg a ≠ .index := fun hi => h ((targetAt_index _ _).1 hi).1

/-! ### The read primitive -/

@[simp] theorem memReadAt_zero (s : State) : memReadAt s 0 = some 0 := if_pos rfl

theorem memReadAt_overlaid {s : State} {b : Addr} (h0 : b ≠ 0) (hov : overlaid s.cfg b = true) :
    memReadAt s b = some (overlayRead s b) := by
  rw [memReadAt, if_neg h0, if_pos hov]

theorem memReadAt_cell {s : State} {b : Addr} (h0 : b ≠ 0) (hov : overlaid s.cfg b = false) :
    memReadAt s b =
      if s.cfg.memcheck = true ∧ 2 ^ 45 ≤ memGet s.mem b.toNat then none
      else some (BitVec.ofNat 45 (memGet s.mem b.toNat)) := by
  rw [memReadAt, if_neg h0, hov]
  simp only [Bool.false_eq_true, if_false, Bool.and_eq_true, decide_eq_true_eq]

/-- The whole of R33 at a reduced address. -/
theorem memReadAt_eq (s : State) (b : Addr) :
    memReadAt s b =
      if b = 0 then some 0
      else if s.cfg.mmr ≠ .off ∧ 0o7770 ≤ b.toNat then some (overlayRead s b)
      else if s.cfg.memcheck = true ∧ 2 ^ 45 ≤ memGet s.mem b.toNat then none
      else some (BitVec.ofNat 45 (memGet s.mem b.toNat)) := by
  by_cases h0 : b = 0
  · rw [h0, memReadAt_zero, if_pos rfl]
  rw [if_neg h0]
  by_cases hov : s.cfg.mmr ≠ .off ∧ 0o7770 ≤ b.toNat
  · rw [if_pos hov, memReadAt_overlaid h0 ((overlaid_eq_true _ _).2 hov)]
  · rw [if_neg hov, memReadAt_cell h0]
    exact Bool.eq_false_iff.2 fun h => hov ((overlaid_eq_true _ _).1 h)

/-! ### The write primitive -/

/-- The whole of R36, without the status and the re-execution, at a reduced address. -/
theorem memWrite_eq {s : State} {a b : Addr} (hb : reduceAddr s.cfg a = b) (v : Word) :
    memWrite a v s =
      if b = 0 then s
      else if s.cfg.mmr ≠ .off ∧ 0o7770 ≤ b.toNat then
        if s.cfg.mmr = .ext ∧ b = 0o7776 then { s with idx := v.extractLsb' 0 12 }
        else if s.cfg.mmr = .ext ∧ b = 0o7777 then { s with ir := v, pend := .store }
        else s
      else { s with mem := memSet s.mem b.toNat v.toNat } := by
  have h6 : b = 0o7776 ↔ b.toNat = 0o7776 := by rw [← BitVec.toNat_inj]; rfl
  have h7 : b = 0o7777 ↔ b.toNat = 0o7777 := by rw [← BitVec.toNat_inj]; rfl
  simp only [memWrite, writeTarget, hb, targetAt, overlaid_eq_true, h6, h7]
  split_ifs <;> rfl

theorem memWrite_cell {s : State} {a : Addr} (h : writeTarget s.cfg a = .cell) (v : Word) :
    memWrite a v s = { s with mem := memSet s.mem (reduceAddr s.cfg a).toNat v.toNat } := by
  simp only [memWrite, h]

theorem memWrite_instruction {s : State} {a : Addr} (h : writeTarget s.cfg a = .instruction)
    (v : Word) : memWrite a v s = { s with ir := v, pend := .store } := by
  simp only [memWrite, h]

theorem memWrite_zero (v : Word) (s : State) : memWrite 0 v s = s := by
  rw [memWrite_eq (reduceAddr_zero s.cfg), if_pos rfl]

/-- Settles O10: each primitive by the case of its reduced address. -/
theorem memoryPrimitivesFollowTheirRules : Obligations.MemoryPrimitivesFollowTheirRules := by
  intro s a b v hb
  have hb' := reduceAddr_eq hb
  exact ⟨by rw [memRead, hb', memReadAt_eq], memWrite_eq hb' v⟩

/-- Settles O11: with all 4096 words present an address is its own reduced address, and the eight top
ones are rows of R34's table. -/
theorem overlayReadsTheRegisters : Obligations.OverlayReadsTheRegisters := by
  intro s hwords hmmr
  have read (a : Addr) (h : 0o7770 ≤ a.toNat) : memRead s a = some (overlayRead s a) := by
    rw [memRead, reduceAddr_of_le _ _ hwords.ge]
    exact memReadAt_overlaid (fun h0 => by subst h0; exact absurd h (by decide))
      ((overlaid_eq_true _ _).2 ⟨hmmr, h⟩)
  refine ⟨read _ (by decide), read _ (by decide), read _ (by decide), read _ (by decide),
    read _ (by decide), read _ (by decide), ?_, read _ (by decide)⟩
  rw [read _ (by decide), BitVec.ofNat_toNat]
  rfl

/-! ### An ordinary cell -/

/-- A value that fits a word reads back as that word, whatever the integrity check. -/
theorem memReadAt_cell_word {s : State} {b : Addr} {v : Word} (h0 : b ≠ 0)
    (hov : overlaid s.cfg b = false) (hv : memGet s.mem b.toNat = v.toNat) :
    memReadAt s b = some v := by
  have hfits : ¬ (s.cfg.memcheck = true ∧ 2 ^ 45 ≤ v.toNat) := fun h => absurd v.isLt (not_lt.2 h.2)
  rw [memReadAt_cell h0 hov, hv, if_neg hfits, BitVec.ofNat_toNat, BitVec.setWidth_eq]

/-- Memory with one cell set to the number of a word is read there as that word. -/
theorem memRead_memSet_same {s t : State} {a b : Addr} {v : Word}
    (hs : memWf s.cfg.memWords s.cfg.storeW s.mem) (hb : reduceAddr s.cfg a = b) (h0 : b ≠ 0)
    (hov : s.cfg.mmr = .off ∨ b.toNat < 0o7770)
    (hcfg : t.cfg = s.cfg) (hmem : t.mem = memSet s.mem b.toNat v.toNat) :
    memRead t a = some v := by
  rw [memRead, hcfg, hb]
  refine memReadAt_cell_word h0 ?_ ?_
  · rw [hcfg]; exact (overlaid_eq_false _ _).2 hov
  · rw [hmem, memGet_memSet_same _ _ _ hs.1]

/-- What a read at a reduced address depends on: the registers shown by the overlay, the inputs, and the
one cell (R33, R34). -/
theorem memReadAt_congr {s t : State} {b : Addr} (hcfg : t.cfg = s.cfg)
    (hov : overlaid s.cfg b = true → overlayRead t b = overlayRead s b)
    (hmem : memGet t.mem b.toNat = memGet s.mem b.toNat) : memReadAt t b = memReadAt s b := by
  unfold memReadAt
  rw [hcfg, hmem]
  split_ifs with h0 h1
  · rfl
  · rw [hov h1]
  · rfl
  · rfl

/-- Settles O12: the cell has the word, and another reduced address names another cell or a register
that the store leaves alone. -/
theorem storedWordIsReadBackAndNothingElseMoves :
    Obligations.StoredWordIsReadBackAndNothingElseMoves := by
  intro s a b v ⟨hwf, _⟩ hb h0 hov
  have hb' := reduceAddr_eq hb
  rw [memWrite_cell (writeTarget_cell hb' h0 hov), hb']
  refine ⟨memRead_memSet_same hwf hb' h0 hov rfl rfl, fun c hc => ?_⟩
  refine memReadAt_congr rfl (fun _ => rfl) (memGet_memSet_ne _ _ _ _ ?_)
  rwa [reduceAddr_toNat]

/-! ### The integrity check -/

/-- A canonical memory holds no value wider than its cells, listed or not. -/
theorem memGet_lt_of_memWf {words storeW : Nat} {m : Memory} (h : memWf words storeW m) (a : Nat) :
    memGet m a < 2 ^ storeW := by
  obtain ⟨-, hcells⟩ := h
  induction m with
  | nil => exact Nat.two_pow_pos storeW
  | cons p m ih =>
    obtain ⟨k, v⟩ := p
    rw [memGet]
    split_ifs
    · exact (hcells (k, v) (by simp)).2.2.2
    · exact ih fun q hq => hcells q (by simp [hq])

/-- Settles O13: no cell of 45 bits holds `2^45` or more. -/
theorem noCorruptionWithWordWideCells : Obligations.NoCorruptionWithWordWideCells := by
  intro s a ⟨hwf, _⟩ hw hnone
  have hcell := memGet_lt_of_memWf hwf (reduceAddr s.cfg a).toNat
  rw [hw] at hcell
  rcases memRead_cases s a _ rfl with ⟨-, h⟩ | ⟨-, -, h⟩ | ⟨-, -, -, h⟩ | ⟨-, -, -, hwide, -⟩
  · exact absurd (h.symm.trans hnone) nofun
  · exact absurd (h.symm.trans hnone) nofun
  · exact absurd (h.symm.trans hnone) nofun
  · omega

/-! ### The host's access -/

theorem deposit_cell {s : State} {a : Addr} (h : writeTarget s.cfg a = .cell) (v : Nat) :
    deposit a v s = .next { s with
      mem := memSet s.mem (reduceAddr s.cfg a).toNat (v % 2 ^ s.cfg.storeW), status := .ok } := by
  simp only [deposit, h, complete]

theorem deposit_zero (v : Nat) (s : State) : deposit 0 v s = .next (onlyStatus .readOnly s) := by
  have h : writeTarget s.cfg 0 = .readOnly := by
    rw [writeTarget, reduceAddr_zero, targetAt, if_pos rfl]
  simp only [deposit, h, raise, onlyStatus]

/-- Settles O14: a cell has room for a word, and address 0 reads 0. -/
theorem depositThenExamine : Obligations.DepositThenExamine := by
  refine ⟨fun s a b v ⟨hwf, hw, _⟩ hb h0 hov => ?cell, fun s v => ⟨deposit_zero v s, ?zero⟩⟩
  case cell =>
    have hb' := reduceAddr_eq hb
    have hfits : v.toNat % 2 ^ s.cfg.storeW = v.toNat :=
      Nat.mod_eq_of_lt (lt_of_lt_of_le v.isLt (Nat.pow_le_pow_right (by norm_num) hw))
    refine ⟨_, deposit_cell (writeTarget_cell hb' h0 hov) _, rfl, ?_⟩
    exact memRead_memSet_same hwf hb' h0 hov rfl (by rw [hfits, hb'])
  case zero => rw [examine, memRead, reduceAddr_zero, memReadAt_zero]

/-! ### Effective addresses -/

/-- Settles O15: the 12-bit sum wraps. -/
theorem effectiveAddressWraps : Obligations.EffectiveAddressWraps := by
  intro o s
  unfold effAddr
  split_ifs with h
  · exact BitVec.toNat_add ..
  · exact (Nat.mod_eq_of_lt o.addr.isLt).symm

end Sys2Proof.Machine
end

section
/-! What one instruction can do, said once (R56, R59, R215): the 64 rows grouped into families that share
one execution function, and `Answers`, the inversion of `exec`, from which the frames, the statuses and
the invariants of the step are derived. -/

namespace Sys2Proof.Machine

open Sys2Proof.Claims

/-! ### The families: one equation of `exec` for each -/

section
variable (op : AddOp) (p : Polarity) (nr nn sb f : Bool) (a1 a2 a3 : Operand) (s : State)

theorem exec_addInstr : exec (addInstr op nr nn a1 a2 a3) s = addFamily op nr nn a1 a2 a3 s := by
  cases op <;> cases nr <;> cases nn <;> rfl

theorem exec_mulInstr : exec (mulInstr nr nn a1 a2 a3) s = mulFamily nr nn a1 a2 a3 s := by
  cases nr <;> cases nn <;> rfl

theorem exec_lowInstr : exec (lowInstr nr nn a1 a2 a3) s = lowFamily nn a3 s := by
  cases nr <;> cases nn <;> rfl

theorem exec_divInstr : exec (divInstr nr a1 a2 a3) s = divFamily nr a1 a2 a3 s := by
  cases nr <;> rfl

theorem exec_sqrtInstr : exec (sqrtInstr nr a1 a2 a3) s = sqrtFamily nr a1 a3 s := by
  cases nr <;> rfl

theorem exec_expImmediateInstr :
    exec (expImmediateInstr sb nn a1 a2 a3) s = expImmediate sb nn a1 a2 a3 s := by
  cases sb <;> cases nn <;> rfl

theorem exec_expOperandInstr :
    exec (expOperandInstr sb nn a1 a2 a3) s = expOperand sb nn a1 a2 a3 s := by
  cases sb <;> cases nn <;> rfl

theorem exec_loopInstr : exec (loopInstr p f a1 a2 a3) s = loopFamily p f a1 a2 a3 s := by
  cases p <;> cases f <;> rfl

end

/-! ### Jumps and loops as one update -/

theorem branch_eq (taken : Bool) (target : Addr) (s : State) :
    branch taken target s = { s with pc := if taken then target else s.pc } := by
  unfold branch
  split <;> rfl

section
variable (p : Polarity) (f : Bool) (a1 a2 a3 : Operand) (s : State)

theorem loopFamily_eq :
    loopFamily p f a1 a2 a3 s = .next { s with
      pc := if loopTaken p (effAddr a1 s) s then effAddr a2 s else s.pc
      idx := effAddr a3 s
      cf := if f then loopTaken p (effAddr a1 s) s else s.cf
      status := .ok } := by
  simp only [loopFamily, branch_eq, complete]

theorem exec_jmp : exec (.jmp a1 a2 a3) s = .next { s with pc := effAddr a2 s, status := .ok } := rfl

theorem exec_jc : exec (.jc a1 a2 a3) s =
    .next { s with pc := if s.cf = true then effAddr a2 s else s.pc, status := .ok } := by
  simp only [exec, execJc, branch_eq, complete]

theorem exec_jnc : exec (.jnc a1 a2 a3) s =
    .next { s with pc := if s.cf = false then effAddr a2 s else s.pc, status := .ok } := by
  simp only [exec, execJnc, branch_eq, complete, Bool.not_eq_true']

end

/-! ### The rows of the storing families -/

/-- The row of an instruction that stores its result at `a3` and can raise the statuses `sts`. -/
structure StoringRow (i : Instr) (a3 : Operand) (sts : List Status) : Prop where
  store : storeOperand i = some a3
  listed : listedStatuses i = sts
  group : groupOf i = .arithmetic ∨ groupOf i = .codeLogical

section
variable (op : AddOp) (p : Polarity) (nr nn sb f : Bool) (a1 a2 a3 : Operand)

theorem addInstr_row : StoringRow (addInstr op nr nn a1 a2 a3) a3 [.addOvf, .memCorrupt] := by
  cases op <;> cases nr <;> cases nn <;> exact ⟨rfl, rfl, .inl rfl⟩

theorem mulInstr_row : StoringRow (mulInstr nr nn a1 a2 a3) a3 [.mulOvf, .memCorrupt] := by
  cases nr <;> cases nn <;> exact ⟨rfl, rfl, .inl rfl⟩

theorem lowInstr_row : StoringRow (lowInstr nr nn a1 a2 a3) a3 [] := by
  cases nr <;> cases nn <;> exact ⟨rfl, rfl, .inl rfl⟩

theorem divInstr_row :
    StoringRow (divInstr nr a1 a2 a3) a3 [.divOvf, .divMovf, .divZero, .memCorrupt] := by
  cases nr <;> exact ⟨rfl, rfl, .inl rfl⟩

theorem sqrtInstr_row : StoringRow (sqrtInstr nr a1 a2 a3) a3 [.sqrtOvf, .sqrtNeg, .memCorrupt] := by
  cases nr <;> exact ⟨rfl, rfl, .inl rfl⟩

theorem expImmediateInstr_row :
    StoringRow (expImmediateInstr sb nn a1 a2 a3) a3 [.addOvf, .memCorrupt] := by
  cases sb <;> cases nn <;> exact ⟨rfl, rfl, .inl rfl⟩

theorem expOperandInstr_row :
    StoringRow (expOperandInstr sb nn a1 a2 a3) a3 [.addOvf, .memCorrupt] := by
  cases sb <;> cases nn <;> exact ⟨rfl, rfl, .inl rfl⟩

end

/-- The family of an instruction. The code and logical rows are given by the function they compute. -/
inductive Family : Instr → Prop
  | add (op nr nn a1 a2 a3) : Family (addInstr op nr nn a1 a2 a3)
  | mul (nr nn a1 a2 a3) : Family (mulInstr nr nn a1 a2 a3)
  | low (nr nn a1 a2 a3) : Family (lowInstr nr nn a1 a2 a3)
  | div (nr a1 a2 a3) : Family (divInstr nr a1 a2 a3)
  | sqrt (nr a1 a2 a3) : Family (sqrtInstr nr a1 a2 a3)
  | expImmediate (sb nn a1 a2 a3) : Family (expImmediateInstr sb nn a1 a2 a3)
  | expOperand (sb nn a1 a2 a3) : Family (expOperandInstr sb nn a1 a2 a3)
  | binary (f a1 a2 a3) {i : Instr} (row : StoringRow i a3 [.memCorrupt])
      (exec_eq : ∀ s, exec i s = logBinary f a1 a2 a3 s) : Family i
  | immediate (f a1 a2 a3) {i : Instr} (row : StoringRow i a3 [.memCorrupt])
      (exec_eq : ∀ s, exec i s = logImmediate f a1 a2 a3 s) : Family i
  | mov (a1 a2 a3) : Family (.mov a1 a2 a3)
  | rdsw (a1 a2 a3) : Family (.rdsw a1 a2 a3)
  | xorchk (a1 a2 a3) : Family (.xorchk a1 a2 a3)
  | loop (p f a1 a2 a3) : Family (loopInstr p f a1 a2 a3)
  | jmp (a1 a2 a3) : Family (.jmp a1 a2 a3)
  | jc (a1 a2 a3) : Family (.jc a1 a2 a3)
  | jnc (a1 a2 a3) : Family (.jnc a1 a2 a3)
  | jsr (a1 a2 a3) : Family (.jsr a1 a2 a3)
  | halt (a1 a2 a3) : Family (.halt a1 a2 a3)
  | halt2 (a1 a2 a3) : Family (.halt2 a1 a2 a3)
  | reserved057 (a1 a2 a3) : Family (.reserved057 a1 a2 a3)
  | reserved077 (a1 a2 a3) : Family (.reserved077 a1 a2 a3)
  | addrform (a1 a2 a3) : Family (.addrform a1 a2 a3)
  | iosetup (a1 a2 a3) : Family (.iosetup a1 a2 a3)
  | ioexec (a1 a2 a3) : Family (.ioexec a1 a2 a3)

/-- Every row of the table is in a family. -/
theorem family (i : Instr) : Family i := by
  cases i with
  | add a1 a2 a3 => exact .add .add false false a1 a2 a3
  | addNr a1 a2 a3 => exact .add .add true false a1 a2 a3
  | addNn a1 a2 a3 => exact .add .add false true a1 a2 a3
  | addNrNn a1 a2 a3 => exact .add .add true true a1 a2 a3
  | sub a1 a2 a3 => exact .add .sub false false a1 a2 a3
  | subNr a1 a2 a3 => exact .add .sub true false a1 a2 a3
  | subNn a1 a2 a3 => exact .add .sub false true a1 a2 a3
  | subNrNn a1 a2 a3 => exact .add .sub true true a1 a2 a3
  | subabs a1 a2 a3 => exact .add .subabs false false a1 a2 a3
  | subabsNr a1 a2 a3 => exact .add .subabs true false a1 a2 a3
  | subabsNn a1 a2 a3 => exact .add .subabs false true a1 a2 a3
  | subabsNrNn a1 a2 a3 => exact .add .subabs true true a1 a2 a3
  | mul a1 a2 a3 => exact .mul false false a1 a2 a3
  | mulNr a1 a2 a3 => exact .mul true false a1 a2 a3
  | mulNn a1 a2 a3 => exact .mul false true a1 a2 a3
  | mulNrNn a1 a2 a3 => exact .mul true true a1 a2 a3
  | lowprod a1 a2 a3 => exact .low false false a1 a2 a3
  | lowprod027 a1 a2 a3 => exact .low true false a1 a2 a3
  | lowprodNn a1 a2 a3 => exact .low false true a1 a2 a3
  | lowprodNn067 a1 a2 a3 => exact .low true true a1 a2 a3
  | div a1 a2 a3 => exact .div false a1 a2 a3
  | divNr a1 a2 a3 => exact .div true a1 a2 a3
  | sqrt a1 a2 a3 => exact .sqrt false a1 a2 a3
  | sqrtNr a1 a2 a3 => exact .sqrt true a1 a2 a3
  | expaddi a1 a2 a3 => exact .expImmediate false false a1 a2 a3
  | expaddiNn a1 a2 a3 => exact .expImmediate false true a1 a2 a3
  | expsubi a1 a2 a3 => exact .expImmediate true false a1 a2 a3
  | expsubiNn a1 a2 a3 => exact .expImmediate true true a1 a2 a3
  | expadd a1 a2 a3 => exact .expOperand false false a1 a2 a3
  | expaddNn a1 a2 a3 => exact .expOperand false true a1 a2 a3
  | expsub a1 a2 a3 => exact .expOperand true false a1 a2 a3
  | expsubNn a1 a2 a3 => exact .expOperand true true a1 a2 a3
  | xor a1 a2 a3 => exact .binary _ a1 a2 a3 ⟨rfl, rfl, .inr rfl⟩ fun _ => rfl
  | and a1 a2 a3 => exact .binary _ a1 a2 a3 ⟨rfl, rfl, .inr rfl⟩ fun _ => rfl
  | or a1 a2 a3 => exact .binary _ a1 a2 a3 ⟨rfl, rfl, .inr rfl⟩ fun _ => rfl
  | adda a1 a2 a3 => exact .binary _ a1 a2 a3 ⟨rfl, rfl, .inr rfl⟩ fun _ => rfl
  | suba a1 a2 a3 => exact .binary _ a1 a2 a3 ⟨rfl, rfl, .inr rfl⟩ fun _ => rfl
  | addo a1 a2 a3 => exact .binary _ a1 a2 a3 ⟨rfl, rfl, .inr rfl⟩ fun _ => rfl
  | subo a1 a2 a3 => exact .binary _ a1 a2 a3 ⟨rfl, rfl, .inr rfl⟩ fun _ => rfl
  | cycadd a1 a2 a3 => exact .binary _ a1 a2 a3 ⟨rfl, rfl, .inr rfl⟩ fun _ => rfl
  | cycsub a1 a2 a3 => exact .binary _ a1 a2 a3 ⟨rfl, rfl, .inr rfl⟩ fun _ => rfl
  | shme a1 a2 a3 => exact .binary _ a1 a2 a3 ⟨rfl, rfl, .inr rfl⟩ fun _ => rfl
  | shwe a1 a2 a3 => exact .binary _ a1 a2 a3 ⟨rfl, rfl, .inr rfl⟩ fun _ => rfl
  | rot a1 a2 a3 =>
    exact .immediate (fun a x => rotl45 x (rotCount a)) a1 a2 a3 ⟨rfl, rfl, .inr rfl⟩ fun _ => rfl
  | shmi a1 a2 a3 =>
    exact .immediate (fun a x => shm x (bias64 a)) a1 a2 a3 ⟨rfl, rfl, .inr rfl⟩ fun _ => rfl
  | shwi a1 a2 a3 =>
    exact .immediate (fun a x => shw x (bias64 a)) a1 a2 a3 ⟨rfl, rfl, .inr rfl⟩ fun _ => rfl
  | mov a1 a2 a3 => exact .mov a1 a2 a3
  | rdsw a1 a2 a3 => exact .rdsw a1 a2 a3
  | xorchk a1 a2 a3 => exact .xorchk a1 a2 a3
  | looplt a1 a2 a3 => exact .loop .lt false a1 a2 a3
  | loopge a1 a2 a3 => exact .loop .ge false a1 a2 a3
  | loopltf a1 a2 a3 => exact .loop .lt true a1 a2 a3
  | loopgef a1 a2 a3 => exact .loop .ge true a1 a2 a3
  | jmp a1 a2 a3 => exact .jmp a1 a2 a3
  | jc a1 a2 a3 => exact .jc a1 a2 a3
  | jnc a1 a2 a3 => exact .jnc a1 a2 a3
  | jsr a1 a2 a3 => exact .jsr a1 a2 a3
  | halt a1 a2 a3 => exact .halt a1 a2 a3
  | halt2 a1 a2 a3 => exact .halt2 a1 a2 a3
  | reserved057 a1 a2 a3 => exact .reserved057 a1 a2 a3
  | reserved077 a1 a2 a3 => exact .reserved077 a1 a2 a3
  | addrform a1 a2 a3 => exact .addrform a1 a2 a3
  | iosetup a1 a2 a3 => exact .iosetup a1 a2 a3
  | ioexec a1 a2 a3 => exact .ioexec a1 a2 a3

/-! ### The statuses of the arithmetic units -/

theorem addsub_error {op : AddOp} {nr nn fr : Bool} {x y : Word} {st : Status}
    (h : addsub op nr nn fr x y = .error st) : st = .addOvf := by
  simp only [addsub] at h
  split_ifs at h
  cases h
  rfl

theorem mulUnit_error {nr nn : Bool} {x y : Word} {st : Status}
    (h : mulUnit nr nn x y = .error st) : st = .mulOvf := by
  simp only [mulUnit] at h
  split_ifs at h
  cases h
  rfl

/-- The three statuses of R126 and R129. -/
theorem divUnit_error {nr : Bool} {x y : Word} {st : Status} (h : divUnit nr x y = .error st) :
    st = .divZero ∨ st = .divMovf ∨ st = .divOvf := by
  simp only [divUnit] at h
  split_ifs at h <;> cases h <;> decide

theorem sqrtUnit_error {nr : Bool} {x : Word} {st : Status} (h : sqrtUnit nr x = .error st) :
    st = .sqrtNeg ∨ st = .sqrtOvf := by
  simp only [sqrtUnit] at h
  split_ifs at h <;> cases h <;> decide

theorem expUnit_error {nn sg tg : Bool} {e : Int} {m : Nat} {st : Status}
    (h : expUnit nn sg e m tg = .error st) : st = .addOvf := by
  unfold expUnit at h
  split_ifs at h
  cases h
  rfl

/-! ### The inversion of `exec` -/

/-- The instructions that may write `AUX`, and the path on which they do (R254). -/
def AuxWriter (i : Instr) (s : State) : Prop :=
  (∃ nr nn a1 a2 a3, i = mulInstr nr nn a1 a2 a3) ∨
    (s.cfg.path = .exactPath ∧
      ((∃ op nr nn a1 a2 a3, i = addInstr op nr nn a1 a2 a3) ∨
        (∃ nr a1 a2 a3, i = divInstr nr a1 a2 a3) ∨ ∃ nr a1 a2 a3, i = sqrtInstr nr a1 a2 a3))

/-- The state right after IOEXEC's device call, before its words are stored (R208). -/
abbrev deviceRan (start : Addr) (s : State) : State :=
  { s with
    delay := s.delay + Config.devDelay s.iod start
    devices := deviceCalled s.devices
    status := .ok }

/-- What IOEXEC does after the words of the answer `r` (R208). -/
abbrev tailOf (r : DevResult) (a2 a3 : Operand) (s : State) : TransferEnd :=
  ⟨r.status, r.checksum, effAddr a2 s, effAddr a3 s⟩

/-- Everything an instruction can answer. -/
inductive Answers (i : Instr) (s : State) : State → Prop
  /-- It ended with a status of its row and has written nothing else (R221). -/
  | failed (st : Status) (hst : st ≠ .ok) (hlisted : st ∈ listedStatuses i) :
      Answers i s (onlyStatus st s)
  /-- An arithmetic or code/logical instruction stored its result (R100, R156). -/
  | stored (o : Operand) (r aux : Word) (cf : Bool) (hstore : storeOperand i = some o)
      (hgroup : groupOf i = .arithmetic ∨ groupOf i = .codeLogical)
      (haux : aux ≠ s.aux → AuxWriter i s) :
      Answers i s
        (memWrite (effAddr o s) r { s with aux := aux, res := r, cf := cf, status := .ok })
  /-- XORCHK on equal words (R161). -/
  | compared (hgroup : groupOf i = .codeLogical) :
      Answers i s { s with res := 0, cf := true, status := .ok }
  /-- A jump, taken or not (R187, R189, R190). -/
  | jumped (target : Addr) (hgroup : groupOf i = .control) :
      Answers i s { s with pc := target, status := .ok }
  /-- JSR (R188). -/
  | called (o : Operand) (target : Addr) (marker : Word) (hstore : storeOperand i = some o)
      (hgroup : groupOf i = .control) :
      Answers i s (jumpAfterStore target (memWrite (effAddr o s) marker { s with status := .ok }))
  /-- A loop instruction (R191). -/
  | looped (p : Polarity) (f : Bool) (a1 a2 a3 : Operand) (target : Addr) (taken : Bool)
      (hi : i = loopInstr p f a1 a2 a3) :
      Answers i s { s with
        pc := target, idx := effAddr a3 s, cf := if f then taken else s.cf, status := .ok }
  /-- IOSETUP (R206). -/
  | latched (a1 a2 a3 : Operand) (d : Descriptor) (hi : i = .iosetup a1 a2 a3) :
      Answers i s { s with iod := d, status := .ok }
  /-- IOEXEC with a latched descriptor (R208). -/
  | transferred (a1 a2 a3 : Operand) (r : DevResult) (hi : i = .ioexec a1 a2 a3)
      (hr : r = devPerform (effAddr a1 s) s) :
      Answers i s (storeWords r.writes (tailOf r a2 a3 s) (deviceRan (effAddr a1 s) s))

section
variable {i : Instr} {s t u : State} {st : Status} {sts : List Status} {a : Addr} {a3 : Operand}
  {r : Word} {k : Word → Result}

theorem answers_raise (hst : st ≠ .ok) (hl : st ∈ listedStatuses i) (h : raise st s = .next t) :
    Answers i s t := by
  cases h
  exact .failed st hst hl

theorem answers_withRead (hl : Status.memCorrupt ∈ listedStatuses i) (h : withRead a s k = .next t)
    (hk : ∀ w, k w = .next t → Answers i s t) : Answers i s t := by
  rcases withRead_next h with ⟨-, rfl⟩ | ⟨w, -, h⟩
  · exact .failed _ (by decide) hl
  · exact hk w h

theorem answers_logFinish (row : StoringRow i a3 sts)
    (h : logFinish r (effAddr a3 s) s = .next t) : Answers i s t := by
  cases h
  exact .stored a3 r s.aux _ row.store row.group fun hne => absurd rfl hne

/-- The arithmetic tail in a state in which only `AUX` may have been written. -/
theorem answers_arithFinish (row : StoringRow i a3 sts) (hu : u = { s with aux := u.aux })
    (haux : u.aux ≠ s.aux → AuxWriter i s) (h : arithFinish r (effAddr a3 s) u = .next t) :
    Answers i s t := by
  cases h
  rw [hu]
  exact .stored a3 r u.aux _ row.store row.group haux

end

theorem drawAux_eq (x y : Word) (op : AuxOp) (nr nn fr : Bool) (s : State) :
    drawAux x y op nr nn fr s = { s with aux := (drawAux x y op nr nn fr s).aux } := by
  unfold drawAux
  split <;> rfl

/-- A draw that changes `AUX` was made on the exact path (R89). -/
theorem exactPath_of_drawAux_ne {x y : Word} {op : AuxOp} {nr nn fr : Bool} {s : State}
    (h : (drawAux x y op nr nn fr s).aux ≠ s.aux) : s.cfg.path = .exactPath := by
  cases hp : s.cfg.path with
  | fastPath => exact absurd (drawAux_aux_fast x y op nr nn fr s hp) h
  | exactPath => rfl

section
variable (op : AddOp) (p : Polarity) (nr nn sb f : Bool) (a1 a2 a3 : Operand) {s t : State}

theorem answers_addInstr (h : exec (addInstr op nr nn a1 a2 a3) s = .next t) :
    Answers (addInstr op nr nn a1 a2 a3) s t := by
  have row := addInstr_row op nr nn a1 a2 a3
  rw [exec_addInstr] at h
  refine answers_withRead (by rw [row.listed]; decide) h fun x h => ?_
  refine answers_withRead (by rw [row.listed]; decide) h fun y h => ?_
  cases hr : addsub op nr nn (forceRound x y) x y with
  | error st =>
    obtain rfl := addsub_error hr
    simp only [hr] at h
    exact answers_raise (by decide) (by rw [row.listed]; decide) h
  | ok r =>
    simp only [hr] at h
    refine answers_arithFinish row (drawAux_eq ..) (fun hne => ?_) h
    exact .inr ⟨exactPath_of_drawAux_ne hne, .inl ⟨op, nr, nn, a1, a2, a3, rfl⟩⟩

theorem answers_mulInstr (h : exec (mulInstr nr nn a1 a2 a3) s = .next t) :
    Answers (mulInstr nr nn a1 a2 a3) s t := by
  have row := mulInstr_row nr nn a1 a2 a3
  rw [exec_mulInstr] at h
  refine answers_withRead (by rw [row.listed]; decide) h fun x h => ?_
  refine answers_withRead (by rw [row.listed]; decide) h fun y h => ?_
  cases hr : mulUnit nr nn x y with
  | error st =>
    obtain rfl := mulUnit_error hr
    simp only [hr] at h
    exact answers_raise (by decide) (by rw [row.listed]; decide) h
  | ok q =>
    simp only [hr] at h
    exact answers_arithFinish row rfl (fun _ => .inl ⟨nr, nn, a1, a2, a3, rfl⟩) h

theorem answers_divInstr (h : exec (divInstr nr a1 a2 a3) s = .next t) :
    Answers (divInstr nr a1 a2 a3) s t := by
  have row := divInstr_row nr a1 a2 a3
  rw [exec_divInstr] at h
  refine answers_withRead (by rw [row.listed]; decide) h fun x h => ?_
  refine answers_withRead (by rw [row.listed]; decide) h fun y h => ?_
  cases hr : divUnit nr x y with
  | error st =>
    simp only [hr] at h
    rcases divUnit_error hr with rfl | rfl | rfl <;>
      exact answers_raise (by decide) (by rw [row.listed]; decide) h
  | ok r =>
    simp only [hr] at h
    refine answers_arithFinish row (drawAux_eq ..) (fun hne => ?_) h
    exact .inr ⟨exactPath_of_drawAux_ne hne, .inr (.inl ⟨nr, a1, a2, a3, rfl⟩)⟩

theorem answers_sqrtInstr (h : exec (sqrtInstr nr a1 a2 a3) s = .next t) :
    Answers (sqrtInstr nr a1 a2 a3) s t := by
  have row := sqrtInstr_row nr a1 a2 a3
  rw [exec_sqrtInstr] at h
  refine answers_withRead (by rw [row.listed]; decide) h fun x h => ?_
  cases hr : sqrtUnit nr x with
  | error st =>
    simp only [hr] at h
    rcases sqrtUnit_error hr with rfl | rfl <;>
      exact answers_raise (by decide) (by rw [row.listed]; decide) h
  | ok r =>
    simp only [hr] at h
    refine answers_arithFinish row (drawAux_eq ..) (fun hne => ?_) h
    exact .inr ⟨exactPath_of_drawAux_ne hne, .inr (.inr ⟨nr, a1, a2, a3, rfl⟩)⟩

/-- The tail of the exponent instructions (R146). -/
theorem answers_expFinish {i : Instr} {a3 : Operand} {x : Word} {e : Int} {tg : Bool}
    (row : StoringRow i a3 [.addOvf, .memCorrupt])
    (h : expFinish nn x e tg (effAddr a3 s) s = .next t) : Answers i s t := by
  unfold expFinish at h
  cases hr : expUnit nn (signOf x) e (mantOf x) tg with
  | error st =>
    obtain rfl := expUnit_error hr
    simp only [hr] at h
    exact answers_raise (by decide) (by rw [row.listed]; decide) h
  | ok r =>
    simp only [hr] at h
    exact answers_arithFinish row rfl (fun hne => absurd rfl hne) h

theorem answers_expImmediateInstr (h : exec (expImmediateInstr sb nn a1 a2 a3) s = .next t) :
    Answers (expImmediateInstr sb nn a1 a2 a3) s t := by
  have row := expImmediateInstr_row nn sb a1 a2 a3
  rw [exec_expImmediateInstr] at h
  exact answers_withRead (by rw [row.listed]; decide) h fun x h => answers_expFinish nn row h

theorem answers_expOperandInstr (h : exec (expOperandInstr sb nn a1 a2 a3) s = .next t) :
    Answers (expOperandInstr sb nn a1 a2 a3) s t := by
  have row := expOperandInstr_row nn sb a1 a2 a3
  rw [exec_expOperandInstr] at h
  refine answers_withRead (by rw [row.listed]; decide) h fun z h => ?_
  exact answers_withRead (by rw [row.listed]; decide) h fun x h => answers_expFinish nn row h

theorem answers_binary {i : Instr} {g : Word → Word → Word} (row : StoringRow i a3 [.memCorrupt])
    (h : logBinary g a1 a2 a3 s = .next t) : Answers i s t := by
  refine answers_withRead (by rw [row.listed]; decide) h fun x h => ?_
  exact answers_withRead (by rw [row.listed]; decide) h fun y h => answers_logFinish row h

theorem answers_immediate {i : Instr} {g : Addr → Word → Word} (row : StoringRow i a3 [.memCorrupt])
    (h : logImmediate g a1 a2 a3 s = .next t) : Answers i s t :=
  answers_withRead (by rw [row.listed]; decide) h fun _ h => answers_logFinish row h

theorem answers_rdsw (h : exec (.rdsw a1 a2 a3) s = .next t) : Answers (.rdsw a1 a2 a3) s t := by
  cases hw : switchOf (effAddr a1 s) s with
  | some w =>
    rw [exec_rdsw_of_switch hw] at h
    exact answers_logFinish (sts := [.badSwitch]) ⟨rfl, rfl, .inr rfl⟩ h
  | none =>
    rw [exec_rdsw_of_no_switch hw] at h
    exact answers_raise (by decide) (by simp [listedStatuses]) h

theorem answers_xorchk (h : exec (.xorchk a1 a2 a3) s = .next t) :
    Answers (.xorchk a1 a2 a3) s t := by
  refine answers_withRead (by simp [listedStatuses]) h fun x h => ?_
  refine answers_withRead (by simp [listedStatuses]) h fun y h => ?_
  split_ifs at h
  · cases h
    exact .compared rfl
  · exact answers_raise (by decide) (by simp [listedStatuses]) h

theorem answers_iosetup (h : exec (.iosetup a1 a2 a3) s = .next t) :
    Answers (.iosetup a1 a2 a3) s t := by
  simp only [exec, execIosetup] at h
  split at h
  · exact answers_raise (by decide) (by simp [listedStatuses]) h
  · cases h
    exact .latched a1 a2 a3 _ rfl

theorem answers_ioexec (h : exec (.ioexec a1 a2 a3) s = .next t) :
    Answers (.ioexec a1 a2 a3) s t := by
  simp only [exec, execIoexec] at h
  split_ifs at h
  · cases h
    exact .transferred a1 a2 a3 _ rfl rfl
  · exact answers_raise (by decide) (by simp [listedStatuses]) h

theorem answers_addrform (h : exec (.addrform a1 a2 a3) s = .next t) :
    Answers (.addrform a1 a2 a3) s t := by
  simp only [exec, execAddrform] at h
  split_ifs at h
  exact answers_raise (by decide) (by simp [listedStatuses]) h

end

/-- The inversion of `exec`: every next state is one of the forms of `Answers`. -/
theorem exec_answers {i : Instr} {s t : State} (h : exec i s = .next t) : Answers i s t := by
  cases family i with
  | add op nr nn a1 a2 a3 => exact answers_addInstr op nr nn a1 a2 a3 h
  | mul nr nn a1 a2 a3 => exact answers_mulInstr nr nn a1 a2 a3 h
  | low nr nn a1 a2 a3 =>
    rw [exec_lowInstr] at h
    exact answers_arithFinish (lowInstr_row nr nn a1 a2 a3) rfl (fun hne => absurd rfl hne) h
  | div nr a1 a2 a3 => exact answers_divInstr nr a1 a2 a3 h
  | sqrt nr a1 a2 a3 => exact answers_sqrtInstr nr a1 a2 a3 h
  | expImmediate sb nn a1 a2 a3 => exact answers_expImmediateInstr nn sb a1 a2 a3 h
  | expOperand sb nn a1 a2 a3 => exact answers_expOperandInstr nn sb a1 a2 a3 h
  | binary f a1 a2 a3 row exec_eq => exact answers_binary a1 a2 a3 row (exec_eq s ▸ h)
  | immediate f a1 a2 a3 row exec_eq => exact answers_immediate a1 a2 a3 row (exec_eq s ▸ h)
  | mov a1 a2 a3 =>
    exact answers_withRead (by simp [listedStatuses]) h fun _ h =>
      answers_logFinish (sts := [.memCorrupt]) ⟨rfl, rfl, .inr rfl⟩ h
  | rdsw a1 a2 a3 => exact answers_rdsw a1 a2 a3 h
  | xorchk a1 a2 a3 => exact answers_xorchk a1 a2 a3 h
  | loop p f a1 a2 a3 =>
    rw [exec_loopInstr, loopFamily_eq] at h
    cases h
    exact .looped p f a1 a2 a3 _ _ rfl
  | jmp a1 a2 a3 =>
    rw [exec_jmp] at h
    cases h
    exact .jumped _ rfl
  | jc a1 a2 a3 =>
    rw [exec_jc] at h
    cases h
    exact .jumped _ rfl
  | jnc a1 a2 a3 =>
    rw [exec_jnc] at h
    cases h
    exact .jumped _ rfl
  | jsr a1 a2 a3 => cases h; exact .called a3 _ _ rfl rfl
  | halt a1 a2 a3 => exact answers_raise (by decide) (by simp [listedStatuses]) h
  | halt2 a1 a2 a3 => exact answers_raise (by decide) (by simp [listedStatuses]) h
  | reserved057 a1 a2 a3 => exact answers_raise (by decide) (by simp [listedStatuses]) h
  | reserved077 a1 a2 a3 => exact answers_raise (by decide) (by simp [listedStatuses]) h
  | addrform a1 a2 a3 => exact answers_addrform a1 a2 a3 h
  | iosetup a1 a2 a3 => exact answers_iosetup a1 a2 a3 h
  | ioexec a1 a2 a3 => exact answers_ioexec a1 a2 a3 h

end Sys2Proof.Machine
end

section
/-! Who writes what (R191, R216, R221, R225, R254): the frames of all instructions, each read off the
forms of `Answers`, with one induction for the words a device delivers. -/

namespace Sys2Proof.Machine

open Sys2Proof.Claims

/-! ### The registers a store reaches -/

theorem memWrite_idx_of_ne {s : State} {a : Addr} (h : writeTarget s.cfg a ≠ .index) (v : Word) :
    (memWrite a v s).idx = s.idx := by
  rcases memWrite_cases a v s with ⟨-, e⟩ | ⟨hi, -⟩ | ⟨-, e⟩ | ⟨-, e⟩
  · rw [e]
  · exact absurd hi h
  · rw [e]
  · rw [e]

theorem memWrite_ir_of_ne {s : State} {a : Addr} (h : writeTarget s.cfg a ≠ .instruction) (v : Word) :
    (memWrite a v s).ir = s.ir := by
  rcases memWrite_cases a v s with ⟨-, e⟩ | ⟨-, e⟩ | ⟨hi, -⟩ | ⟨-, e⟩
  · rw [e]
  · rw [e]
  · exact absurd hi h
  · rw [e]

/-- The cells a store leaves alone, with the reduced address as a number (R30). -/
theorem memGet_memWrite_of_ne {s : State} {a : Addr} {b : Nat} (h : b ≠ a.toNat % s.cfg.memWords)
    (v : Word) : memGet (memWrite a v s).mem b = memGet s.mem b :=
  memGet_memWrite_ne a v s b (by rwa [reduceAddr_toNat])

/-! ### The words a device delivers -/

/-- Everything the end of IOEXEC can do (R208). -/
theorem transferEnd_cases (e : TransferEnd) (s : State) :
    (e.status = .ok ∧
      transferEnd e s = memWrite e.dest e.checksum { s with res := e.checksum, status := .ok }) ∨
    (e.status ≠ .ok ∧ ioNostop s.iod.cc s = true ∧
      transferEnd e s = { s with pc := e.alternate, status := .ok }) ∨
    (e.status ≠ .ok ∧ ioNostop s.iod.cc s = false ∧
      transferEnd e s = onlyStatus (deviceStatus e.status) s) := by
  unfold transferEnd
  cases hs : e.status with
  | ok => exact .inl ⟨rfl, rfl⟩
  | cardCksum | cardRead | noCard | tapeRead =>
    cases hn : ioNostop s.iod.cc s with
    | true => exact .inr (.inl ⟨nofun, rfl, rfl⟩)
    | false => exact .inr (.inr ⟨nofun, rfl, rfl⟩)

/-- What the stores of a transfer and the registers it writes on its way keep, its end keeps. -/
theorem transferEnd_induct {P : State → Prop} {e : TransferEnd}
    (hw : ∀ v s, P s → P (memWrite e.dest v s))
    (hreg : ∀ s pc res st pd, P s → P { s with pc := pc, res := res, status := st, pend := pd })
    {s : State} (hs : P s) : P (transferEnd e s) := by
  rcases transferEnd_cases e s with ⟨-, h⟩ | ⟨-, -, h⟩ | ⟨-, -, h⟩
  · rw [h]; exact hw _ _ (hreg s s.pc _ _ s.pend hs)
  · rw [h]; exact hreg s _ s.res _ s.pend hs
  · rw [h]; exact hreg s s.pc s.res _ s.pend hs

/-- The same for the whole of a transfer: the induction over the delivered words, once. -/
theorem storeWords_induct {P : State → Prop} {e : TransferEnd}
    (hreg : ∀ s pc res st pd, P s → P { s with pc := pc, res := res, status := st, pend := pd })
    (ws : List (Addr × Word))
    (hw : ∀ a ∈ ws.map Prod.fst ++ [e.dest], ∀ v s, P s → P (memWrite a v s))
    {s : State} (hs : P s) : P (storeWords ws e s) := by
  induction ws generalizing s with
  | nil => exact transferEnd_induct (hw e.dest (by simp)) hreg hs
  | cons p ws ih =>
    obtain ⟨a, w⟩ := p
    have hstored : P (memWrite a w s) := hw a (by simp) w s hs
    unfold storeWords
    split
    · exact hreg (memWrite a w s) _ _ _ _ hstored
    · exact ih (fun b hb => hw b (by simp_all)) hstored

/-- The fields no part of a transfer writes after the device's call. -/
structure TransferFrame (s t : State) : Prop where
  cfg : t.cfg = s.cfg
  cf : t.cf = s.cf
  aux : t.aux = s.aux
  iod : t.iod = s.iod
  delay : t.delay = s.delay
  devices : t.devices = s.devices
  sw0 : t.sw0 = s.sw0
  sw1 : t.sw1 = s.sw1
  sw2 : t.sw2 = s.sw2
  sw3 : t.sw3 = s.sw3

theorem storeWords_frame (ws : List (Addr × Word)) (e : TransferEnd) (s : State) :
    TransferFrame s (storeWords ws e s) := by
  refine storeWords_induct (P := TransferFrame s) (fun _ _ _ _ _ h => ⟨h.cfg, h.cf, h.aux, h.iod,
    h.delay, h.devices, h.sw0, h.sw1, h.sw2, h.sw3⟩) ws (fun a _ v u h => ?_)
    ⟨rfl, rfl, rfl, rfl, rfl, rfl, rfl, rfl, rfl, rfl⟩
  exact ⟨by rw [memWrite_cfg, h.cfg], by rw [memWrite_cf, h.cf], by rw [memWrite_aux, h.aux],
    by rw [memWrite_iod, h.iod], by rw [memWrite_delay, h.delay], by rw [memWrite_devices, h.devices],
    by rw [memWrite_sw0, h.sw0], by rw [memWrite_sw1, h.sw1], by rw [memWrite_sw2, h.sw2],
    by rw [memWrite_sw3, h.sw3]⟩

/-- A cell that no word and no checksum of a transfer is stored in. -/
theorem memGet_storeWords_of_ne (ws : List (Addr × Word)) (e : TransferEnd) (s : State) (b : Nat)
    (h : ∀ a ∈ ws.map Prod.fst ++ [e.dest], b ≠ a.toNat % s.cfg.memWords) :
    memGet (storeWords ws e s).mem b = memGet s.mem b := by
  refine (storeWords_induct (P := fun u => u.cfg = s.cfg ∧ memGet u.mem b = memGet s.mem b)
    (fun _ _ _ _ _ h => h) ws (fun a ha v u ⟨hcfg, hmem⟩ => ⟨by rw [memWrite_cfg, hcfg], ?_⟩)
    ⟨rfl, rfl⟩).2
  rw [memGet_memWrite_of_ne (by rw [hcfg]; exact h a ha), hmem]

/-- A transfer changes `IDX` only by a store at the `IDX` overlay. -/
theorem storeWords_idx (ws : List (Addr × Word)) (e : TransferEnd) (s : State)
    (h : ∀ a ∈ ws.map Prod.fst ++ [e.dest], writeTarget s.cfg a ≠ .index) :
    (storeWords ws e s).idx = s.idx := by
  refine (storeWords_induct (P := fun u => u.cfg = s.cfg ∧ u.idx = s.idx)
    (fun _ _ _ _ _ h => h) ws (fun a ha v u ⟨hcfg, hidx⟩ => ⟨by rw [memWrite_cfg, hcfg], ?_⟩)
    ⟨rfl, rfl⟩).2
  rw [memWrite_idx_of_ne (by rw [hcfg]; exact h a ha), hidx]

/-- A transfer changes `IR` only by a store at the `IR` overlay. -/
theorem storeWords_ir (ws : List (Addr × Word)) (e : TransferEnd) (s : State)
    (h : ∀ a ∈ ws.map Prod.fst ++ [e.dest], writeTarget s.cfg a ≠ .instruction) :
    (storeWords ws e s).ir = s.ir := by
  refine (storeWords_induct (P := fun u => u.cfg = s.cfg ∧ u.ir = s.ir)
    (fun _ _ _ _ _ h => h) ws (fun a ha v u ⟨hcfg, hir⟩ => ⟨by rw [memWrite_cfg, hcfg], ?_⟩)
    ⟨rfl, rfl⟩).2
  rw [memWrite_ir_of_ne (by rw [hcfg]; exact h a ha), hir]

/-- The status a transfer ends with, or leaves while a delivered word is executed (R208). -/
theorem storeWords_status (ws : List (Addr × Word)) (e : TransferEnd) (s : State)
    (hs : s.status = .ok) :
    (storeWords ws e s).status = .ok ∨
      e.status ≠ .ok ∧ (storeWords ws e s).status = deviceStatus e.status := by
  induction ws generalizing s with
  | nil =>
    unfold storeWords
    rcases transferEnd_cases e s with ⟨-, h⟩ | ⟨-, -, h⟩ | ⟨hne, -, h⟩
    · exact .inl (by rw [h, memWrite_status])
    · exact .inl (by rw [h])
    · exact .inr ⟨hne, by rw [h]; rfl⟩
  | cons p ws ih =>
    obtain ⟨a, w⟩ := p
    unfold storeWords
    split
    · exact .inl (by rw [memWrite_status, hs])
    · exact ih _ (by rw [memWrite_status, hs])

/-! ### Statuses -/

/-- R221: an instruction other than IOEXEC completes or has written its status alone. -/
theorem answers_ok_or_onlyStatus {i : Instr} {s t : State} (hio : isIoexec i = false)
    (h : Answers i s t) : t.status = .ok ∨ t = onlyStatus t.status s := by
  cases h with
  | failed st => exact .inr rfl
  | stored => exact .inl (memWrite_status ..)
  | called => exact .inl (by rw [jumpAfterStore_status, memWrite_status])
  | compared | jumped | looped | latched => exact .inl rfl
  | transferred a1 a2 a3 r hi => subst hi; cases hio

/-- Settles O21: only the failed form has a status other than `OK`. -/
theorem failingInstructionWritesNothing : Obligations.FailingInstructionWritesNothing := by
  intro i s t hio h hst
  exact (answers_ok_or_onlyStatus hio (exec_answers h)).resolve_left hst

/-- A device's error is a status of IOEXEC's row (R207, R216). -/
theorem deviceStatus_mem {d : DevStatus} (h : d ≠ .ok) (a1 a2 a3 : Operand) :
    deviceStatus d ∈ listedStatuses (.ioexec a1 a2 a3) := by
  cases d with
  | ok => exact absurd rfl h
  | cardCksum | cardRead | noCard | tapeRead => simp [deviceStatus, listedStatuses]

/-- Settles O22: a failed form carries a status of its row, and IOEXEC's are the device's. -/
theorem onlyListedStatusesAreRaised : Obligations.OnlyListedStatusesAreRaised := by
  intro i s t h
  cases exec_answers h with
  | failed st _ hlisted => exact .inr hlisted
  | stored => exact .inl (memWrite_status ..)
  | called => exact .inl (by rw [jumpAfterStore_status, memWrite_status])
  | compared | jumped | looped | latched => exact .inl rfl
  | transferred a1 a2 a3 r hi =>
    subst hi
    rcases storeWords_status r.writes (tailOf r a2 a3 s) (deviceRan (effAddr a1 s) s) rfl with
      hok | ⟨hne, hdev⟩
    · exact .inl hok
    · refine .inr ?_
      rw [hdev]
      exact deviceStatus_mem hne a1 a2 a3

/-! ### Memory -/

/-- Settles O31: only the storing forms write memory, at the operand of `storeOperand`. -/
theorem onlyTheStoreOperandsCellChanges : Obligations.OnlyTheStoreOperandsCellChanges := by
  intro i s t a hio h hne
  cases exec_answers h with
  | failed | compared | jumped | looped | latched => rfl
  | stored o r aux cf hstore => exact memGet_memWrite_of_ne (by exact hne o hstore) r
  | called o target marker hstore =>
    rw [jumpAfterStore_mem]
    exact memGet_memWrite_of_ne (by exact hne o hstore) marker
  | transferred a1 a2 a3 r hi => subst hi; cases hio

/-- What an IOEXEC answers: `ST_IO_CONFLICT`, or a transfer (R208). -/
theorem exec_ioexec_cases {a1 a2 a3 : Operand} {s t : State} (h : exec (.ioexec a1 a2 a3) s = .next t) :
    t = onlyStatus .ioConflict s ∨
      t = storeWords (devPerform (effAddr a1 s) s).writes
        (tailOf (devPerform (effAddr a1 s) s) a2 a3 s) (deviceRan (effAddr a1 s) s) := by
  simp only [exec, execIoexec] at h
  split_ifs at h
  · exact .inr (Host.Outcome.next.inj h).symm
  · exact .inl (Host.Outcome.next.inj h).symm

/-- Settles O32: the frame of a transfer, with the addresses of its words. -/
theorem ioexecFrame : Obligations.IoexecFrame := by
  intro a1 a2 a3 s t h
  rcases exec_ioexec_cases h with rfl | rfl
  · exact ⟨fun _ _ _ => rfl, rfl, rfl, rfl, rfl, rfl, rfl, rfl, rfl, fun _ => ⟨rfl, rfl⟩⟩
  · have frame := storeWords_frame (devPerform (effAddr a1 s) s).writes
      (tailOf (devPerform (effAddr a1 s) s) a2 a3 s) (deviceRan (effAddr a1 s) s)
    refine ⟨fun b hdest hwords => ?_, frame.cf, frame.aux, frame.iod, frame.cfg, frame.sw0, frame.sw1,
      frame.sw2, frame.sw3, fun hext => ⟨?_, ?_⟩⟩
    · refine memGet_storeWords_of_ne _ _ _ b fun a ha => ?_
      rcases List.mem_append.1 ha with ha | ha
      · obtain ⟨p, hp, rfl⟩ := List.mem_map.1 ha
        exact hwords p hp
      · rw [List.mem_singleton.1 ha]
        exact hdest
    · exact storeWords_idx _ _ _ fun a _ => writeTarget_ne_index hext a
    · exact storeWords_ir _ _ _ fun a _ => writeTarget_ne_instruction hext a

/-! ### `PC`, `RES`, `CF` and `AUX` -/

theorem groupOf_loopInstr (p : Polarity) (f : Bool) (a1 a2 a3 : Operand) :
    groupOf (loopInstr p f a1 a2 a3) = .control := by
  cases p <;> cases f <;> rfl

/-- Outside the control group an instruction other than IOEXEC keeps `PC` (R225). -/
theorem answers_pc {i : Instr} {s t : State} (h : Answers i s t) (hg : groupOf i ≠ .control)
    (hio : isIoexec i = false) : t.pc = s.pc := by
  cases h with
  | failed | compared | latched => rfl
  | stored => rw [memWrite_pc]
  | jumped _ hgroup => exact absurd hgroup hg
  | called _ _ _ _ hgroup => exact absurd hgroup hg
  | looped p f a1 a2 a3 _ _ hi => exact absurd (hi ▸ groupOf_loopInstr p f a1 a2 a3) hg
  | transferred a1 a2 a3 r hi => subst hi; cases hio

/-- Settles O33: the storing and comparing forms are outside the two groups, and of the loop forms the
two with the flag write `CF`. -/
theorem pcResultAndFlagWriters : Obligations.PcResultAndFlagWriters := by
  intro i s t h
  have ha := exec_answers h
  refine ⟨answers_pc ha, fun hg => ?_⟩
  cases ha with
  | failed | jumped | latched => exact ⟨fun _ => rfl, rfl, fun _ => rfl⟩
  | stored _ _ _ _ _ hgroup =>
    rcases hgroup with hgroup | hgroup <;> rw [hgroup] at hg <;> exact absurd hg (by decide)
  | compared hgroup => rw [hgroup] at hg; exact absurd hg (by decide)
  | called => exact ⟨fun _ => by simp, by simp, fun _ => by simp⟩
  | looped p f a1 a2 a3 _ taken hi =>
    refine ⟨fun _ => rfl, rfl, fun hnot => ?_⟩
    cases f with
    | false => rfl
    | true =>
      cases p with
      | lt => exact absurd hi (hnot a1 a2 a3).1
      | ge => exact absurd hi (hnot a1 a2 a3).2
  | transferred a1 a2 a3 r hi =>
    have frame := storeWords_frame r.writes (tailOf r a2 a3 s) (deviceRan (effAddr a1 s) s)
    exact ⟨fun hio => (by subst hi; cases hio), frame.aux, fun _ => frame.cf⟩

/-- Settles O34: of the forms only `stored` writes `AUX`, for the instructions of `AuxWriter`. -/
theorem onlyTheListedInstructionsWriteAux : Obligations.OnlyTheListedInstructionsWriteAux := by
  intro i s t h hne
  cases exec_answers h with
  | failed | compared | jumped | looped | latched => exact absurd rfl hne
  | stored o r aux cf _ _ haux => exact haux (by simpa using hne)
  | called => exact absurd (by simp) hne
  | transferred => exact absurd (storeWords_frame _ _ _).aux hne

/-! ### `IDX`, `IR`, the descriptor, the delay, the switches and the inputs -/

theorem storesTo_of_storeOperand {i : Instr} {o : Operand} (h : storeOperand i = some o) (s : State) :
    storesTo i s = [effAddr o s] := by
  unfold storesTo
  split
  · cases h
  · rw [h]; rfl

/-- `IDX` is written by a loop, or by a store at its overlay. -/
theorem answers_idx {i : Instr} {s t : State} (h : Answers i s t) (hne : t.idx ≠ s.idx) :
    (∃ p f a1 a2 a3, i = loopInstr p f a1 a2 a3) ∨
      ∃ a ∈ storesTo i s, writeTarget s.cfg a = .index := by
  cases h with
  | failed | compared | jumped | latched => exact absurd rfl hne
  | looped p f a1 a2 a3 _ _ hi => exact .inl ⟨p, f, a1, a2, a3, hi⟩
  | stored o r aux cf hstore =>
    refine .inr ⟨effAddr o s, by simp [storesTo_of_storeOperand hstore], ?_⟩
    exact not_not.1 fun hno => hne (memWrite_idx_of_ne (by exact hno) r)
  | called o target marker hstore =>
    refine .inr ⟨effAddr o s, by simp [storesTo_of_storeOperand hstore], ?_⟩
    exact not_not.1 fun hno => hne (by rw [jumpAfterStore_idx]; exact memWrite_idx_of_ne (by exact hno) marker)
  | transferred a1 a2 a3 r hi hr =>
    subst hi hr
    by_contra hno
    exact hne (storeWords_idx _ _ _ fun a ha hidx => hno (.inr ⟨a, ha, hidx⟩))

/-- `IR` is written by a store at its overlay. -/
theorem answers_ir {i : Instr} {s t : State} (h : Answers i s t) (hne : t.ir ≠ s.ir) :
    ∃ a ∈ storesTo i s, writeTarget s.cfg a = .instruction := by
  cases h with
  | failed | compared | jumped | looped | latched => exact absurd rfl hne
  | stored o r aux cf hstore =>
    refine ⟨effAddr o s, by simp [storesTo_of_storeOperand hstore], ?_⟩
    exact not_not.1 fun hno => hne (memWrite_ir_of_ne (by exact hno) r)
  | called o target marker hstore =>
    refine ⟨effAddr o s, by simp [storesTo_of_storeOperand hstore], ?_⟩
    exact not_not.1 fun hno => hne (by rw [jumpAfterStore_ir]; exact memWrite_ir_of_ne (by exact hno) marker)
  | transferred a1 a2 a3 r hi hr =>
    subst hi hr
    by_contra hno
    exact hne (storeWords_ir _ _ _ fun a ha hir => hno ⟨a, ha, hir⟩)

/-- What no instruction but the ones named changes: the descriptor, the delay and the devices; and what
no instruction changes at all. -/
structure InstrFrame (i : Instr) (s t : State) : Prop where
  iod : (∀ a1 a2 a3, i ≠ .iosetup a1 a2 a3) → t.iod = s.iod
  delay : isIoexec i = false → t.delay = s.delay
  devices : isIoexec i = false → t.devices = s.devices
  sw0 : t.sw0 = s.sw0
  sw1 : t.sw1 = s.sw1
  sw2 : t.sw2 = s.sw2
  sw3 : t.sw3 = s.sw3
  cfg : t.cfg = s.cfg

theorem answers_frame {i : Instr} {s t : State} (h : Answers i s t) : InstrFrame i s t := by
  cases h with
  | failed | compared | jumped | looped =>
    exact ⟨fun _ => rfl, fun _ => rfl, fun _ => rfl, rfl, rfl, rfl, rfl, rfl⟩
  | stored =>
    exact ⟨fun _ => by simp, fun _ => by simp, fun _ => by simp, by simp, by simp, by simp, by simp,
      by simp⟩
  | called =>
    exact ⟨fun _ => by simp, fun _ => by simp, fun _ => by simp, by simp, by simp, by simp, by simp,
      by simp⟩
  | latched a1 a2 a3 d hi =>
    exact ⟨fun hno => absurd hi (hno a1 a2 a3), fun _ => rfl, fun _ => rfl, rfl, rfl, rfl, rfl, rfl⟩
  | transferred a1 a2 a3 r hi =>
    have frame := storeWords_frame r.writes (tailOf r a2 a3 s) (deviceRan (effAddr a1 s) s)
    subst hi
    exact ⟨fun _ => frame.iod, nofun, nofun, frame.sw0, frame.sw1, frame.sw2, frame.sw3, frame.cfg⟩

/-- Settles O35: the writers of `IDX` and of `IR`, and the frame of every instruction. -/
theorem indexDescriptorAndSwitchWriters : Obligations.IndexDescriptorAndSwitchWriters := by
  intro i s t h
  have ha := exec_answers h
  have frame := answers_frame ha
  exact ⟨answers_idx ha, answers_ir ha, frame.iod, fun hio => ⟨frame.delay hio, frame.devices hio⟩,
    frame.sw0, frame.sw1, frame.sw2, frame.sw3, frame.cfg⟩

end Sys2Proof.Machine
end

section
/-! The controller's step (R38, R224 to R227): what every executed word keeps, proved once through the
nested re-execution, and the step's answer in each of the cases of R226. -/

namespace Sys2Proof.Machine

open Sys2Proof.Claims

/-! ### What every step keeps -/

/-- What no instruction, re-execution or device transfer changes (R6, R18), that the delay only grows
(R22), and that memory stays canonical. -/
structure Keeps (s t : State) : Prop where
  cfg : t.cfg = s.cfg
  sw0 : t.sw0 = s.sw0
  sw1 : t.sw1 = s.sw1
  sw2 : t.sw2 = s.sw2
  sw3 : t.sw3 = s.sw3
  delay : s.delay ≤ t.delay
  mem : 45 ≤ s.cfg.storeW → 1 ≤ s.cfg.memWords → memWf s.cfg.memWords s.cfg.storeW s.mem →
    memWf s.cfg.memWords s.cfg.storeW t.mem

theorem Keeps.rfl {s : State} : Keeps s s :=
  ⟨Eq.refl _, Eq.refl _, Eq.refl _, Eq.refl _, Eq.refl _, le_refl _, fun _ _ h => h⟩

theorem Keeps.trans {s t u : State} (h : Keeps s t) (k : Keeps t u) : Keeps s u where
  cfg := k.cfg.trans h.cfg
  sw0 := k.sw0.trans h.sw0
  sw1 := k.sw1.trans h.sw1
  sw2 := k.sw2.trans h.sw2
  sw3 := k.sw3.trans h.sw3
  delay := h.delay.trans k.delay
  mem hw hn hm := by
    have hmem := k.mem
    rw [h.cfg] at hmem
    exact hmem hw hn (h.mem hw hn hm)

theorem Keeps.memWrite {s t : State} (h : Keeps s t) (a : Addr) (v : Word) :
    Keeps s (memWrite a v t) where
  cfg := by rw [memWrite_cfg, h.cfg]
  sw0 := by rw [memWrite_sw0, h.sw0]
  sw1 := by rw [memWrite_sw1, h.sw1]
  sw2 := by rw [memWrite_sw2, h.sw2]
  sw3 := by rw [memWrite_sw3, h.sw3]
  delay := by rw [memWrite_delay]; exact h.delay
  mem hw hn hm := by
    have := memWrite_wf a v t
    rw [h.cfg] at this
    exact this (h.mem hw hn hm) hw hn

/-- The registers that instructions write are not among what is kept. -/
theorem Keeps.registers {s t : State} (h : Keeps s t) (pc : Addr) (ir : Word) (idx : Addr) (res : Word)
    (cf : Bool) (aux : Word) (iod : Descriptor) (st : Status) (pd : Pending) (dv : Devices) :
    Keeps s { t with
      pc := pc, ir := ir, idx := idx, res := res, cf := cf, aux := aux, iod := iod, status := st,
      pend := pd, devices := dv } :=
  ⟨h.cfg, h.sw0, h.sw1, h.sw2, h.sw3, h.delay, h.mem⟩

theorem Keeps.addDelay {s t : State} (h : Keeps s t) (d : Nat) :
    Keeps s { t with delay := t.delay + d } :=
  ⟨h.cfg, h.sw0, h.sw1, h.sw2, h.sw3, h.delay.trans (Nat.le_add_right _ _), h.mem⟩

theorem Keeps.transferEnd {s t : State} (h : Keeps s t) (e : TransferEnd) :
    Keeps s (transferEnd e t) :=
  transferEnd_induct (P := Keeps s) (fun v _ h => h.memWrite e.dest v)
    (fun u pc res st pd h => h.registers pc u.ir u.idx res u.cf u.aux u.iod st pd u.devices) h

theorem keeps_jumpAfterStore (target : Addr) (s : State) : Keeps s (jumpAfterStore target s) := by
  unfold jumpAfterStore
  split
  · exact Keeps.rfl.registers s.pc s.ir s.idx s.res s.cf s.aux s.iod s.status _ s.devices
  · exact Keeps.rfl.registers target s.ir s.idx s.res s.cf s.aux s.iod s.status s.pend s.devices

theorem keeps_finish (s : State) : Keeps s (finish s) :=
  ⟨finish_cfg s, finish_sw0 s, finish_sw1 s, finish_sw2 s, finish_sw3 s, (finish_delay s).ge,
    fun _ _ h => by rwa [finish_mem]⟩

theorem keeps_fetched (w : Word) (s : State) : Keeps s (fetched w s) :=
  Keeps.rfl.registers _ w s.idx s.res s.cf s.aux s.iod s.status .idle s.devices

/-- Every instruction, by the forms of its answer. -/
theorem Answers.keeps {i : Instr} {s t : State} (h : Answers i s t) : Keeps s t := by
  cases h with
  | failed st =>
    exact Keeps.rfl.registers s.pc s.ir s.idx s.res s.cf s.aux s.iod st s.pend s.devices
  | stored o r aux cf =>
    exact (Keeps.rfl.registers s.pc s.ir s.idx r cf aux s.iod .ok s.pend s.devices).memWrite _ r
  | compared =>
    exact Keeps.rfl.registers s.pc s.ir s.idx 0 true s.aux s.iod .ok s.pend s.devices
  | jumped target =>
    exact Keeps.rfl.registers target s.ir s.idx s.res s.cf s.aux s.iod .ok s.pend s.devices
  | called o target marker =>
    exact ((Keeps.rfl.registers s.pc s.ir s.idx s.res s.cf s.aux s.iod .ok s.pend s.devices).memWrite
      _ marker).trans (keeps_jumpAfterStore target _)
  | looped p f a1 a2 a3 target taken =>
    exact Keeps.rfl.registers target s.ir _ s.res _ s.aux s.iod .ok s.pend s.devices
  | latched a1 a2 a3 d =>
    exact Keeps.rfl.registers s.pc s.ir s.idx s.res s.cf s.aux d .ok s.pend s.devices
  | transferred a1 a2 a3 r =>
    refine storeWords_induct (P := Keeps s)
      (fun u pc res st pd h => h.registers pc u.ir u.idx res u.cf u.aux u.iod st pd u.devices)
      r.writes (fun a _ v u h => h.memWrite a v) ?_
    exact (Keeps.rfl.addDelay _).registers s.pc s.ir s.idx s.res s.cf s.aux s.iod .ok s.pend
      (deviceCalled s.devices)

/-! ### What an executed word can answer -/

/-- The answers of an instruction executed to completion in the state `s`: a state that keeps what is
kept, with no re-execution half done; or one of the two refusals, each with its reason. -/
inductive Reaches (s : State) : Result → Prop
  | next (t : State) (keeps : Keeps s t) (idle : t.pend = .idle) : Reaches s (.next t)
  | depth : Reaches s (.refused .reexecutionDepth)
  | alternate (h : s.cfg.alt = true) : Reaches s (.refused .addressFormation)

theorem Reaches.of_keeps {s u : State} {r : Result} (hk : Keeps s u) (h : Reaches u r) :
    Reaches s r := by
  cases h with
  | next t keeps idle => exact .next t (hk.trans keeps) idle
  | depth => exact .depth
  | alternate h => exact .alternate (by rw [← hk.cfg]; exact h)

theorem Reaches.andThen {s : State} {r : Result} {k : State → Result} (h : Reaches s r)
    (hk : ∀ t, t.pend = .idle → Reaches t (k t)) : Reaches s (andThen r k) := by
  cases h with
  | next t keeps idle => exact (hk t idle).of_keeps keeps
  | depth => exact .depth
  | alternate h => exact .alternate h

theorem withRead_total {a : Addr} {s : State} {k : Word → Result} (hk : ∀ w, ∃ t, k w = .next t) :
    ∃ t, withRead a s k = .next t := by
  unfold withRead
  split
  · exact hk _
  · exact ⟨_, rfl⟩

theorem expFinish_total (nn : Bool) (x : Word) (e : Int) (tg : Bool) (dest : Addr) (s : State) :
    ∃ t, expFinish nn x e tg dest s = .next t := by
  unfold expFinish
  split <;> exact ⟨_, rfl⟩

/-- The only refusal of an instruction is that of ADDRFORM in the alternate mode (R198). -/
theorem exec_next_or_alternate (i : Instr) (s : State) :
    (∃ t, exec i s = .next t) ∨ s.cfg.alt = true ∧ exec i s = .refused .addressFormation := by
  cases family i with
  | add op nr nn a1 a2 a3 =>
    rw [exec_addInstr]
    refine .inl (withRead_total fun x => withRead_total fun y => ?_)
    split <;> exact ⟨_, rfl⟩
  | mul nr nn a1 a2 a3 =>
    rw [exec_mulInstr]
    refine .inl (withRead_total fun x => withRead_total fun y => ?_)
    split <;> exact ⟨_, rfl⟩
  | low nr nn a1 a2 a3 => rw [exec_lowInstr]; exact .inl ⟨_, rfl⟩
  | div nr a1 a2 a3 =>
    rw [exec_divInstr]
    refine .inl (withRead_total fun x => withRead_total fun y => ?_)
    split <;> exact ⟨_, rfl⟩
  | sqrt nr a1 a2 a3 =>
    rw [exec_sqrtInstr]
    refine .inl (withRead_total fun x => ?_)
    split <;> exact ⟨_, rfl⟩
  | expImmediate sb nn a1 a2 a3 =>
    rw [exec_expImmediateInstr]
    exact .inl (withRead_total fun x => expFinish_total ..)
  | expOperand sb nn a1 a2 a3 =>
    rw [exec_expOperandInstr]
    exact .inl (withRead_total fun z => withRead_total fun x => expFinish_total ..)
  | binary f a1 a2 a3 row exec_eq =>
    rw [exec_eq]
    exact .inl (withRead_total fun x => withRead_total fun y => ⟨_, rfl⟩)
  | immediate f a1 a2 a3 row exec_eq => rw [exec_eq]; exact .inl (withRead_total fun x => ⟨_, rfl⟩)
  | mov a1 a2 a3 => exact .inl (withRead_total fun x => ⟨_, rfl⟩)
  | rdsw a1 a2 a3 =>
    simp only [exec, execRdsw]
    split <;> exact .inl ⟨_, rfl⟩
  | xorchk a1 a2 a3 =>
    refine .inl (withRead_total fun x => withRead_total fun y => ?_)
    split <;> exact ⟨_, rfl⟩
  | loop p f a1 a2 a3 => rw [exec_loopInstr]; exact .inl ⟨_, rfl⟩
  | jmp | jc | jnc | jsr | halt | halt2 | reserved057 | reserved077 => exact .inl ⟨_, rfl⟩
  | addrform a1 a2 a3 =>
    simp only [exec, execAddrform]
    split_ifs with halt
    · exact .inr ⟨halt, rfl⟩
    · exact .inl ⟨_, rfl⟩
  | iosetup a1 a2 a3 =>
    simp only [exec, execIosetup]
    split <;> exact .inl ⟨_, rfl⟩
  | ioexec a1 a2 a3 =>
    simp only [exec, execIoexec]
    split_ifs <;> exact .inl ⟨_, rfl⟩

/-! ### The nested re-execution -/

/-- From an idle state a store leaves a re-execution due or nothing. -/
theorem memWrite_pend_of_idle {s : State} (h : s.pend = .idle) (a : Addr) (v : Word) :
    (memWrite a v s).pend = .store ∨ (memWrite a v s).pend = .idle := by
  rcases memWrite_pend_eq a v s with ⟨hp, -⟩ | ⟨hp, -⟩
  · exact .inl hp
  · exact .inr (hp.trans h)

theorem transferEnd_pend_of_idle {s : State} (h : s.pend = .idle) (e : TransferEnd) :
    (transferEnd e s).pend = .store ∨ (transferEnd e s).pend = .idle := by
  rcases transferEnd_cases e s with ⟨-, he⟩ | ⟨-, -, he⟩ | ⟨-, -, he⟩
  · rw [he]; exact memWrite_pend_of_idle (by exact h) _ _
  · rw [he]; exact .inr h
  · rw [he]; exact .inr h

section
variable {re : State → Result} {ws : List (Addr × Word)} {e : TransferEnd} {s : State} {a : Addr}
  {w : Word}

theorem resumeTransfer_nil_store (h : (transferEnd e s).pend = .store) :
    resumeTransfer re [] e s = rerun re (transferEnd e s) := by
  simp only [resumeTransfer, h]

theorem resumeTransfer_nil_idle (h : (transferEnd e s).pend = .idle) :
    resumeTransfer re [] e s = .next (transferEnd e s) := by
  simp only [resumeTransfer, h]

theorem resumeTransfer_cons_store (h : (memWrite a w s).pend = .store) :
    resumeTransfer re ((a, w) :: ws) e s =
      andThen (rerun re (memWrite a w s)) (resumeTransfer re ws e) := by
  simp only [resumeTransfer, h]

theorem resumeTransfer_cons_idle (h : (memWrite a w s).pend = .idle) :
    resumeTransfer re ((a, w) :: ws) e s = resumeTransfer re ws e (memWrite a w s) := by
  simp only [resumeTransfer, h]

theorem settle_jump {target : Addr} (h : s.pend = .jump target) :
    settle re s = andThen (rerun re s) fun t => .next { t with pc := target } := by
  simp only [settle, h]

theorem settle_transfer (h : s.pend = .transfer ws e) :
    settle re s = andThen (rerun re s) (resumeTransfer re ws e) := by
  simp only [settle, h]

theorem rerun_reaches (hre : ∀ u, u.pend = .idle → Reaches u (re u)) : Reaches s (rerun re s) :=
  (hre _ rfl).of_keeps
    (Keeps.rfl.registers s.pc s.ir s.idx s.res s.cf s.aux s.iod s.status .idle s.devices)

theorem resumeTransfer_reaches (hre : ∀ u, u.pend = .idle → Reaches u (re u)) (hs : s.pend = .idle) :
    Reaches s (resumeTransfer re ws e s) := by
  induction ws generalizing s with
  | nil =>
    have hend := Keeps.rfl.transferEnd (s := s) e
    rcases transferEnd_pend_of_idle hs e with hp | hp
    · rw [resumeTransfer_nil_store hp]
      exact (rerun_reaches hre).of_keeps hend
    · rw [resumeTransfer_nil_idle hp]
      exact .next _ hend hp
  | cons p ws ih =>
    obtain ⟨a, w⟩ := p
    have hstored := Keeps.rfl.memWrite (s := s) a w
    rcases memWrite_pend_of_idle hs a w with hp | hp
    · rw [resumeTransfer_cons_store hp]
      exact ((rerun_reaches hre).andThen fun t ht => ih ht).of_keeps hstored
    · rw [resumeTransfer_cons_idle hp]
      exact (ih hp).of_keeps hstored

theorem settle_reaches (hre : ∀ u, u.pend = .idle → Reaches u (re u)) : Reaches s (settle re s) := by
  cases hp : s.pend with
  | idle => rw [settle_idle _ _ hp]; exact .next s Keeps.rfl hp
  | store => rw [settle_store _ _ hp]; exact rerun_reaches hre
  | jump target =>
    rw [settle_jump hp]
    exact (rerun_reaches hre).andThen fun t ht =>
      .next _ (Keeps.rfl.registers target t.ir t.idx t.res t.cf t.aux t.iod t.status t.pend t.devices) ht
  | transfer ws e =>
    rw [settle_transfer hp]
    exact (rerun_reaches hre).andThen fun t ht => resumeTransfer_reaches hre ht

end

/-- R38: a word executed to completion, at any depth of nesting. -/
theorem execute_reaches (n : Nat) (w : Word) (s : State) : Reaches s (execute n w s) := by
  induction n generalizing w s with
  | zero => exact .depth
  | succ n ih =>
    have hcharged : Keeps s (chargeDelay (opcOf w) s) := Keeps.rfl.addDelay _
    rw [execute_succ]
    rcases exec_next_or_alternate (decodeWith s.cfg.opmap w) (chargeDelay (opcOf w) s) with
      ⟨t, ht⟩ | ⟨halt, hr⟩
    · rw [ht, andThen_of_next]
      exact (settle_reaches fun u _ => ih u.ir u).of_keeps (hcharged.trans (exec_answers ht).keeps)
    · rw [hr, andThen_of_refused]
      exact .alternate halt

theorem step_reaches (s : State) : Reaches s (step s) := by
  unfold step
  cases hw : memRead s s.pc with
  | none =>
    rw [stepOnce_none s hw]
    exact .next _ (Keeps.rfl.registers s.pc s.ir s.idx s.res s.cf s.aux s.iod .memCorrupt .idle
      s.devices) rfl
  | some w =>
    rw [stepOnce_some s w hw]
    refine ((execute_reaches _ w (fetched w s)).of_keeps (keeps_fetched w s)).andThen fun t ht => ?_
    exact .next _ (keeps_finish t) (by rw [finish_pend, ht])

theorem step_keeps {s t : State} (h : step s = .next t) : Keeps s t ∧ t.pend = .idle := by
  have hr := step_reaches s
  rw [h] at hr
  cases hr with
  | next _ keeps idle => exact ⟨keeps, idle⟩

/-- Settles O26: every step keeps memory canonical and leaves no re-execution half done. -/
theorem everyStepKeepsTheInvariant : Obligations.EveryStepKeepsTheInvariant := by
  intro s t ⟨hwf, hw, hn, _⟩ h
  obtain ⟨keeps, idle⟩ := step_keeps h
  have hmem := keeps.mem hw hn hwf
  rw [← keeps.cfg] at hmem hw hn
  exact ⟨hmem, hw, hn, idle⟩

/-- Settles O27. -/
theorem resetHasTheInvariant : Obligations.ResetHasTheInvariant :=
  ⟨reset_mem_wf, by decide, by decide, rfl⟩

/-- Settles O30: switches, inputs and delay are among what every step keeps. -/
theorem switchesAndInputsStayAndDelayGrows : Obligations.SwitchesAndInputsStayAndDelayGrows := by
  intro s t h
  obtain ⟨keeps, -⟩ := step_keeps h
  exact ⟨keeps.sw0, keeps.sw1, keeps.sw2, keeps.sw3, keeps.cfg, keeps.delay⟩

/-! ### The bound on the nesting -/

section
variable {re re' : State → Result} (hre : ∀ u v, re u = .next v → re' u = .next v)
include hre

theorem resumeTransfer_mono (ws : List (Addr × Word)) (e : TransferEnd) {s t : State}
    (h : resumeTransfer re ws e s = .next t) : resumeTransfer re' ws e s = .next t := by
  induction ws generalizing s with
  | nil =>
    unfold resumeTransfer at h ⊢
    split at h
    · exact hre _ _ h
    · exact h
  | cons p ws ih =>
    obtain ⟨a, w⟩ := p
    unfold resumeTransfer at h ⊢
    split at h
    · obtain ⟨u, hu, h⟩ := andThen_next h
      rw [rerun, hre _ _ hu, andThen_of_next]
      exact ih h
    · exact ih h

theorem settle_mono {s t : State} (h : settle re s = .next t) : settle re' s = .next t := by
  cases hp : s.pend with
  | idle => rw [settle_idle _ _ hp] at h ⊢; exact h
  | store => rw [settle_store _ _ hp] at h ⊢; exact hre _ _ h
  | jump target =>
    rw [settle_jump hp] at h ⊢
    obtain ⟨u, hu, h⟩ := andThen_next h
    rw [rerun, hre _ _ hu, andThen_of_next]
    exact h
  | transfer ws e =>
    rw [settle_transfer hp] at h ⊢
    obtain ⟨u, hu, h⟩ := andThen_next h
    rw [rerun, hre _ _ hu, andThen_of_next]
    exact resumeTransfer_mono hre ws e h

end

/-- One more level of nesting changes no answer. -/
theorem execute_succ_of_next {n : Nat} {w : Word} {s t : State} (h : execute n w s = .next t) :
    execute (n + 1) w s = .next t := by
  induction n generalizing w s t with
  | zero => cases h
  | succ n ih =>
    rw [execute_succ] at h
    obtain ⟨u, hu, h⟩ := andThen_next h
    rw [execute_succ, hu, andThen_of_next]
    exact settle_mono (fun _ _ hv => ih hv) h

/-- Settles O19: the depth counts levels and nothing else, and the two refusals have their reasons. -/
theorem nestingBoundIsOnlyAResourceLimit : Obligations.NestingBoundIsOnlyAResourceLimit := by
  refine ⟨fun n k w s t h => ?mono, fun s halt => ?total⟩
  case mono =>
    induction k with
    | zero => exact h
    | succ k ih => exact execute_succ_of_next ih
  case total =>
    have hr := step_reaches s
    generalize step s = r at hr
    cases hr with
    | next t keeps => exact .inr ⟨t, rfl, keeps.cfg⟩
    | depth => exact .inl rfl
    | alternate h => rw [halt] at h; cases h

end Sys2Proof.Machine
end

section
/-! One step, case by case (R38, R208, R217 to R227, R246): a completed instruction, a chain of stores to
the `IR` overlay, a word delivered there, a failure and its repetition, and the cleared machine. -/

namespace Sys2Proof.Machine

open Sys2Proof.Claims

/-! ### The step of a readable fetch -/

theorem chargeDelay_fetched (w : Word) (s : State) :
    chargeDelay (opcOf w) (fetched w s) = entered w s := rfl

theorem reexecLimit_eq : Config.reexecLimit = 4095 + 1 := rfl

/-- R224 to R226 in one line. -/
theorem step_of_fetch {s : State} {w : Word} (h : memRead s s.pc = some w) :
    step s = andThen
      (andThen (exec (decodeWith s.cfg.opmap w) (entered w s)) (settle fun t => execute 4095 t.ir t))
      fun t => .next (finish t) := by
  rw [step, stepOnce_some s w h, reexecLimit_eq, execute_succ, fetched_cfg, chargeDelay_fetched]

/-- A step whose instruction's answer is settled. -/
theorem step_of_settle {s t u : State} {w : Word} (h : memRead s s.pc = some w)
    (ht : exec (decodeWith s.cfg.opmap w) (entered w s) = .next t)
    (hu : settle (fun t => execute 4095 t.ir t) t = .next u) : step s = .next (finish u) := by
  rw [step_of_fetch h, ht, andThen_of_next, hu, andThen_of_next]

theorem step_of_idle {s t : State} {w : Word} (h : memRead s s.pc = some w)
    (ht : exec (decodeWith s.cfg.opmap w) (entered w s) = .next t) (hp : t.pend = .idle) :
    step s = .next (finish t) :=
  step_of_settle h ht (settle_idle _ _ hp)

/-- Settles O16: nothing is left to settle after an idle answer, and a refusal passes through. -/
theorem stepRunsTheDecodedInstruction : Obligations.StepRunsTheDecodedInstruction := by
  intro s w h
  refine ⟨fun t ht hp => step_of_idle h ht hp, fun x hx => ?_⟩
  rw [step_of_fetch h, hx, andThen_of_refused, andThen_of_refused]

/-! ### Words stored at the `IR` overlay -/

theorem execute_reexecuted (d : Nat) (s : State) :
    execute (d + 1) s.ir { s with pend := .idle } =
      andThen (reexecuted s) (settle fun t => execute d t.ir t) := rfl

/-- R38: a chain of `n` stores to the `IR` overlay, within `d` levels. -/
theorem settle_chain (n d : Nat) (chain : Nat → State) (hnd : n ≤ d)
    (hchain : ∀ k < n, (chain k).pend = .store ∧ reexecuted (chain k) = .next (chain (k + 1)))
    (hlast : (chain n).pend = .idle) :
    settle (fun t => execute d t.ir t) (chain 0) = .next (chain n) := by
  induction n generalizing d chain with
  | zero => exact settle_idle _ _ hlast
  | succ n ih =>
    obtain ⟨d, rfl⟩ : ∃ d', d = d' + 1 := ⟨d - 1, by omega⟩
    obtain ⟨hstore, hnext⟩ := hchain 0 (by omega)
    rw [settle_store _ _ hstore]
    refine (execute_reexecuted d (chain 0)).trans ?_
    rw [hnext, andThen_of_next]
    exact ih d (fun k => chain (k + 1)) (by omega) (fun k hk => hchain (k + 1) (by omega)) hlast

/-- Settles O17: the chain of the fetched instruction's own store. -/
theorem stepReexecutesTheStoredWord : Obligations.StepReexecutesTheStoredWord := by
  intro s w n chain hn hfetch hfirst hchain hlast
  rw [reexecLimit_eq] at hn
  exact step_of_settle hfetch hfirst (settle_chain n 4095 chain (by omega) hchain hlast)

/-! ### Words delivered by a device -/

@[simp] theorem storeAll_cfg (ws : List (Addr × Word)) (s : State) : (storeAll ws s).cfg = s.cfg := by
  induction ws generalizing s with
  | nil => rfl
  | cons p ws ih => rw [storeAll, ih, memWrite_cfg]

theorem storeAll_pend {ws : List (Addr × Word)} {s : State}
    (h : ∀ p ∈ ws, writeTarget s.cfg p.1 ≠ .instruction) : (storeAll ws s).pend = s.pend := by
  induction ws generalizing s with
  | nil => rfl
  | cons p ws ih =>
    rw [storeAll, ih fun q hq => by rw [memWrite_cfg]; exact h q (by simp [hq])]
    exact memWrite_pend _ _ _ (h p (by simp))

/-- The words before the first that lands on the `IR` overlay are stored, and the rest goes on. -/
theorem storeWords_append {before rest : List (Addr × Word)} {e : TransferEnd} {s : State}
    (hs : s.pend = .idle) (h : ∀ p ∈ before, writeTarget s.cfg p.1 ≠ .instruction) :
    storeWords (before ++ rest) e s = storeWords rest e (storeAll before s) := by
  induction before generalizing s with
  | nil => rfl
  | cons p before ih =>
    have hp : (memWrite p.1 p.2 s).pend = .idle := by
      rw [memWrite_pend _ _ _ (h p (by simp)), hs]
    simp only [List.cons_append, storeWords, storeAll, hp]
    exact ih hp fun q hq => by rw [memWrite_cfg]; exact h q (by simp [hq])

theorem storeWords_instruction {a : Addr} {w : Word} {rest : List (Addr × Word)} {e : TransferEnd}
    {s : State} (h : writeTarget s.cfg a = .instruction) :
    storeWords ((a, w) :: rest) e s = { s with ir := w, pend := .transfer rest e } := by
  simp only [storeWords, memWrite_instruction h]

/-- R210: with no word on the `IR` overlay the words are stored in order, then the transfer ends. -/
theorem storeWords_of_cells {ws : List (Addr × Word)} {e : TransferEnd} {s : State}
    (hs : s.pend = .idle) (h : ∀ p ∈ ws, writeTarget s.cfg p.1 ≠ .instruction) :
    storeWords ws e s = transferEnd e (storeAll ws s) := by
  have := storeWords_append (rest := []) (e := e) hs h
  rwa [List.append_nil] at this

theorem resumeTransfer_of_cells {re : State → Result} {ws : List (Addr × Word)} {e : TransferEnd}
    {s : State} (hs : s.pend = .idle) (h : ∀ p ∈ ws, writeTarget s.cfg p.1 ≠ .instruction)
    (hdest : writeTarget s.cfg e.dest ≠ .instruction) :
    resumeTransfer re ws e s = .next (transferEnd e (storeAll ws s)) := by
  induction ws generalizing s with
  | nil => exact resumeTransfer_nil_idle (by
      rcases transferEnd_cases e s with ⟨-, he⟩ | ⟨-, -, he⟩ | ⟨-, -, he⟩
      · rw [he, memWrite_pend _ _ _ (by exact hdest), hs]
      · rw [he, hs]
      · rw [he]; exact hs)
  | cons p ws ih =>
    have hp : (memWrite p.1 p.2 s).pend = .idle := by
      rw [memWrite_pend _ _ _ (h p (by simp)), hs]
    rw [resumeTransfer_cons_idle hp, storeAll]
    refine ih hp (fun q hq => ?_) ?_ <;> rw [memWrite_cfg]
    · exact h q (by simp [hq])
    · exact hdest

/-- R208's last lines as one conditional. -/
theorem transferEnd_eq (e : TransferEnd) (s : State) :
    transferEnd e s =
      if e.status = .ok then memWrite e.dest e.checksum { s with res := e.checksum, status := .ok }
      else if ioNostop s.iod.cc s = true then { s with pc := e.alternate, status := .ok }
      else onlyStatus (deviceStatus e.status) s := by
  rcases transferEnd_cases e s with ⟨hok, he⟩ | ⟨hne, hn, he⟩ | ⟨hne, hn, he⟩
  · rw [he, if_pos hok]
  · rw [he, if_neg hne, if_pos hn]
  · rw [he, if_neg hne, hn]; rfl

/-- An IOEXEC with a latched descriptor (R208). -/
theorem exec_ioexec {a1 a2 a3 : Operand} {s : State} (h : s.iod.valid = true) :
    exec (.ioexec a1 a2 a3) s = .next (storeWords (devPerform (effAddr a1 s) s).writes
      (tailOf (devPerform (effAddr a1 s) s) a2 a3 s) (deviceRan (effAddr a1 s) s)) := by
  simp only [exec, execIoexec, h, if_true]

/-- Settles O18: the words before the delivered instruction, its execution, and the rest of the
transfer in the state it leaves, whose inputs are those of the step. -/
theorem stepReexecutesADeliveredWord : Obligations.StepReexecutesADeliveredWord := by
  intro s d u v w0 w a1 a2 a3 r before after a hfetch hdec hvalid hr hwrites htarget hcells hdest hd hu
    hidle hv
  -- the state in which the device's call has returned
  have hcells0 : ∀ p ∈ before, writeTarget s.cfg p.1 ≠ .instruction :=
    fun p hp => hcells p (by simp [hp])
  have hd0 : d = storeAll before (deviceRan (effAddr a1 (entered w0 s)) (entered w0 s)) := hd
  have hdcfg : d.cfg = s.cfg := by rw [hd, storeAll_cfg]; rfl
  have hdidle : d.pend = .idle := by rw [hd]; exact storeAll_pend (by exact hcells0)
  have hexec : exec (decodeWith s.cfg.opmap w0) (entered w0 s) =
      .next { d with ir := w, pend := .transfer after (tailOf r a2 a3 s) } := by
    have hr0 : devPerform (effAddr a1 (entered w0 s)) (entered w0 s) = r := hr.symm
    rw [hdec, exec_ioexec (s := entered w0 s) hvalid, hr0, hwrites, storeWords_append rfl (by exact hcells0),
      ← hd0, storeWords_instruction (by rw [hdcfg]; exact htarget)]
    rfl
  -- the delivered word, executed to completion
  have hrerun : rerun (fun t => execute 4095 t.ir t)
      { d with ir := w, pend := .transfer after (tailOf r a2 a3 s) } = .next u := by
    refine (execute_reexecuted 4094 { d with ir := w }).trans ?_
    rw [hu, andThen_of_next, settle_idle _ _ hidle]
  have hucfg : u.cfg = s.cfg := by
    have hkeeps := (exec_answers hu).keeps.cfg
    exact hkeeps.trans hdcfg
  -- the rest of the transfer
  have hrest : settle (fun t => execute 4095 t.ir t)
      { d with ir := w, pend := .transfer after (tailOf r a2 a3 s) } =
        .next (transferEnd (tailOf r a2 a3 s) v) := by
    rw [settle_transfer rfl, hrerun, andThen_of_next, hv]
    refine resumeTransfer_of_cells hidle (fun p hp => ?_) ?_ <;> rw [hucfg]
    · exact hcells p (by simp [hp])
    · exact hdest
  rw [step_of_settle hfetch hexec hrest, transferEnd_eq]

/-! ### Outside the `EXT` mode -/

/-- Outside the `EXT` mode no store asks for a re-execution, so that an instruction leaves none due. -/
theorem Answers.pend {i : Instr} {s t : State} (h : Answers i s t) (hext : s.cfg.mmr ≠ .ext)
    (hs : s.pend = .idle) : t.pend = .idle := by
  have hno (a : Addr) : writeTarget s.cfg a ≠ .instruction := writeTarget_ne_instruction hext a
  cases h with
  | failed | compared | jumped | looped | latched => exact hs
  | stored o r => rw [memWrite_pend _ _ _ (by exact hno _)]; exact hs
  | called o target marker =>
    have hp : (memWrite (effAddr o s) marker { s with status := .ok }).pend = .idle := by
      rw [memWrite_pend _ _ _ (by exact hno _)]; exact hs
    simp only [jumpAfterStore, hp]
  | transferred a1 a2 a3 r =>
    rw [storeWords_of_cells (by exact hs) fun p _ => by exact hno p.1]
    have hstored : (storeAll r.writes (deviceRan (effAddr a1 s) s)).pend = .idle := by
      rw [storeAll_pend fun p _ => by exact hno p.1]; exact hs
    refine (transferEnd_pend_of_idle hstored _).resolve_left fun hstore => ?_
    rcases transferEnd_cases (tailOf r a2 a3 s) (storeAll r.writes (deviceRan (effAddr a1 s) s)) with
      ⟨-, he⟩ | ⟨-, -, he⟩ | ⟨-, -, he⟩
    · rw [he, memWrite_pend _ _ _ (by simp only [storeAll_cfg]; exact hno _), hstored] at hstore
      cases hstore
    · rw [he, hstored] at hstore; cases hstore
    · rw [he] at hstore; exact nomatch hstored.symm.trans hstore

/-- Settles O25: outside the two modes no instruction is refused and none asks for a re-execution. -/
theorem stepsInPlainModeAreNeverRefused : Obligations.StepsInPlainModeAreNeverRefused := by
  intro s ⟨hext, halt⟩
  have next : ∃ t, step s = .next t := by
    cases hw : memRead s s.pc with
    | none => exact ⟨_, stepOnce_none s hw⟩
    | some w =>
      rcases exec_next_or_alternate (decodeWith s.cfg.opmap w) (entered w s) with
        ⟨t, ht⟩ | ⟨halt', -⟩
      · exact ⟨_, step_of_idle hw ht ((exec_answers ht).pend hext rfl)⟩
      · exact absurd (halt.symm.trans halt') nofun
  obtain ⟨t, ht⟩ := next
  have hcfg := (step_keeps ht).1.cfg
  exact ⟨t, ht, by rw [hcfg]; exact hext, by rw [hcfg]; exact halt⟩

/-! ### A failed instruction -/

theorem overlayRead_of_ir (s t : State) (b : Addr) (hcfg : t.cfg = s.cfg) (hsw0 : t.sw0 = s.sw0)
    (hsw1 : t.sw1 = s.sw1) (hsw2 : t.sw2 = s.sw2) (hsw3 : t.sw3 = s.sw3) (hres : t.res = s.res)
    (hidx : t.idx = s.idx) (hir : t.ir = overlayRead s b) : overlayRead t b = overlayRead s b := by
  unfold overlayRead at hir ⊢
  split <;> simp_all

/-- Where the fetched word comes from, it is still read once it stands in `IR`. -/
theorem memRead_of_ir {s t : State} {a : Addr} {w : Word} (h : memRead s a = some w)
    (hmem : t.mem = s.mem) (hcfg : t.cfg = s.cfg) (hsw0 : t.sw0 = s.sw0) (hsw1 : t.sw1 = s.sw1)
    (hsw2 : t.sw2 = s.sw2) (hsw3 : t.sw3 = s.sw3) (hres : t.res = s.res) (hidx : t.idx = s.idx)
    (hir : t.ir = w) : memRead t a = some w := by
  rw [← h, memRead, memRead, hcfg]
  by_cases h0 : reduceAddr s.cfg a = 0
  · rw [h0, memReadAt_zero, memReadAt_zero]
  · refine memReadAt_congr hcfg (fun hov => ?_) (by rw [hmem])
    have hread : overlayRead s (reduceAddr s.cfg a) = w := by
      rw [memRead, memReadAt_overlaid h0 hov] at h
      exact Option.some.inj h
    exact overlayRead_of_ir s t _ hcfg hsw0 hsw1 hsw2 hsw3 hres hidx (hir.trans hread.symm)

/-- Settles O23: the failed form has only its status written, and the reload of R226 reads the word the
step has fetched. -/
theorem stepAfterFailedInstruction : Obligations.StepAfterFailedInstruction := by
  intro s t w hfetch hio ht hst
  have hform := failingInstructionWritesNothing _ _ _ hio ht hst
  rw [step_of_idle hfetch ht (by rw [hform]; rfl)]
  have hpc : t.pc - 1 = s.pc := by rw [hform]; exact BitVec.add_sub_cancel s.pc 1
  cases hroll : rollsBack t.status with
  | false =>
    rw [finish_of_not_rollsBack hroll]
    exact congrArg Host.Outcome.next hform
  | true =>
    have hread : memRead t (t.pc - 1) = some w := by
      rw [hpc]
      exact memRead_of_ir hfetch (by rw [hform]; rfl) (by rw [hform]; rfl) (by rw [hform]; rfl)
        (by rw [hform]; rfl) (by rw [hform]; rfl) (by rw [hform]; rfl) (by rw [hform]; rfl)
        (by rw [hform]; rfl) (by rw [hform]; rfl)
    rw [finish_of_rollsBack hroll hread, hpc, hform]
    rfl

/-! ### An instruction executed again -/

/-- The state with another delay and another status: neither is an input of an instruction. -/
def retimed (d : Nat) (st : Status) (s : State) : State := { s with delay := d, status := st }

/-- The answer with another delay. -/
def delayedAnswer (d : Nat) (r : Result) : Result := andThen r fun t => .next { t with delay := d }

theorem memWrite_delayed (a : Addr) (v : Word) (d : Nat) (s : State) :
    memWrite a v { s with delay := d } = { memWrite a v s with delay := d } := by
  cases h : writeTarget s.cfg a <;> simp only [memWrite, h]

section
variable (d : Nat) (st : Status) (s : State)

theorem withRead_retimed (a : Addr) {k k' : Word → Result}
    (hk : ∀ w, k' w = delayedAnswer d (k w)) :
    withRead a (retimed d st s) k' = delayedAnswer d (withRead a s k) := by
  have hread : memRead (retimed d st s) a = memRead s a := rfl
  cases hw : memRead s a with
  | none => rw [withRead_none _ _ _ hw, withRead_none _ _ _ (hread.trans hw)]; rfl
  | some w => rw [withRead_some _ _ _ _ hw, withRead_some _ _ _ _ (hread.trans hw), hk]

theorem arithFinish_retimed (r : Word) (dest : Addr) :
    arithFinish r dest (retimed d st s) = delayedAnswer d (arithFinish r dest s) :=
  congrArg Host.Outcome.next
    (memWrite_delayed dest r d { s with res := r, cf := signFlag r, status := .ok })

theorem logFinish_retimed (r : Word) (dest : Addr) :
    logFinish r dest (retimed d st s) = delayedAnswer d (logFinish r dest s) :=
  congrArg Host.Outcome.next
    (memWrite_delayed dest r d { s with res := r, cf := zeroFlag r, status := .ok })

theorem drawAux_retimed (x y : Word) (op : AuxOp) (nr nn fr : Bool) :
    drawAux x y op nr nn fr (retimed d st s) = retimed d st (drawAux x y op nr nn fr s) := by
  have hpath : (retimed d st s).cfg.path = s.cfg.path := rfl
  unfold drawAux
  rw [hpath]
  split <;> rfl

theorem expFinish_retimed (nn : Bool) (x : Word) (e : Int) (tg : Bool) (dest : Addr) :
    expFinish nn x e tg dest (retimed d st s) = delayedAnswer d (expFinish nn x e tg dest s) := by
  unfold expFinish
  split
  · rfl
  · exact arithFinish_retimed d st s _ dest

theorem jumpAfterStore_delayed (target : Addr) :
    jumpAfterStore target { s with delay := d } = { jumpAfterStore target s with delay := d } := by
  cases h : s.pend <;> simp only [jumpAfterStore, h]

/-- No instruction but IOEXEC depends on the delay or on the status before it. -/
theorem exec_retimed {i : Instr} (hio : isIoexec i = false) :
    exec i (retimed d st s) = delayedAnswer d (exec i s) := by
  cases family i with
  | add op nr nn a1 a2 a3 =>
    rw [exec_addInstr, exec_addInstr]
    refine withRead_retimed d st s _ fun x => withRead_retimed d st s _ fun y => ?_
    split
    · rfl
    · rw [drawAux_retimed]; exact arithFinish_retimed d st _ _ _
  | mul nr nn a1 a2 a3 =>
    rw [exec_mulInstr, exec_mulInstr]
    refine withRead_retimed d st s _ fun x => withRead_retimed d st s _ fun y => ?_
    split
    next => rfl
    next r low _ => exact arithFinish_retimed d st { s with aux := low } r _
  | low nr nn a1 a2 a3 =>
    rw [exec_lowInstr, exec_lowInstr]
    exact arithFinish_retimed d st s _ _
  | div nr a1 a2 a3 =>
    rw [exec_divInstr, exec_divInstr]
    refine withRead_retimed d st s _ fun x => withRead_retimed d st s _ fun y => ?_
    split
    · rfl
    · rw [drawAux_retimed]; exact arithFinish_retimed d st _ _ _
  | sqrt nr a1 a2 a3 =>
    rw [exec_sqrtInstr, exec_sqrtInstr]
    refine withRead_retimed d st s _ fun x => ?_
    split
    · rfl
    · rw [drawAux_retimed]; exact arithFinish_retimed d st _ _ _
  | expImmediate sb nn a1 a2 a3 =>
    rw [exec_expImmediateInstr, exec_expImmediateInstr]
    exact withRead_retimed d st s _ fun x => expFinish_retimed d st s nn x _ _ _
  | expOperand sb nn a1 a2 a3 =>
    rw [exec_expOperandInstr, exec_expOperandInstr]
    exact withRead_retimed d st s _ fun z => withRead_retimed d st s _ fun x =>
      expFinish_retimed d st s nn x _ _ _
  | binary f a1 a2 a3 row exec_eq =>
    rw [exec_eq, exec_eq]
    exact withRead_retimed d st s _ fun x => withRead_retimed d st s _ fun y =>
      logFinish_retimed d st s _ _
  | immediate f a1 a2 a3 row exec_eq =>
    rw [exec_eq, exec_eq]
    exact withRead_retimed d st s _ fun x => logFinish_retimed d st s _ _
  | mov a1 a2 a3 => exact withRead_retimed d st s _ fun x => logFinish_retimed d st s _ _
  | rdsw a1 a2 a3 =>
    cases hw : switchOf (effAddr a1 s) s with
    | some w =>
      rw [exec_rdsw_of_switch hw, exec_rdsw_of_switch (s := retimed d st s) hw]
      exact logFinish_retimed d st s _ _
    | none =>
      rw [exec_rdsw_of_no_switch hw, exec_rdsw_of_no_switch (s := retimed d st s) hw]
      rfl
  | xorchk a1 a2 a3 =>
    refine withRead_retimed d st s _ fun x => withRead_retimed d st s _ fun y => ?_
    split_ifs <;> rfl
  | loop p f a1 a2 a3 =>
    rw [exec_loopInstr, exec_loopInstr, loopFamily_eq, loopFamily_eq]
    cases p <;> rfl
  | jmp a1 a2 a3 => rfl
  | jc a1 a2 a3 => rw [exec_jc, exec_jc]; rfl
  | jnc a1 a2 a3 => rw [exec_jnc, exec_jnc]; rfl
  | jsr a1 a2 a3 =>
    refine congrArg Host.Outcome.next ?_
    exact (congrArg (jumpAfterStore (effAddr a2 s))
      (memWrite_delayed (effAddr a3 s) (returnMarker s.pc) d { s with status := .ok })).trans
      (jumpAfterStore_delayed d _ (effAddr a2 s))
  | halt | halt2 | reserved057 | reserved077 => rfl
  | addrform a1 a2 a3 =>
    have halt : (retimed d st s).cfg.alt = s.cfg.alt := rfl
    simp only [exec, execAddrform, halt]
    split_ifs <;> rfl
  | iosetup a1 a2 a3 =>
    have hsel : ioSelect (effAddr a1 (retimed d st s)) (retimed d st s) = ioSelect (effAddr a1 s) s :=
      rfl
    simp only [exec, execIosetup, hsel]
    split <;> rfl
  | ioexec a1 a2 a3 => cases hio

end

/-- Settles O24: the step after the failure is entered in the state of the failed step, but for the delay
and the status, and so fails in the same way. -/
theorem resumedFailureRepeats : Obligations.ResumedFailureRepeats := by
  intro s t w hext hfetch hio hstep hroll
  rcases exec_next_or_alternate (decodeWith s.cfg.opmap w) (entered w s) with ⟨e, he⟩ | ⟨-, hrefused⟩
  · have hfinish : t = finish e := by
      rw [step_of_idle hfetch he ((exec_answers he).pend hext rfl)] at hstep
      exact (Host.Outcome.next.inj hstep).symm
    have hfailed : e.status ≠ .ok := by
      intro hok
      rw [hfinish, finish_of_not_rollsBack (by rw [hok]; rfl), hok] at hroll
      cases hroll
    have hafter := stepAfterFailedInstruction s e w hfetch hio he hfailed
    obtain rfl := Host.Outcome.next.inj (hstep.symm.trans hafter)
    have hroll' : rollsBack e.status = true := hroll
    simp only [hroll', if_true]
    -- the second step fetches the same word
    have hfetch' := memRead_of_ir (t := { s with
        ir := w, delay := s.delay + Config.delayOf (opcOf w), status := e.status, pend := .idle })
      hfetch rfl rfl rfl rfl rfl rfl rfl rfl rfl
    -- and executes it in the same state but for the delay and the status
    have hagain := exec_retimed (s.delay + Config.delayOf (opcOf w) + Config.delayOf (opcOf w))
      e.status (entered w s) hio
    rw [he] at hagain
    refine ⟨_, stepAfterFailedInstruction _ _ w hfetch' hio hagain hfailed, rfl, ?_, rfl, rfl, rfl,
      rfl, rfl, rfl⟩
    simp only [hroll', if_true]
  · have hrefuse := (stepRunsTheDecodedInstruction s w hfetch).2 _ hrefused
    exact nomatch hrefuse.symm.trans hstep

/-! ### The cleared machine -/

/-- MOV of a readable word (R157). -/
theorem exec_mov_of_reads {a1 : Operand} {s : State} {x : Word} (h : reads s a1 x) (a2 a3 : Operand) :
    exec (.mov a1 a2 a3) s = codeDone x a3 s :=
  withRead_some _ _ _ _ h

/-- R246: one step of a machine with cleared memory, no overlay and MOV at opcode 0. -/
theorem step_cleared {s : State} (hmem : s.mem = []) (hmmr : s.cfg.mmr = .off)
    (hmov : operationOf s.cfg.opmap 0 = 0) :
    stepOnce s = .next { entered 0 s with res := 0, cf := true, status := .ok } := by
  have read (u : State) (hm : u.mem = []) (hc : u.cfg = s.cfg) (a : Addr) : memRead u a = some 0 := by
    rw [memRead, memReadAt_eq, hm, hc, hmmr]
    simp [memGet, unlistedCell]
  have hdec : decodeWith s.cfg.opmap 0 = .mov ⟨false, 0⟩ ⟨false, 0⟩ ⟨false, 0⟩ := by
    have hop : operationOf s.cfg.opmap (opcOf 0) = 0 := hmov
    unfold decodeWith
    rw [hop]
    rfl
  have hexec : exec (decodeWith s.cfg.opmap 0) (entered 0 s) =
      .next { entered 0 s with res := 0, cf := true, status := .ok } := by
    rw [hdec]
    rw [exec_mov_of_reads (x := 0) (read (entered 0 s) hmem rfl _)]
    exact congrArg Host.Outcome.next (memWrite_zero 0 _)
  exact step_of_idle (read s hmem rfl s.pc) hexec rfl

/-- Settles O29: the step of the cleared machine leaves it cleared. -/
theorem clearedMemoryRunsForEver : Obligations.ClearedMemoryRunsForEver := by
  intro n
  induction n with
  | zero =>
    intro s hmem hmmr hmov
    rw [runLoop, step_cleared hmem hmmr hmov]
    exact ⟨_, rfl, rfl, rfl, rfl, hmem, BitVec.toNat_add ..⟩
  | succ n ih =>
    intro s hmem hmmr hmov
    obtain ⟨t, ht, hst, hres, hcf, hm, hpc⟩ :=
      ih { entered 0 s with res := 0, cf := true, status := .ok } hmem hmmr hmov
    refine ⟨t, ?_, hst, hres, hcf, hm, ?_⟩
    · rw [runLoop, step_cleared hmem hmmr hmov]
      exact ht
    · have hnext : (s.pc + 1).toNat = (s.pc.toNat + 1) % 4096 := BitVec.toNat_add ..
      have hpc' : t.pc.toNat = ((s.pc + 1).toNat + n + 1) % 4096 := hpc
      omega

end Sys2Proof.Machine
end

section
/-! The instructions one by one, first part (R55, R157 to R175, R185 to R199, R205 to R210, R222): the
operand reads, code and logic with results as arithmetic, control, input and output. -/

namespace Sys2Proof.Machine

open Sys2Proof.Claims

/-! ### Operand reads -/

/-- R61: an instruction with a first read does nothing before it. -/
theorem exec_of_firstRead {i : Instr} {o : Operand} (h : firstRead i = some o) :
    ∃ k : State → Word → Result, ∀ s, exec i s = withRead (effAddr o s) s (k s) := by
  cases i <;> cases h <;> exact ⟨_, fun _ => rfl⟩

/-- R61, R222: between the first and the second read nothing else happens. -/
theorem exec_of_secondRead {i : Instr} {o p : Operand} (h : firstRead i = some o)
    (h2 : secondRead i = some p) :
    ∃ k : State → Word → Word → Result, ∀ s,
      exec i s = withRead (effAddr o s) s fun x => withRead (effAddr p s) s (k s x) := by
  cases i <;> cases h <;> cases h2 <;> exact ⟨_, fun _ => rfl⟩

/-- Settles O54: a corrupt cell ends the step at the fetch, and the instruction at its first or its
second read. -/
theorem corruptReadStopsBeforeAnythingElse : Obligations.CorruptReadStopsBeforeAnythingElse := by
  refine ⟨fun s ⟨_, _, _, hidle⟩ hfetch => ?fetch, fun i o s ho hread => ?first,
    fun i o p s x ho hp hx hread => ?second⟩
  case fetch =>
    rw [step, stepOnce_none s hfetch, ← hidle]
    rfl
  case first =>
    obtain ⟨k, hk⟩ := exec_of_firstRead ho
    rw [hk, withRead_none _ _ _ hread]
    rfl
  case second =>
    obtain ⟨k, hk⟩ := exec_of_secondRead ho hp
    rw [hk, withRead_some _ _ _ _ hx, withRead_none _ _ _ hread]
    rfl

/-! ### Results as arithmetic -/

theorem withLow36_toNat (x : Word) (lo : BitVec 36) :
    (withLow36 x lo).toNat = x.toNat / 2 ^ 36 * 2 ^ 36 + lo.toNat := by
  have hx := x.isLt
  rw [withLow36, toNat_append_eq, toNat_extract]
  omega

theorem withHigh9_toNat (x : Word) (hi : BitVec 9) :
    (withHigh9 x hi).toNat = hi.toNat * 2 ^ 36 + x.toNat % 2 ^ 36 := by
  rw [withHigh9, toNat_append_eq, toNat_extract, pow_zero, Nat.div_one]

/-- A word is known by its number. -/
theorem word_eq_ofNat {w : Word} {n : Nat} (h : w.toNat = n) : w = BitVec.ofNat 45 n := by
  rw [← h, BitVec.ofNat_toNat, BitVec.setWidth_eq]

section
variable (x y : Word)

theorem addAddrField_eq : addAddrField x y =
    BitVec.ofNat 45 (x.toNat / 2 ^ 36 * 2 ^ 36 + (x.toNat + y.toNat) % 2 ^ 36) := by
  apply word_eq_ofNat
  rw [addAddrField, withLow36_toNat, BitVec.toNat_add, toNat_extract, toNat_extract]
  omega

theorem subAddrField_eq : subAddrField x y =
    BitVec.ofNat 45
      (x.toNat / 2 ^ 36 * 2 ^ 36 + (x.toNat + (2 ^ 36 - y.toNat % 2 ^ 36)) % 2 ^ 36) := by
  apply word_eq_ofNat
  rw [subAddrField, withLow36_toNat, BitVec.toNat_sub, toNat_extract, toNat_extract]
  omega

theorem addOpField_eq : addOpField x y =
    BitVec.ofNat 45
      ((x.toNat / 2 ^ 36 + y.toNat / 2 ^ 36) % 2 ^ 9 * 2 ^ 36 + x.toNat % 2 ^ 36) := by
  apply word_eq_ofNat
  rw [addOpField, withHigh9_toNat, BitVec.toNat_add, toNat_extract, toNat_extract]
  omega

theorem subOpField_eq : subOpField x y =
    BitVec.ofNat 45
      ((x.toNat / 2 ^ 36 + (2 ^ 9 - y.toNat / 2 ^ 36)) % 2 ^ 9 * 2 ^ 36 + x.toNat % 2 ^ 36) := by
  have hx := x.isLt
  have hy := y.isLt
  apply word_eq_ofNat
  rw [subOpField, withHigh9_toNat, BitVec.toNat_sub, toNat_extract, toNat_extract]
  omega

/-- R169: the borrow is subtracted at bit 0. -/
theorem cycSub_eq : cycSub x y =
    BitVec.ofNat 45
      (if x.toNat < y.toNat then x.toNat + 2 ^ 45 - 1 - y.toNat else x.toNat - y.toNat) := by
  have hx := x.isLt
  have hy := y.isLt
  apply word_eq_ofNat
  simp only [cycSub, BitVec.toNat_ofInt]
  split_ifs <;> omega

/-- R170 on the mantissa: a shift by 36 places or more leaves nothing. -/
theorem shm_eq (n : Int) : shm x n = shiftedMant x.toNat n := by
  apply word_eq_ofNat
  simp only [shm]
  rw [withLow36_toNat]
  congr 1
  have hlow : (x.extractLsb' 0 36).toNat = x.toNat % 2 ^ 36 := by
    rw [toNat_extract, pow_zero, Nat.div_one]
  by_cases hn : 0 ≤ n
  · rw [if_pos hn]
    split_ifs with hbig
    · have hdvd : 2 ^ 36 ∣ x.toNat * 2 ^ n.toNat :=
        Dvd.dvd.mul_left (Nat.pow_dvd_pow 2 (by omega)) _
      rw [Nat.mod_eq_zero_of_dvd hdvd]
      rfl
    · rw [BitVec.toNat_shiftLeft, hlow, Nat.shiftLeft_eq, Nat.mod_mul_mod]
  · rw [if_neg hn]
    split_ifs with hbig
    · have hpow : 2 ^ 36 ≤ 2 ^ (-n).toNat := Nat.pow_le_pow_right (by norm_num) (by omega)
      rw [Nat.div_eq_of_lt (lt_of_lt_of_le (Nat.mod_lt _ (by norm_num)) hpow)]
      rfl
    · rw [BitVec.toNat_ushiftRight, hlow, Nat.shiftRight_eq_div_pow]

/-- R170 on the whole word. -/
theorem shw_eq (n : Int) : shw x n = shiftedWord x.toNat n := by
  apply word_eq_ofNat
  simp only [shw]
  by_cases hn : 0 ≤ n
  · rw [if_pos hn, if_pos hn]
    split_ifs with hbig
    · have hdvd : 2 ^ 45 ∣ x.toNat * 2 ^ n.toNat :=
        Dvd.dvd.mul_left (Nat.pow_dvd_pow 2 (by omega)) _
      rw [Nat.mod_eq_zero_of_dvd hdvd]
      rfl
    · rw [BitVec.toNat_shiftLeft, Nat.shiftLeft_eq]
  · rw [if_neg hn, if_neg hn]
    split_ifs with hbig
    · have hpow : 2 ^ 45 ≤ 2 ^ (-n).toNat := Nat.pow_le_pow_right (by norm_num) (by omega)
      rw [Nat.div_eq_of_lt (lt_of_lt_of_le x.isLt hpow)]
      rfl
    · rw [BitVec.toNat_ushiftRight, Nat.shiftRight_eq_div_pow]

/-- R159: the two parts of a rotation do not overlap, so that their union is their sum. -/
theorem rotl45_eq {n : Nat} (hn : n < 45) :
    rotl45 x n = BitVec.ofNat 45 (x.toNat * 2 ^ n % 2 ^ 45 + x.toNat / 2 ^ (45 - n)) := by
  apply word_eq_ofNat
  have hsplit : 2 ^ 45 = 2 ^ (45 - n) * 2 ^ n := by rw [← pow_add]; congr 1; omega
  have hlow : x.toNat / 2 ^ (45 - n) < 2 ^ n := by
    rw [Nat.div_lt_iff_lt_mul (by positivity), mul_comm, ← hsplit]
    exact x.isLt
  have hhigh : x.toNat * 2 ^ n % 2 ^ 45 = (x.toNat % 2 ^ (45 - n)) <<< n := by
    rw [hsplit, Nat.mul_mod_mul_right, Nat.shiftLeft_eq]
  rw [rotl45, BitVec.toNat_or, BitVec.toNat_shiftLeft, BitVec.toNat_ushiftRight, Nat.shiftLeft_eq,
    Nat.shiftRight_eq_div_pow, hhigh, Nat.shiftLeft_add_eq_or_of_lt hlow]

end

/-! ### The code and logical instructions -/

theorem logBinary_of_reads {f : Word → Word → Word} {a1 a2 : Operand} {s : State} {x y : Word}
    (hx : reads s a1 x) (hy : reads s a2 y) (a3 : Operand) :
    logBinary f a1 a2 a3 s = codeDone (f x y) a3 s := by
  rw [logBinary, withRead_some _ _ _ _ hx, withRead_some _ _ _ _ hy, logFinish_eq_codeDone]

theorem logImmediate_of_reads {f : Addr → Word → Word} {a2 : Operand} {s : State} {x : Word}
    (hx : reads s a2 x) (a1 a3 : Operand) :
    logImmediate f a1 a2 a3 s = codeDone (f (effAddr a1 s) x) a3 s := by
  rw [logImmediate, withRead_some _ _ _ _ hx, logFinish_eq_codeDone]

/-- Settles O50: one tail for the eleven, and each result's equation. -/
theorem twoOperandCodeInstructionsComplete : Obligations.TwoOperandCodeInstructionsComplete := by
  intro a1 a2 a3 s x y hx hy
  have done (f : Word → Word → Word) {r : Word} (hr : f x y = r) :
      logBinary f a1 a2 a3 s = codeDone r a3 s := by rw [logBinary_of_reads hx hy, hr]
  exact ⟨done _ rfl, done _ rfl, done _ rfl, done _ (addAddrField_eq x y),
    done _ (subAddrField_eq x y), done _ (addOpField_eq x y), done _ (subOpField_eq x y),
    done cycAdd rfl, done _ (cycSub_eq x y), done _ (shm_eq y _), done _ (shw_eq y _)⟩

/-- Settles O51. -/
theorem oneOperandCodeInstructionsComplete : Obligations.OneOperandCodeInstructionsComplete := by
  refine ⟨fun a1 a2 a3 s x hx => exec_mov_of_reads hx a2 a3, fun a1 a2 a3 s x hx => ?_⟩
  have done (f : Addr → Word → Word) {r : Word} (hr : f (effAddr a1 s) x = r) :
      logImmediate f a1 a2 a3 s = codeDone r a3 s := by rw [logImmediate_of_reads hx, hr]
  exact ⟨done (fun a x => rotl45 x (rotCount a)) (rotl45_eq x (Nat.mod_lt _ (by norm_num))),
    done (fun a x => shm x (bias64 a)) (shm_eq x _), done (fun a x => shw x (bias64 a)) (shw_eq x _)⟩

/-- Settles O53: the comparison is of all 45 bits. -/
theorem xorchkComparesOrStops : Obligations.XorchkComparesOrStops := by
  intro a1 a2 a3 s x y hx hy
  have hexec : exec (.xorchk a1 a2 a3) s =
      if x ^^^ y = 0 then complete { s with res := 0, cf := true } else raise .cmpFail s := by
    rw [exec, execXorchk, withRead_some _ _ _ _ hx, withRead_some _ _ _ _ hy]
  rw [hexec]
  have hxor : x ^^^ y = (0 : Word) ↔ x = y := BitVec.xor_eq_zero_iff
  by_cases h : x = y
  · rw [if_pos h, if_pos (hxor.2 h)]; rfl
  · rw [if_neg h, if_neg (hxor.not.2 h)]; rfl

/-! ### Control -/

/-- Settles O55. -/
theorem jumpsComplete : Obligations.JumpsComplete := fun a1 a2 a3 s =>
  ⟨exec_jmp a1 a2 a3 s, exec_jc a1 a2 a3 s, exec_jnc a1 a2 a3 s, rfl, rfl, rfl⟩

/-- R191: "not below" as an order. -/
theorem loopTaken_ge (bound : Addr) (s : State) :
    loopTaken .ge bound s = decide (bound.toNat ≤ s.idx.toNat) := by
  simp only [loopTaken, ← decide_not, not_lt]

/-- Settles O57. -/
theorem loopsComplete : Obligations.LoopsComplete := by
  intro p flag a1 a2 a3 s taken htaken
  have htaken' : loopTaken p (effAddr a1 s) s = taken := by
    subst htaken
    cases p with
    | lt => rfl
    | ge => exact loopTaken_ge ..
  exact ⟨by rw [exec_loopInstr, loopFamily_eq, htaken'], rfl, rfl, rfl, rfl⟩

/-- Settles O58. -/
theorem haltsAndUnimplementedOpcodes : Obligations.HaltsAndUnimplementedOpcodes := by
  refine fun a1 a2 a3 s => ⟨rfl, rfl, rfl, rfl, fun halt => ?_, fun halt => ?_⟩ <;>
    simp only [exec, execAddrform, halt] <;> rfl

/-- The marker is the word of `JMP 0, ret, 0` (R188). -/
theorem returnMarker_eq (ret : Addr) :
    returnMarker ret = encode (.jmp ⟨false, 0⟩ ⟨false, ret⟩ ⟨false, 0⟩) := by
  have hatag : atagBits ⟨false, 0⟩ ⟨false, ret⟩ ⟨false, 0⟩ = 0 := by
    simp only [atagBits]
    decide
  simp only [returnMarker, encode, encodeAs, operandsOf, opcodeOf, hatag]

theorem jumpAfterStore_of_idle {s : State} (h : s.pend = .idle) (target : Addr) :
    jumpAfterStore target s = { s with pc := target } := by
  simp only [jumpAfterStore, h]

theorem jumpAfterStore_of_store {s : State} (h : s.pend = .store) (target : Addr) :
    jumpAfterStore target s = { s with pend := .jump target } := by
  simp only [jumpAfterStore, h]

/-- JSR through the `IR` overlay: the marker is due for execution, and the jump after it (R188). -/
theorem exec_jsr_instruction {a3 : Operand} {s : State}
    (h : writeTarget s.cfg (effAddr a3 s) = .instruction) (a1 a2 : Operand) :
    exec (.jsr a1 a2 a3) s =
      .next { s with ir := returnMarker s.pc, pend := .jump (effAddr a2 s), status := .ok } := by
  have hstored : memWrite (effAddr a3 s) (returnMarker s.pc) { s with status := .ok } =
      { s with ir := returnMarker s.pc, pend := .store, status := .ok } :=
    memWrite_instruction (s := { s with status := .ok }) h _
  rw [exec, execJsr, hstored, jumpAfterStore_of_store rfl]

/-- Whatever opcode map keeps `056` as JMP decodes a return marker as a jump. -/
theorem decodeWith_returnMarker {m : OpMap} (h : operationOf m 0o56 = 0o56) (ret : Addr) :
    decodeWith m (returnMarker ret) = .jmp ⟨false, 0⟩ ⟨false, ret⟩ ⟨false, 0⟩ := by
  rw [returnMarker_eq]
  exact decodeWith_encodeAs h

/-- Settles O56: at the `IR` overlay the marker's own jump is overridden by the instruction's. -/
theorem jsrStoresTheMarkerAndJumps : Obligations.JsrStoresTheMarkerAndJumps := by
  refine ⟨fun a1 a2 a3 s marker m ⟨_, _, _, hidle⟩ hmarker hm => ?exec,
    fun a1 a2 a3 s w hfetch hdec hjmp htarget => ?step⟩
  case exec =>
    rw [← returnMarker_eq] at hmarker
    subst hmarker hm
    rcases memWrite_pend_eq (effAddr a3 s) (returnMarker s.pc) { s with status := .ok } with
      ⟨hp, htarget⟩ | ⟨hp, htarget⟩
    · rw [if_pos htarget, exec, execJsr, jumpAfterStore_of_store hp]
    · rw [if_neg htarget, exec, execJsr, jumpAfterStore_of_idle (hp.trans hidle)]
  case step =>
    have hexec : exec (decodeWith s.cfg.opmap w) (entered w s) = .next { entered w s with
        ir := returnMarker (s.pc + 1), pend := .jump (effAddr a2 s), status := .ok } := by
      rw [hdec]
      exact exec_jsr_instruction (s := entered w s) htarget a1 a2
    have hrerun : rerun (fun t => execute 4095 t.ir t) { entered w s with
        ir := returnMarker (s.pc + 1), pend := .jump (effAddr a2 s), status := .ok } =
        .next { entered w s with
          ir := returnMarker (s.pc + 1)
          pc := s.pc + 1
          delay := (entered w s).delay + Config.delayOf (opcOf (returnMarker (s.pc + 1)))
          status := .ok } := by
      refine execute_of_idle 4094 _ _ _ ?_ rfl
      have hmarker : decodeWith s.cfg.opmap (returnMarker (s.pc + 1)) =
          .jmp ⟨false, 0⟩ ⟨false, s.pc + 1⟩ ⟨false, 0⟩ := decodeWith_returnMarker hjmp _
      refine (congrArg (fun i => exec i _) hmarker).trans ?_
      exact exec_jmp ..
    have hstep := step_of_settle hfetch hexec (by
      rw [settle_jump rfl, hrerun, andThen_of_next])
    rw [finish_of_not_rollsBack rfl] at hstep
    exact ⟨_, hstep, rfl, rfl, returnMarker_eq _, rfl, rfl, rfl, rfl, rfl⟩

/-! ### Input and output -/

/-- Settles O59. -/
theorem iosetupLatchesOrConflicts : Obligations.IosetupLatchesOrConflicts := by
  refine fun a1 a2 a3 s => ⟨fun d hd => ?_, fun hc => ?_⟩
  · simp only [exec, execIosetup, hd, complete]
  · simp only [exec, execIosetup, hc, raise, onlyStatus]

theorem memWrite_ok (a : Addr) (v : Word) (s : State) :
    memWrite a v { s with status := .ok } = { memWrite a v s with status := .ok } := by
  cases h : writeTarget s.cfg a <;> simp only [memWrite, h]

theorem storeAll_ok (ws : List (Addr × Word)) (s : State) :
    storeAll ws { s with status := .ok } = { storeAll ws s with status := .ok } := by
  induction ws generalizing s with
  | nil => rfl
  | cons p ws ih => rw [storeAll, storeAll, memWrite_ok, ih]

@[simp] theorem storeAll_iod (ws : List (Addr × Word)) (s : State) : (storeAll ws s).iod = s.iod := by
  induction ws generalizing s with
  | nil => rfl
  | cons p ws ih => rw [storeAll, ih, memWrite_iod]

@[simp] theorem storeAll_devices (ws : List (Addr × Word)) (s : State) :
    (storeAll ws s).devices = s.devices := by
  induction ws generalizing s with
  | nil => rfl
  | cons p ws ih => rw [storeAll, ih, memWrite_devices]

/-- The disable-stop flag is the same after the transfer: neither the descriptor nor the codes have
changed (R207). -/
theorem ioNostop_delivered (r : DevResult) (start : Addr) (s : State) :
    ioNostop (delivered r start s).iod.cc (delivered r start s) = ioNostop s.iod.cc s := by
  simp only [ioNostop, delivered, storeAll_iod, storeAll_devices, deviceCalled]

/-- Settles O60: the words are stored, and the transfer's end overwrites the status. -/
theorem ioexecCompletes : Obligations.IoexecCompletes := by
  refine fun a1 a2 a3 s d r hidle => ⟨fun hinvalid => ?conflict, fun hvalid hr hd hcells => ?done⟩
  case conflict => simp only [exec, execIoexec, hinvalid, raise, onlyStatus, Bool.false_eq_true, if_false]
  case done =>
    have hstored : storeAll r.writes (deviceRan (effAddr a1 s) s) = { d with status := .ok } := by
      rw [hd]
      exact storeAll_ok r.writes { s with
        delay := s.delay + Config.devDelay s.iod (effAddr a1 s)
        devices := deviceCalled s.devices }
    have hnostop : ioNostop d.iod.cc { d with status := .ok } = ioNostop s.iod.cc s := by
      rw [hd]
      exact ioNostop_delivered r (effAddr a1 s) s
    rw [exec_ioexec hvalid, ← hr, storeWords_of_cells (by exact hidle) (by exact hcells), hstored,
      transferEnd_eq]
    simp only [hnostop]
    split_ifs <;> rfl

end Sys2Proof.Machine
end

section
/-! The adder/subtractor and its instructions (spec/41_addsub.md R80 to R103): alignment, the round bit,
the signed sum with its bounds, the two outcomes of the unit, and the tail of the arithmetic group. -/

namespace Sys2Proof.Machine

open Sys2Proof.Claims

/-! ### Alignment (R83, R84) -/

/-- Alignment is division, also from 36 places on, where nothing is left of a mantissa. -/
theorem alignMant_eq_div (rb : Bool) (delta : Nat) {m : Nat} (hm : m < 2 ^ 36) :
    alignMant rb delta m = (if rb then m ||| 1 else m) / 2 ^ delta := by
  have hset : (if rb then m ||| 1 else m) < 2 ^ 36 := by
    split_ifs
    · exact Nat.or_lt_two_pow hm (by norm_num)
    · exact hm
  by_cases hbig : 36 ≤ delta
  · rw [alignMant, if_pos hbig]
    exact (Nat.div_eq_of_lt (lt_of_lt_of_le hset (Nat.pow_le_pow_right (by norm_num) hbig))).symm
  · rw [alignMant, if_neg hbig]
    exact Nat.shiftRight_eq_div_pow ..

theorem alignMant_lt (rb : Bool) (delta : Nat) {m : Nat} (hm : m < 2 ^ 36) :
    alignMant rb delta m < 2 ^ 36 := by
  unfold alignMant
  have hset : m ||| 1 < 2 ^ 36 := Nat.or_lt_two_pow hm (by norm_num)
  split_ifs
  · norm_num
  · exact lt_of_le_of_lt (Nat.shiftRight_le _ _) hset
  · exact lt_of_le_of_lt (Nat.shiftRight_le _ _) hm

/-- R96: a shift by one place or more drops bit 0, and the round bit with it. -/
theorem alignMant_inert (rb : Bool) {delta : Nat} (hd : 0 < delta) (m : Nat) :
    alignMant rb delta m = alignMant false delta m := by
  have hone : 1 >>> delta = 0 := by
    rw [Nat.shiftRight_eq_div_pow, Nat.div_eq_of_lt (Nat.one_lt_two_pow hd.ne')]
  cases rb with
  | false => rfl
  | true =>
    by_cases hbig : 36 ≤ delta
    · rw [alignMant, alignMant, if_pos hbig, if_pos hbig]
    · rw [alignMant, alignMant, if_neg hbig, if_neg hbig, if_pos rfl, Nat.shiftRight_or_distrib,
        hone, Nat.or_zero]
      rfl

theorem alignedMants_lt (x y : Word) (rb : Bool) :
    (alignedMants x y rb).1 < 2 ^ 36 ∧ (alignedMants x y rb).2 < 2 ^ 36 := by
  unfold alignedMants
  split_ifs
  · exact ⟨alignMant_lt _ _ (mantOf_lt x), mantOf_lt y⟩
  · exact ⟨mantOf_lt x, alignMant_lt _ _ (mantOf_lt y)⟩

theorem alignedMants_inert {x y : Word} (h : expOf x ≠ expOf y) (rb : Bool) :
    alignedMants x y rb = alignedMants x y false := by
  unfold alignedMants
  split_ifs
  · rw [alignMant_inert rb (by omega)]
  · rw [alignMant_inert rb (by omega)]

/-- On different exponents the two operands have the same parts whichever comes first. -/
theorem alignedMants_swap {x y : Word} (h : expOf x ≠ expOf y) (rb : Bool) :
    alignedMants y x rb = ((alignedMants x y rb).2, (alignedMants x y rb).1) := by
  rcases Nat.lt_or_gt_of_ne h with hlt | hlt
  · simp only [alignedMants, if_pos hlt, if_neg (not_lt.2 hlt.le)]
  · simp only [alignedMants, if_pos hlt, if_neg (not_lt.2 hlt.le)]

/-- On equal exponents nothing is shifted. -/
theorem alignedMants_of_eq {x y : Word} (h : expOf x = expOf y) (rb : Bool) :
    alignedMants x y rb = (mantOf x, if rb then mantOf y ||| 1 else mantOf y) := by
  simp only [alignedMants, h, lt_irrefl, if_false, Nat.sub_self]
  rw [alignMant_eq_div _ _ (mantOf_lt y), pow_zero, Nat.div_one]

/-- R83: on equal exponents only a forced round bit is set. -/
theorem roundBit_of_eq {x y : Word} (h : expOf x = expOf y) (nr fr : Bool) :
    roundBit x y nr fr = fr := by
  simp [roundBit, h]

/-- The mantissas of R84 as quotients. -/
theorem alignedMants_roundBit (nr fr : Bool) (x y : Word) :
    alignedMants x y (roundBit x y nr fr) =
      (mantOf x / 2 ^ (max (expOf x) (expOf y) - expOf x),
        (if fr = true ∧ expOf x = expOf y then mantOf y ||| 1 else mantOf y) /
          2 ^ (max (expOf x) (expOf y) - expOf y)) := by
  by_cases heq : expOf x = expOf y
  · rw [roundBit_of_eq heq, alignedMants_of_eq heq]
    simp [heq]
  · rw [alignedMants_inert heq]
    rcases Nat.lt_or_gt_of_ne heq with hlt | hlt
    · simp [alignedMants, hlt, heq, max_eq_right hlt.le, alignMant_eq_div _ _ (mantOf_lt x)]
    · simp [alignedMants, not_lt.2 hlt.le, heq, max_eq_left hlt.le,
        alignMant_eq_div _ _ (mantOf_lt y)]

/-! ### The signed sum (R85) -/

/-- The magnitude of a sum of two signed mantissas reaches `2^36` only on equal signs. -/
theorem carry_iff {a b : Nat} (ha : a < 2 ^ 36) (hb : b < 2 ^ 36) (p q : Bool) :
    2 ^ 36 ≤ (signedMant p a + signedMant q b).natAbs ↔ p = q ∧ 2 ^ 36 ≤ a + b := by
  cases p <;> cases q <;> simp [signedMant] <;> omega

theorem mantSum_carry_iff (op : AddOp) (x y : Word) (rb : Bool) :
    2 ^ 36 ≤ (mantSum op x y rb).natAbs ↔
      (effectiveSigns op x y).1 = (effectiveSigns op x y).2 ∧
        2 ^ 36 ≤ (alignedMants x y rb).1 + (alignedMants x y rb).2 :=
  carry_iff (alignedMants_lt x y rb).1 (alignedMants_lt x y rb).2 _ _

theorem mantSum_lt (op : AddOp) (x y : Word) (rb : Bool) :
    (mantSum op x y rb).natAbs ≤ 2 * (2 ^ 36 - 1) := by
  obtain ⟨h1, h2⟩ := alignedMants_lt x y rb
  unfold mantSum signedMant
  split_ifs <;> omega

/-- R86: half of a carrying magnitude, rounded up unless `NR`. -/
theorem carryShift_eq (nr : Bool) (mag : Nat) :
    carryShift nr mag = if nr = true then mag / 2 else (mag + 1) / 2 := by
  cases nr with
  | true => simp [carryShift]
  | false =>
    simp only [carryShift, and_true, Bool.false_eq_true, if_false]
    split_ifs <;> omega

theorem carryShift_bounds {mag : Nat} (hlow : 2 ^ 36 ≤ mag) (hhigh : mag ≤ 2 * (2 ^ 36 - 1))
    (nr : Bool) : 0 < carryShift nr mag ∧ carryShift nr mag < 2 ^ 36 := by
  rw [carryShift_eq]
  split_ifs <;> omega

/-! ### The two outcomes of the unit -/

/-- R92: overflow, when the carry has no exponent left. -/
theorem addsub_eq_error_iff (op : AddOp) (nr nn fr : Bool) (x y : Word) (st : Status) :
    addsub op nr nn fr x y = .error st ↔
      st = .addOvf ∧ 2 ^ 36 ≤ (mantSum op x y (roundBit x y nr fr)).natAbs ∧
        max (expOf x) (expOf y) = 127 := by
  have hx := expOf_lt x
  have hy := expOf_lt y
  simp only [addsub]
  split_ifs with hcarry hover
  · simp only [Except.error.injEq, eq_comm (a := Status.addOvf)]
    exact ⟨fun h => ⟨h, hcarry, by omega⟩, fun h => h.1⟩
  · refine iff_of_false nofun ?_
    rintro ⟨-, -, h127⟩
    omega
  · exact iff_of_false nofun fun h => hcarry h.2.1

/-- What the unit answers, the same with and without normalization: a number in range, which is not
negative with a zero mantissa, or overflow. -/
theorem addsub_outcome (op : AddOp) (nr fr : Bool) (x y : Word) :
    (∃ (neg : Bool) (e mag : Nat), e ≤ 127 ∧ mag < 2 ^ 36 ∧ (neg = true → mag ≠ 0) ∧
      ∀ nn, addsub op nr nn fr x y = .ok (addResult nn neg e mag (tagOf x || tagOf y))) ∨
    ∀ nn, addsub op nr nn fr x y = .error .addOvf := by
  have hx := expOf_lt x
  have hy := expOf_lt y
  have hle := mantSum_lt op x y (roundBit x y nr fr)
  simp only [addsub]
  split_ifs with hcarry hover
  · exact .inr fun _ => rfl
  · obtain ⟨hpos, hlt⟩ := carryShift_bounds hcarry hle nr
    exact .inl ⟨_, max (expOf x) (expOf y) + 1, _, by omega, hlt, fun _ => hpos.ne', fun _ => rfl⟩
  · refine .inl ⟨_, max (expOf x) (expOf y), _, by omega, not_le.1 hcarry, fun hneg => ?_, fun _ => rfl⟩
    have := of_decide_eq_true hneg
    omega

/-- Settles O38: the round bit counts on equal exponents alone, and there only a forced one. -/
theorem roundBitIsInertAndAddCommutes : Obligations.RoundBitIsInertAndAddCommutes := by
  refine ⟨fun x y h => alignedMants_inert h true, fun op nr nn fr x y h => ?_, fun nr nn x y => ?_⟩
  · have hsum : mantSum op x y (roundBit x y nr fr) = mantSum op x y (roundBit x y nr (!fr)) := by
      simp only [mantSum, alignedMants_inert h (roundBit x y nr fr),
        alignedMants_inert h (roundBit x y nr (!fr))]
    simp only [addsub, hsum]
  · have hsum : mantSum .add x y (roundBit x y nr false) = mantSum .add y x (roundBit y x nr false) := by
      by_cases h : expOf x = expOf y
      · simp only [mantSum, roundBit_of_eq h, roundBit_of_eq h.symm, alignedMants_of_eq h,
          alignedMants_of_eq h.symm, effectiveSigns]
        exact Int.add_comm _ _
      · rw [mantSum, mantSum, alignedMants_inert (Ne.symm h), alignedMants_swap h,
          alignedMants_inert h (roundBit x y nr false)]
        exact Int.add_comm _ _
    simp only [addsub, hsum, max_comm (expOf x), Bool.or_comm (tagOf x)]

theorem signedMant_not (p : Bool) (m : Nat) : signedMant (!p) m = -signedMag p m := by
  cases p <;> simp [signedMant, signedMag]

/-! R82: the signed sum by operation. -/

section
variable (x y : Word) (rb : Bool)

theorem mantSum_add : mantSum .add x y rb =
    signedMag (signOf x) (alignedMants x y rb).1 + signedMag (signOf y) (alignedMants x y rb).2 := rfl

theorem mantSum_sub : mantSum .sub x y rb =
    signedMag (signOf x) (alignedMants x y rb).1 - signedMag (signOf y) (alignedMants x y rb).2 := by
  rw [mantSum, effectiveSigns, signedMant_not]
  exact (Int.sub_eq_add_neg ..).symm

theorem mantSum_subabs : mantSum .subabs x y rb =
    ((alignedMants x y rb).1 : Int) - (alignedMants x y rb).2 := by
  simp only [mantSum, effectiveSigns, signedMant, Bool.false_eq_true, if_false, if_true]
  exact (Int.sub_eq_add_neg ..).symm

end

/-- With `NN = 1` the unit gives the sum itself (R86, R87). -/
theorem addsub_nn (op : AddOp) (nr fr : Bool) (x y : Word) :
    addsub op nr true fr x y =
      if (mantSum op x y (roundBit x y nr fr)).natAbs < 2 ^ 36 then
        .ok (pack (decide (mantSum op x y (roundBit x y nr fr) < 0)) (max (expOf x) (expOf y) : Nat)
          (mantSum op x y (roundBit x y nr fr)).natAbs (tagOf x || tagOf y))
      else if max (expOf x) (expOf y) = 127 then .error .addOvf
      else .ok (pack (decide (mantSum op x y (roundBit x y nr fr) < 0))
        ((max (expOf x) (expOf y) : Nat) + 1)
        (if nr = true then (mantSum op x y (roundBit x y nr fr)).natAbs / 2
          else ((mantSum op x y (roundBit x y nr fr)).natAbs + 1) / 2) (tagOf x || tagOf y)) := by
  have hx := expOf_lt x
  have hy := expOf_lt y
  have hover : 127 < max (expOf x) (expOf y) + 1 ↔ max (expOf x) (expOf y) = 127 := by omega
  simp only [addsub, hover, addResult, if_true, carryShift_eq, ← not_lt (b := 2 ^ 36), ite_not]
  rfl

/-- With `NN = 0` the number is the normalization of the one with `NN = 1` (R88). -/
theorem addResult_normalized {e mag : Nat} (he : e ≤ 127) (hmag : mag < 2 ^ 36) (neg t : Bool) :
    addResult false neg e mag t =
      normalize (signOf (addResult true neg e mag t)) (expOf (addResult true neg e mag t))
        (mantOf (addResult true neg e mag t)) (tagOf (addResult true neg e mag t)) := by
  simp only [addResult, if_true, Bool.false_eq_true, if_false, signOf_pack, tagOf_pack]
  rw [expOf_pack (by omega) (by omega), mantOf_pack hmag]

/-- Settles O39: the sum of the aligned mantissas as arithmetic, and its normalization. -/
theorem adderGivesTheAlignedSum : Obligations.AdderGivesTheAlignedSum := by
  refine ⟨fun op nr fr x y e mx my sum he hmx hmy hsum => ?exact, fun op nr fr x y => ?normalized⟩
  case exact =>
    have hmants : alignedMants x y (roundBit x y nr fr) = (mx, my) := by
      rw [alignedMants_roundBit, hmx, hmy, he]
    have htotal : mantSum op x y (roundBit x y nr fr) = sum := by
      subst hsum
      cases op with
      | add => rw [mantSum_add, hmants]
      | sub => rw [mantSum_sub, hmants]
      | subabs => rw [mantSum_subabs, hmants]
    rw [addsub_nn, htotal, ← he]
  case normalized =>
    rcases addsub_outcome op nr fr x y with ⟨neg, e, mag, he, hmag, -, hok⟩ | herr
    · refine ⟨fun r hr => ?_, fun st hst => ?_⟩
      · rw [hok] at hr ⊢
        obtain rfl := Except.ok.inj hr
        rw [addResult_normalized he hmag]
      · rw [hok] at hst
        cases hst
    · refine ⟨fun r hr => ?_, fun st hst => ?_⟩
      · rw [herr] at hr
        cases hr
      · rwa [herr] at hst ⊢

/-- Settles O40: a negative sum is not 0, and the sum 0 is positive. -/
theorem addZeroResults : Obligations.AddZeroResults := by
  refine ⟨fun op nr nn fr x y r hr hsign => ?_, fun op nr nn fr x y hzero => ?_⟩
  · rcases addsub_outcome op nr fr x y with ⟨neg, e, mag, he, hmag, hneg, hok⟩ | herr
    · rw [hok] at hr
      obtain rfl := Except.ok.inj hr
      cases nn with
      | true =>
        simp only [addResult, if_true, signOf_pack] at hsign ⊢
        rw [mantOf_pack hmag]
        exact hneg hsign
      | false => exact normalize_mant_ne_zero hmag hsign
    · rw [herr] at hr
      cases hr
  · simp [addsub, hzero, addResult, normalize]

/-! ### The instructions -/

/-- The arithmetic tail after the overwriting of `AUX`, in the words of the claims (R91, R100). -/
theorem arithFinish_drawAux (r x y : Word) (op : AuxOp) (nr nn fr : Bool) (a3 : Operand) (s : State) :
    arithFinish r (effAddr a3 s) (drawAux x y op nr nn fr s) =
      arithDone r (auxAfter x y op nr nn fr s) a3 s := by
  cases hp : s.cfg.path <;>
    simp [arithFinish, drawAux, arithDone, auxAfter, signFlag, hp]

theorem exec_addInstr_of_reads {a1 a2 : Operand} {s : State} {x y : Word} (hx : reads s a1 x)
    (hy : reads s a2 y) (op : AddOp) (nr nn : Bool) (a3 : Operand) :
    exec (addInstr op nr nn a1 a2 a3) s =
      match addsub op nr nn (forceRound x y) x y with
      | .error st => raise st s
      | .ok r => arithDone r (auxAfter x y (auxOpOf op) nr nn (forceRound x y) s) a3 s := by
  rw [exec_addInstr, addFamily, withRead_some _ _ _ _ hx, withRead_some _ _ _ _ hy]
  cases addsub op nr nn (forceRound x y) x y with
  | error st => rfl
  | ok r => exact arithFinish_drawAux ..

/-- R93 in the fields of the two words. -/
theorem forceRound_iff (x y : Word) : forceRound x y = true ↔
    y.toNat % 2 ^ 44 = 2 ^ 43 ∧ signOf x = false ∧ isZero x = false := by
  have hy : (y.extractLsb' 0 44 == BitVec.ofNat 44 (2 ^ 43)) = true ↔ y.toNat % 2 ^ 44 = 2 ^ 43 := by
    rw [beq_iff_eq, ← BitVec.toNat_inj, toNat_extract, pow_zero, Nat.div_one]
    rfl
  rw [forceRound, Bool.and_eq_true, Bool.and_eq_true, hy, Bool.not_eq_true', Bool.not_eq_true',
    and_assoc]

/-- Settles O36. -/
theorem addFamilyCompletes : Obligations.AddFamilyCompletes := by
  refine ⟨fun op nr nn a1 a2 a3 s x y r hx hy hr => ?_, forceRound_iff⟩
  rw [exec_addInstr_of_reads hx hy, hr]

/-- Settles O37: the carry needs equal effective signs, and SUBABS has opposite ones. -/
theorem addOverflowExactly : Obligations.AddOverflowExactly := by
  refine ⟨fun op nr nn fr x y st => ?_, fun nr nn fr x y st h => ?_,
    fun op nr nn a1 a2 a3 s x y st hx hy hst => ?_⟩
  · rw [addsub_eq_error_iff, mantSum_carry_iff]
    constructor
    · rintro ⟨hst, ⟨hsigns, hsum⟩, he⟩
      exact ⟨hst, hsigns, he, hsum⟩
    · rintro ⟨hst, hsigns, he, hsum⟩
      exact ⟨hst, ⟨hsigns, hsum⟩, he⟩
  · rw [addsub_eq_error_iff, mantSum_carry_iff] at h
    obtain ⟨-, ⟨hsigns, -⟩, -⟩ := h
    cases hsigns
  · rw [exec_addInstr_of_reads hx hy, hst, addsub_error hst]
    rfl

end Sys2Proof.Machine
end

section
/-! The multiplier, the divider, the square root and the exponent instructions (spec/42_multiply.md,
spec/43_divide_sqrt.md, spec/44_exponent_arith.md): the units as arithmetic on mantissas and exponents,
and how their instructions complete. -/

namespace Sys2Proof.Machine

open Sys2Proof.Claims

/-! ### Multiplication -/

/-- The tail of MUL and LOWPROD, in the words of the claims. -/
theorem arithFinish_aux (r aux : Word) (a3 : Operand) (s : State) :
    arithFinish r (effAddr a3 s) { s with aux := aux } = arithDone r aux a3 s := rfl

theorem exec_mulInstr_of_reads {a1 a2 : Operand} {s : State} {x y : Word} (hx : reads s a1 x)
    (hy : reads s a2 y) (nr nn : Bool) (a3 : Operand) :
    exec (mulInstr nr nn a1 a2 a3) s =
      match mulUnit nr nn x y with
      | .error st => raise st s
      | .ok p => arithDone p.1 p.2 a3 s := by
  rw [exec_mulInstr, mulFamily, withRead_some _ _ _ _ hx, withRead_some _ _ _ _ hy]
  cases mulUnit nr nn x y <;> rfl

/-- Settles O41. -/
theorem mulAndLowprodComplete : Obligations.MulAndLowprodComplete := by
  refine ⟨fun nr nn a1 a2 a3 s x y r low hx hy hr => ?_, fun nr nn a1 a2 a3 s x y st hx hy hst => ?_,
    fun nr nn a1 a2 a3 s => ?_⟩
  · rw [exec_mulInstr_of_reads hx hy, hr]
  · rw [exec_mulInstr_of_reads hx hy, hst, mulUnit_error hst]
    rfl
  · rw [exec_lowInstr]
    exact arithFinish_aux (lowWord nn s.aux) s.aux a3 s

theorem product_lt (x y : Word) : mantOf x * mantOf y < 2 ^ 72 := by
  calc mantOf x * mantOf y < 2 ^ 36 * 2 ^ 36 := Nat.mul_lt_mul'' (mantOf_lt x) (mantOf_lt y)
    _ = 2 ^ 72 := by norm_num

/-- Past the zero product the unit's answer is the pair of words of the rounded halves (R113 to R115). -/
theorem mulUnit_of_ne_zero {x y : Word} (h : mantOf x * mantOf y ≠ 0) {nr nn : Bool} {q : Product}
    (hq : mulRound nr (mulNormalize nn (mantOf x * mantOf y) ((expOf x : Int) + expOf y - 64)) = q) :
    mulUnit nr nn x y =
      productPair (signOf x ^^ signOf y) q.e q.hi q.lo (tagOf x || tagOf y) := by
  subst hq
  simp only [mulUnit, if_neg h]
  rfl

theorem mulUnit_of_zero {x y : Word} (h : mantOf x * mantOf y = 0) (nr nn : Bool) :
    mulUnit nr nn x y = .ok (zeroWord (tagOf x || tagOf y), zeroWord (tagOf x || tagOf y)) := by
  simp only [mulUnit, if_pos h]

/-- R113: the halves of the product, doubled where its top bit is clear and `NN` is. -/
theorem mulNormalize_eq {nn : Bool} {p prod hi lo : Nat} {e0 e : Int}
    (h : if nn = false ∧ p < 2 ^ 71 then prod = 2 * p ∧ e = e0 - 1 else prod = p ∧ e = e0)
    (hprod : prod = hi * 2 ^ 36 + lo) (hlo : lo < 2 ^ 36) :
    mulNormalize nn p e0 = ⟨hi, lo, e⟩ := by
  have hhi : prod / 2 ^ 36 = hi := by omega
  have hlo' : prod % 2 ^ 36 = lo := by omega
  unfold mulNormalize
  split_ifs at h ⊢
  · obtain ⟨rfl, rfl⟩ := h
    rw [hhi, hlo']
  · obtain ⟨rfl, rfl⟩ := h
    rw [hhi, hlo']

theorem mulRound_true (p : Product) : mulRound true p = p := if_neg nofun

/-- R114: rounding by the top bit of the low half, and the carry of an all-ones high half. -/
theorem mulRound_false {hi lo : Nat} (hhi : hi < 2 ^ 36) (e : Int) :
    mulRound false ⟨hi, lo, e⟩ =
      if lo < 2 ^ 35 then ⟨hi, lo, e⟩
      else if hi + 1 < 2 ^ 36 then ⟨hi + 1, lo, e⟩
      else ⟨2 ^ 35, lo / 2, e + 1⟩ := by
  by_cases hlo : 2 ^ 35 ≤ lo
  · simp only [mulRound, hlo, and_self, if_true, if_neg (not_lt.2 hlo)]
    by_cases hcarry : hi + 1 = 2 ^ 36
    · rw [if_pos hcarry, if_neg hcarry.not_lt]
    · rw [if_neg hcarry, if_pos (by omega)]
  · simp only [mulRound, hlo, and_false, if_false, if_pos (not_le.1 hlo)]

theorem tagOf_productWord (s : Bool) (e : Int) (m : Nat) (t : Bool) :
    tagOf (productWord s e m t) = t := by
  unfold productWord
  split_ifs
  · exact tagOf_zeroWord t
  · exact tagOf_pack ..

theorem mantOf_productWord {e : Int} {m : Nat} (he : 0 ≤ e) (hm : m < 2 ^ 36) (s t : Bool) :
    mantOf (productWord s e m t) = m := by
  unfold productWord
  split_ifs with h
  · rw [mantOf_zeroWord]
    omega
  · exact mantOf_pack hm

theorem signOf_productWord {s : Bool} {e : Int} {m : Nat} {t : Bool}
    (h : isZero (productWord s e m t) = false) : signOf (productWord s e m t) = s := by
  unfold productWord at h ⊢
  split_ifs at h ⊢
  · rw [isZero_zeroWord] at h
    cases h
  · exact signOf_pack ..

theorem productPair_of_le {s t : Bool} {e : Int} {hi lo : Nat} (he : e ≤ 127) :
    productPair s e hi lo t = .ok (productWord s e hi t, productWord s e lo t) :=
  if_neg (not_lt.2 he)

/-- Settles O42: the halves of the product, their rounding, and with `NR` and `NN` the product itself. -/
theorem productWordsAreTheRoundedHalves : Obligations.ProductWordsAreTheRoundedHalves := by
  refine ⟨fun nn s t x y prod hi lo e hs ht hne hnorm hprod hlo => ?halves,
    fun nr nn x y h => mulUnit_of_zero h nr nn, fun x y hlow hhigh => ?whole⟩
  case halves =>
    have hlt := product_lt x y
    have hnorm' : mulNormalize nn (mantOf x * mantOf y) ((expOf x : Int) + expOf y - 64) =
        ⟨hi, lo, e⟩ := by
      refine mulNormalize_eq ?_ hprod hlo
      split_ifs at hnorm ⊢
      · exact ⟨hnorm.1, by omega⟩
      · exact hnorm
    have hhi : hi < 2 ^ 36 := by split_ifs at hnorm <;> omega
    subst hs ht
    refine ⟨mulUnit_of_ne_zero hne (by rw [hnorm', mulRound_true]), ?_⟩
    rw [mulUnit_of_ne_zero hne (by rw [hnorm', mulRound_false hhi])]
    split_ifs <;> rfl
  case whole =>
    have hlt := product_lt x y
    by_cases h0 : mantOf x * mantOf y = 0
    · refine ⟨_, _, mulUnit_of_zero h0 true true, ?_, tagOf_zeroWord _, tagOf_zeroWord _⟩
      rw [mantOf_zeroWord, h0, Nat.zero_mul]
    · have hnorm : mulNormalize true (mantOf x * mantOf y) ((expOf x : Int) + expOf y - 64) =
          ⟨mantOf x * mantOf y / 2 ^ 36, mantOf x * mantOf y % 2 ^ 36,
            (expOf x : Int) + expOf y - 64⟩ :=
        if_neg nofun
      have he : (0 : Int) ≤ (expOf x : Int) + expOf y - 64 := by omega
      have hunit := mulUnit_of_ne_zero h0 (nr := true) (nn := true) (by rw [hnorm, mulRound_true])
      have hhi : mantOf x * mantOf y / 2 ^ 36 < 2 ^ 36 := by omega
      have hlo : mantOf x * mantOf y % 2 ^ 36 < 2 ^ 36 := Nat.mod_lt _ (by norm_num)
      refine ⟨_, _, hunit.trans (productPair_of_le (show (expOf x : Int) + expOf y - 64 ≤ 127 by omega)),
        ?_, tagOf_productWord .., tagOf_productWord ..⟩
      rw [mantOf_productWord he hhi, mantOf_productWord he hlo]
      exact Nat.div_add_mod' _ _

/-- Settles O43: products, sums, XOR and OR are symmetric, and a collapsed word is a zero. -/
theorem mulSymmetryAndSign : Obligations.MulSymmetryAndSign := by
  refine fun nr nn x y => ⟨?_, fun r low hr hz => ?_⟩
  · simp only [mulUnit, Nat.mul_comm (mantOf x), Int.add_comm (expOf x : Int), Bool.xor_comm (signOf x),
      Bool.or_comm (tagOf x)]
  · by_cases h0 : mantOf x * mantOf y = 0
    · rw [mulUnit_of_zero h0] at hr
      obtain ⟨rfl, -⟩ := Prod.mk.inj (Except.ok.inj hr)
      rw [isZero_zeroWord] at hz
      cases hz
    · rw [mulUnit_of_ne_zero h0 rfl, productPair] at hr
      split_ifs at hr
      obtain ⟨rfl, -⟩ := Prod.mk.inj (Except.ok.inj hr)
      exact signOf_productWord hz

/-! ### Division -/

theorem exec_divInstr_of_reads {a1 a2 : Operand} {s : State} {x y : Word} (hx : reads s a1 x)
    (hy : reads s a2 y) (nr : Bool) (a3 : Operand) :
    exec (divInstr nr a1 a2 a3) s =
      match divUnit nr x y with
      | .error st => raise st s
      | .ok r => arithDone r (auxAfter x y .div nr false false s) a3 s := by
  rw [exec_divInstr, divFamily, withRead_some _ _ _ _ hx, withRead_some _ _ _ _ hy]
  cases divUnit nr x y with
  | error st => rfl
  | ok r => exact arithFinish_drawAux ..

/-- Settles O44. -/
theorem divCompletes : Obligations.DivCompletes := by
  refine ⟨fun nr a1 a2 a3 s x y r hx hy hr => ?_, fun nr a1 a2 a3 s x y st hx hy hst => ?_⟩
  · rw [exec_divInstr_of_reads hx hy, hr]
  · rw [exec_divInstr_of_reads hx hy, hst]
    rfl

/-- Settles O45: the two checks come before everything else, the zero divisor first. -/
theorem divChecksTheMantissas : Obligations.DivChecksTheMantissas := by
  intro nr x y
  refine ⟨?zero, ?large, fun st => divUnit_error⟩
  case zero =>
    simp only [divUnit]
    split_ifs <;> simp_all
  case large =>
    simp only [divUnit]
    split_ifs <;> simp_all

/-- R128: the raw quotient with its guard bit, over `d` the divisor or its double. -/
theorem divRaw_eq {mx my d : Nat} {e0 e : Int} (hmy : 0 < my)
    (hd : if mx < my then d = my ∧ e = e0 else d = 2 * my ∧ e = e0 + 1) :
    divRaw mx my e0 = ⟨mx * 2 ^ 37 / d, e⟩ := by
  simp only [divRaw]
  split_ifs at hd with hlt
  · obtain ⟨rfl, rfl⟩ := hd
    have hsmall : mx * 2 ^ 37 / d < 2 ^ 37 := by
      rw [Nat.div_lt_iff_lt_mul hmy]
      omega
    rw [if_neg (not_le.2 hsmall)]
  · obtain ⟨rfl, rfl⟩ := hd
    have hlarge : 2 ^ 37 ≤ mx * 2 ^ 37 / my := by
      rw [Nat.le_div_iff_mul_le hmy]
      omega
    rw [if_pos hlarge, Nat.div_div_eq_div_mul, Nat.mul_comm my]

/-- R128: a quotient over a divisor above the dividend leaves room for rounding. -/
theorem quotient_lt {mx d : Nat} (hlt : mx < d) (hd : d < 2 ^ 37) : mx * 2 ^ 37 / d < 2 ^ 37 - 1 := by
  rw [Nat.div_lt_iff_lt_mul (by omega)]
  omega

/-- Dropping the guard bit is dividing a number of one place fewer. -/
theorem quotient_half (mx d : Nat) : mx * 2 ^ 37 / d / 2 = mx * 2 ^ 36 / d := by
  rw [Nat.div_div_eq_div_mul, pow_succ, ← Nat.mul_assoc, Nat.mul_div_mul_right _ _ (by norm_num)]

/-- R128: with that room no carry arises. -/
theorem divRound_of_lt {n : Nat} (h : n < 2 ^ 37 - 1) (nr : Bool) (e : Int) :
    (if nr = true then n / 2 else (n + 1) / 2) < 2 ^ 36 ∧
      divRound nr ⟨n, e⟩ = ⟨if nr = true then n / 2 else (n + 1) / 2, e⟩ := by
  cases nr with
  | true =>
    have hq : n / 2 < 2 ^ 36 := by omega
    refine ⟨hq, ?_⟩
    simp only [divRound, if_true]
    rw [if_neg hq.ne]
  | false =>
    have hq : (n + 1) / 2 < 2 ^ 36 := by omega
    refine ⟨hq, ?_⟩
    simp only [divRound, Bool.false_eq_true, if_false]
    rw [if_neg hq.ne]

/-- Past the two checks (R127 to R129). -/
theorem divUnit_of_lt {x y : Word} {d : Nat} {e : Int} (h0 : mantOf y ≠ 0)
    (hlt : mantOf x < 2 * mantOf y)
    (hd : if mantOf x < mantOf y then d = mantOf y ∧ e = (expOf x : Int) - expOf y + 64
      else d = 2 * mantOf y ∧ e = (expOf x : Int) - expOf y + 65)
    (nr : Bool) {q : Nat}
    (hq : q = if nr = true then mantOf x * 2 ^ 36 / d else (mantOf x * 2 ^ 37 / d + 1) / 2) :
    q < 2 ^ 36 ∧
      divUnit nr x y =
        if q = 0 ∨ e < 0 then .ok (zeroWord (tagOf x || tagOf y))
        else if 127 < e then .error .divOvf
        else .ok (pack (signOf x ^^ signOf y) e q (tagOf x || tagOf y)) := by
  have hmy := mantOf_lt y
  have hraw : divRaw (mantOf x) (mantOf y) ((expOf x : Int) - expOf y + 64) =
      ⟨mantOf x * 2 ^ 37 / d, e⟩ := by
    refine divRaw_eq (by omega) ?_
    split_ifs at hd ⊢
    · exact hd
    · exact ⟨hd.1, by omega⟩
  have hxd : mantOf x < d ∧ d < 2 ^ 37 := by split_ifs at hd <;> omega
  obtain ⟨hsmall, hround⟩ := divRound_of_lt (quotient_lt hxd.1 hxd.2) nr e
  rw [quotient_half, ← hq] at hsmall hround
  refine ⟨hsmall, ?_⟩
  simp only [divUnit, if_neg h0, if_neg (not_le.2 hlt), hraw, hround]

/-- Settles O46: the quotient, and the number read back from a word that did not collapse. -/
theorem quotientIsTheRoundedFraction : Obligations.QuotientIsTheRoundedFraction := by
  refine ⟨fun nr x y d q e h0 hlt hd hq => divUnit_of_lt h0 hlt hd nr hq, fun x y r hr hz => ?_⟩
  have h0 : mantOf y ≠ 0 := fun h => by
    rw [((divChecksTheMantissas true x y).1).2 h] at hr
    cases hr
  have hlt : mantOf x < 2 * mantOf y := not_le.1 fun h => by
    rw [((divChecksTheMantissas true x y).2.1).2 ⟨h0, h⟩] at hr
    cases hr
  -- the fields of a word that is neither a collapse nor an overflow
  have fields {d q : Nat} {e : Int}
      (hd : if mantOf x < mantOf y then d = mantOf y ∧ e = (expOf x : Int) - expOf y + 64
        else d = 2 * mantOf y ∧ e = (expOf x : Int) - expOf y + 65)
      (hq : q = mantOf x * 2 ^ 36 / d) : mantOf r = q ∧ (expOf r : Int) = e := by
    obtain ⟨hsmall, heq⟩ := divUnit_of_lt h0 hlt hd true hq
    rw [heq] at hr
    split_ifs at hr with hcollapse hover
    · obtain rfl := Except.ok.inj hr
      rw [isZero_zeroWord] at hz
      cases hz
    · obtain rfl := Except.ok.inj hr
      rw [not_or] at hcollapse
      exact ⟨mantOf_pack hsmall, expOf_pack (by omega) (by omega)⟩
  split_ifs with h
  · exact fields (d := mantOf y) (by rw [if_pos h]; exact ⟨rfl, rfl⟩) rfl
  · refine fields (d := 2 * mantOf y) (by rw [if_neg h]; exact ⟨rfl, rfl⟩) ?_
    rw [show mantOf x * 2 ^ 36 = 2 * (mantOf x * 2 ^ 35) by ring, Nat.mul_div_mul_left _ _ (by norm_num)]

/-! ### Square root -/

/-- The digit recurrence keeps the root between its lower and its upper bound. -/
theorem isqrtDigits_spec (rad n r : Nat) (hlow : r * r ≤ rad)
    (hhigh : rad < (r + 2 ^ n) * (r + 2 ^ n)) :
    isqrtDigits rad n r * isqrtDigits rad n r ≤ rad ∧
      rad < (isqrtDigits rad n r + 1) * (isqrtDigits rad n r + 1) := by
  induction n generalizing r with
  | zero => exact ⟨hlow, hhigh⟩
  | succ n ih =>
    unfold isqrtDigits
    split_ifs with hbit
    · refine ih _ hbit ?_
      rwa [Nat.add_assoc, ← Nat.two_mul, ← pow_succ']
    · exact ih _ hlow (not_le.1 hbit)

/-- Settles O48: from 0 the recurrence covers all roots of 36 bits. -/
theorem isqrtIsTheGreatestRoot : Obligations.IsqrtIsTheGreatestRoot := by
  intro rad hrad
  obtain ⟨hlow, hhigh⟩ := isqrtDigits_spec rad 36 0 (Nat.zero_le _) (by norm_num; exact hrad)
  refine ⟨hlow, hhigh, Nat.mul_self_lt_mul_self_iff.1 (lt_of_le_of_lt hlow ?_)⟩
  calc rad < 2 ^ 72 := hrad
    _ = 2 ^ 36 * 2 ^ 36 := by norm_num

/-- R137: the root of a radicand made of a mantissa rounds to 36 bits without a carry. -/
theorem sqrtRound_eq {rad : Nat} (hrad : rad ≤ (2 ^ 36 - 1) * 2 ^ 36) (nr : Bool) (e : Int) :
    sqrtRound nr ⟨rad, e⟩ =
      ⟨if nr = false ∧ isqrt rad < rad - isqrt rad * isqrt rad then isqrt rad + 1 else isqrt rad,
        e⟩ := by
  obtain ⟨-, -, hroot⟩ := isqrtIsTheGreatestRoot rad (by norm_num at hrad ⊢; omega)
  have hnocarry : (if nr = false ∧ isqrt rad < rad - isqrt rad * isqrt rad then isqrt rad + 1
      else isqrt rad) ≠ 2 ^ 36 := by
    split_ifs with hup
    · -- at the greatest root of 36 bits the remainder does not exceed the root
      intro hfull
      have hmax : isqrt rad = 2 ^ 36 - 1 := by omega
      have hrem := hup.2
      rw [hmax] at hrem
      omega
    · exact hroot.ne
  simp only [sqrtRound]
  rw [if_neg hnocarry]

theorem sqrtUnit_of_neg {x : Word} (h : signOf x = true) (nr : Bool) :
    sqrtUnit nr x = .error .sqrtNeg := by
  simp only [sqrtUnit, h, if_true]

theorem sqrtUnit_of_zero {x : Word} (hs : signOf x = false) (h : mantOf x = 0) (nr : Bool) :
    sqrtUnit nr x = .ok (zeroWord (tagOf x)) := by
  simp only [sqrtUnit, hs, h, Bool.false_eq_true, if_false, if_true]

/-- R136, R137: a positive number always has a root in range. -/
theorem sqrtUnit_of_pos {x : Word} {rad e : Nat} (hs : signOf x = false) (h0 : mantOf x ≠ 0)
    (h : if expOf x % 2 = 1 then rad = mantOf x * 2 ^ 35 ∧ e = (expOf x + 1) / 2 + 32
      else rad = mantOf x * 2 ^ 36 ∧ e = expOf x / 2 + 32) (nr : Bool) :
    sqrtUnit nr x = .ok (pack false e
      (if nr = false ∧ isqrt rad < rad - isqrt rad * isqrt rad then isqrt rad + 1 else isqrt rad)
      (tagOf x)) := by
  have hm := mantOf_lt x
  have hx := expOf_lt x
  have hscale : sqrtScale (expOf x) (mantOf x) = ⟨rad, e⟩ := by
    unfold sqrtScale
    split_ifs at h ⊢
    · rw [h.1, h.2]
    · rw [h.1, h.2]
  have hrad : rad ≤ (2 ^ 36 - 1) * 2 ^ 36 := by split_ifs at h <;> omega
  have he : ¬ (127 : Int) < e := by split_ifs at h <;> omega
  simp only [sqrtUnit, hs, Bool.false_eq_true, if_false, if_neg h0, hscale, sqrtRound_eq hrad, if_neg he]

/-- The unit's answer by the sign: a number with sign 0, or the status of a negative operand. -/
theorem sqrtUnit_nonneg {x : Word} (hs : signOf x = false) (nr : Bool) :
    ∃ r, sqrtUnit nr x = .ok r ∧ signOf r = false := by
  by_cases h0 : mantOf x = 0
  · exact ⟨_, sqrtUnit_of_zero hs h0 nr, signOf_zeroWord _⟩
  by_cases hodd : expOf x % 2 = 1
  · exact ⟨_, sqrtUnit_of_pos hs h0 (by rw [if_pos hodd]; exact ⟨rfl, rfl⟩) nr, signOf_pack ..⟩
  · exact ⟨_, sqrtUnit_of_pos hs h0 (by rw [if_neg hodd]; exact ⟨rfl, rfl⟩) nr, signOf_pack ..⟩

theorem exec_sqrtInstr_of_reads {a1 : Operand} {s : State} {x : Word} (hx : reads s a1 x) (nr : Bool)
    (a2 a3 : Operand) :
    exec (sqrtInstr nr a1 a2 a3) s =
      match sqrtUnit nr x with
      | .error st => raise st s
      | .ok r => arithDone r (auxAfter x 0 .sqrt nr false false s) a3 s := by
  rw [exec_sqrtInstr, sqrtFamily, withRead_some _ _ _ _ hx]
  cases sqrtUnit nr x with
  | error st => rfl
  | ok r => exact arithFinish_drawAux ..

/-- Settles O47: the sign decides between the status and a root, which needs no overflow test. -/
theorem sqrtCompletes : Obligations.SqrtCompletes := by
  refine ⟨fun nr a1 a2 a3 s x r hx hr => ⟨?exec, ?sign⟩, fun nr a1 a2 a3 s x st hx hst => ?fails,
    fun nr x st => ?error, fun nr x hs h0 => sqrtUnit_of_zero hs h0 nr,
    fun nr x rad e hs h0 h => sqrtUnit_of_pos hs h0 h nr⟩
  case exec => rw [exec_sqrtInstr_of_reads hx, hr]
  case sign =>
    cases hs : signOf x with
    | true => rw [sqrtUnit_of_neg hs] at hr; cases hr
    | false =>
      obtain ⟨r', hr', hsign⟩ := sqrtUnit_nonneg hs nr
      obtain rfl := Except.ok.inj (hr.symm.trans hr')
      exact hsign
  case fails =>
    rw [exec_sqrtInstr_of_reads hx, hst]
    rfl
  case error =>
    cases hs : signOf x with
    | true =>
      rw [sqrtUnit_of_neg hs, Except.error.injEq]
      exact ⟨fun h => ⟨rfl, h.symm⟩, fun h => h.2.symm⟩
    | false =>
      obtain ⟨r, hr, -⟩ := sqrtUnit_nonneg hs nr
      rw [hr]
      exact ⟨nofun, fun h => nomatch h.1⟩

/-! ### Exponent arithmetic -/

/-- R146: overflow is tested before normalization. -/
theorem expFinish_eq (nn : Bool) (x : Word) (e : Int) (t : Bool) (a3 : Operand) (s : State) :
    expFinish nn x e t (effAddr a3 s) s =
      if 127 < e then .next (onlyStatus .addOvf s)
      else arithDone
        (if nn then if e < 0 then zeroWord t else pack (signOf x) e (mantOf x) t
          else normalize (signOf x) e (mantOf x) t) s.aux a3 s := by
  unfold expFinish expUnit
  split_ifs <;> rfl

/-- Settles O49: both forms end in R146's tail. -/
theorem exponentInstructionsComplete : Obligations.ExponentInstructionsComplete := by
  refine ⟨fun sb nn a1 a2 a3 s x e hx he => ?_, fun sb nn a1 a2 a3 s x z e t hz hx ht he => ?_⟩
  · subst he
    rw [exec_expImmediateInstr, expImmediate, withRead_some _ _ _ _ hx]
    exact expFinish_eq ..
  · subst ht he
    rw [exec_expOperandInstr, expOperand, withRead_some _ _ _ _ hz, withRead_some _ _ _ _ hx]
    exact expFinish_eq ..

end Sys2Proof.Machine
end
